-- ==== Sys2Proof/Word.lean ====
section
/-! DEFINITION. The word types of the block (00_scope.md R7, R8; 20_memory.md R70). -/

namespace Sys2Proof

/-- A byte of the wire RAM (10_state.md R41). -/
abbrev Byte := BitVec 8

/-- A 32-bit host word: every host register, table entry and command word (20_memory.md R61). -/
abbrev Word := BitVec 32

/-- A remote register address, REG_ADDR_WIDTH = 16 bits (00_scope.md R7, 20_memory.md R70). -/
abbrev RegAddr := BitVec 16

/-- A remote register value, REG_DATA_WIDTH = 16 bits (00_scope.md R7, 20_memory.md R70). -/
abbrev RegData := BitVec 16

end Sys2Proof
end

