-- ==== Sys2Proof/Machine/Arith.lean ====
section
/-! DEFINITION. The exact arithmetic the rules are written in (00_scope.md R9-R12). -/

namespace Sys2Proof.Machine

/-- `rnd(a, b)`: the nearest integer to a/b, an exact half rounded up (00_scope.md R10). -/
def rnd (a b : Nat) : Nat := (2 * a + b) / (2 * b)

/-- `trunc(a/b)` for an integer `a` and `b > 0`: the integer part toward zero (00_scope.md R11). -/
def truncDiv (a : Int) (b : Nat) : Int := a.tdiv b

/-- `half_hi` and `half_lo` (00_scope.md R12). -/
def halfHi (n : Nat) : Nat := (n + 1) / 2
def halfLo (n : Nat) : Nat := n / 2

/-- `split(n)`: the high half-counter in bits 15:8, the low one in bits 7:0 (00_scope.md R12). -/
def splitHalves (n : Nat) : BitVec 16 := BitVec.ofNat 8 (halfHi n) ++ BitVec.ofNat 8 (halfLo n)

/-- The distance |a - b| of two naturals. -/
def absDiff (a b : Nat) : Nat := (a - b) + (b - a)

/-- A Bool as the number 0 or 1, a one-bit field. -/
def bit (b : Bool) : BitVec 1 := BitVec.ofBool b

/-- `asr(s16(v), 4)` of a 16-bit word, as 16 bits (00_scope.md R9). -/
def asr4 (v : BitVec 16) : BitVec 16 := v.sshiftRight 4

end Sys2Proof.Machine
end

