-- ==== Sys2Proof/Config.lean ====
section
/-! DEFINITION. The parameters of 00_scope.md R7, every one a field of Params, which State carries
unchanged, and the free values of the model (notes/assumptions/3.md). -/

namespace Sys2Proof

/-- TIE_RULE: which of two candidates of equal deviation is kept (00_scope.md R7,
41_pll_synthesizer.md R184, 90_conflicts.md C1). -/
inductive TieRule where
  | first
  | last
  deriving DecidableEq, Repr, Inhabited

/-- REGMAP: the remote register addresses by role (20_memory.md R80). -/
structure RegMap where
  status   : RegAddr
  ctrl     : RegAddr
  phsteps  : RegAddr
  mnOddByp : RegAddr
  cenLo    : RegAddr
  cenHi    : RegAddr
  ncnt     : RegAddr
  mcnt     : RegAddr
  c        : Vector RegAddr 16
  deriving DecidableEq, Repr

/-- The parameters, every row of the table of 00_scope.md R7. What a width or size below the default
does is said at Params.hz, Params.portAddr, Params.portData and Loc.present; Word.lean's types and the
Vectors of State hold the largest (notes/assumptions/3.md). -/
structure Params where
  /-- F_WIDTH: the width of a frequency operand (10_state.md R28, R37; Params.hz). -/
  fWidth        : Nat
  /-- HOST_BASE: where the platform puts the host window (20_memory.md R60, R65). -/
  hostBase      : Nat
  /-- VCO_MIN and VCO_MAX in Hz. -/
  vcoMin        : Nat
  vcoMax        : Nat
  /-- F_FLOOR in Hz. -/
  fFloor        : Nat
  /-- NM_MIN and NM_MAX, the range of N and M. -/
  nmMin         : Nat
  nmMax         : Nat
  /-- PLL_COUNT. -/
  pllCount      : Nat
  /-- OUT_COUNT, outputs of a PLL: the entries of the output table and of RES_C (10_state.md R36-R38;
  Loc.present). -/
  outCount      : Nat
  /-- REG_ADDR_WIDTH and REG_DATA_WIDTH of the remote register port (20_memory.md R70;
  Params.portAddr, Params.portData). -/
  regAddrWidth  : Nat
  regDataWidth  : Nat
  /-- POLL_INTERVAL and POLL_TIMEOUT in milliseconds. "timing only": no rule depends on them
  (00_scope.md R7, R13, 40_register_protocol.md R142; notes/assumptions/17.md). -/
  pollIntervalMs : Nat
  pollTimeoutMs  : Nat
  /-- POLL_LIMIT, status reads of one poll loop. -/
  pollLimit     : Nat
  /-- BUSY_POLL_CAP (40_register_protocol.md R132). -/
  busyPollCap   : Bool
  tieRule       : TieRule
  /-- PHASE_BIAS as the rational phaseBiasNum / phaseBiasDen (42_phase.md R224). -/
  phaseBiasNum  : Int
  phaseBiasDen  : Nat
  /-- PHASE_STEPS_MAX. -/
  phaseStepsMax : Nat
  /-- CNT_IND_OFFSET (42_phase.md R223). -/
  cntIndOffset  : Nat
  /-- BATCH_MAX, entries of a REG_WRITE batch and of the BATCH table (40_register_protocol.md R151,
  10_state.md R39). -/
  batchMax      : Nat
  /-- SAMPLE_ENTRIES, entries of the sample RAM (10_state.md R40, 20_memory.md R63,
  43_sample_codec.md R252). -/
  sampleEntries : Nat
  /-- WIRE_BYTES, bytes of the wire RAM (10_state.md R41, 20_memory.md R63). No codec command checks
  it: it holds what SAMPLE_ENTRIES entries need (43_sample_codec.md R252). -/
  wireBytes     : Nat
  regmap        : RegMap
  deriving DecidableEq, Repr

namespace Config

/-- REGMAP's default addresses (20_memory.md R80). -/
def defaultRegMap : RegMap where
  status   := 0x0021
  ctrl     := 0x0023
  phsteps  := 0x0024
  mnOddByp := 0x0026
  cenLo    := 0x0027
  cenHi    := 0x0028
  ncnt     := 0x002A
  mcnt     := 0x002B
  c        := #v[0x002E, 0x002F, 0x0030, 0x0031, 0x0032, 0x0033, 0x0034, 0x0035,
                 0x0036, 0x0037, 0x0038, 0x0039, 0x003A, 0x003B, 0x003C, 0x003D]

/-- The spec's configuration: every default of 00_scope.md R7. HOST_BASE has no default there;
0 is a DESIGN CHOICE (notes/assumptions/4.md). -/
def defaults : Params where
  hostBase      := 0
  fWidth        := 32
  vcoMin        := 600000000
  vcoMax        := 1300000000
  fFloor        := 5000000
  nmMin         := 1
  nmMax         := 255
  pllCount      := 16
  outCount      := 16
  regAddrWidth  := 16
  regDataWidth  := 16
  pollIntervalMs := 10
  pollTimeoutMs  := 3000
  pollLimit     := 301
  busyPollCap   := true
  tieRule       := .first
  phaseBiasNum  := 49
  phaseBiasDen  := 100
  phaseStepsMax := 65535
  cntIndOffset  := 2
  batchMax      := 64
  sampleEntries := 1024
  wireBytes     := 4096
  regmap        := defaultRegMap

end Config

/-- The eight single addresses and the sixteen C_i addresses of REGMAP are pairwise distinct
(20_memory.md R80). -/
def RegMap.distinct (r : RegMap) : Bool :=
  decide ([r.status, r.ctrl, r.phsteps, r.mnOddByp, r.cenLo, r.cenHi, r.ncnt, r.mcnt] ++
    r.c.toList).Nodup

/-- The parameter values the rules are written for: loop bounds positive, N and M in 8 bits, the
poll count in 16 bits (10_state.md R45), the counter index in 5 bits (42_phase.md R223), the step
magnitude in 16 bits (20_memory.md R86), REGMAP's addresses distinct, the widths and sizes
at most those of the registers, tables and RAMs (10_state.md R28, R36-R41, 20_memory.md R70), the wire form of all samples within WRAM (43_sample_codec.md R252). -/
structure Params.Ok (p : Params) : Prop where
  fFloor_pos     : 0 < p.fFloor
  vco_pos        : 0 < p.vcoMin
  nmMin_pos      : 1 ≤ p.nmMin
  nmMax_byte     : p.nmMax ≤ 255
  pllCount_le    : p.pllCount ≤ 16
  pollLimit_pos  : 1 ≤ p.pollLimit
  pollLimit_le   : p.pollLimit ≤ 65535
  biasDen_pos    : 0 < p.phaseBiasDen
  stepsMax_le    : p.phaseStepsMax ≤ 65535
  cntInd_fits    : p.cntIndOffset + 15 < 32
  regmap_distinct : p.regmap.distinct = true
  fWidth_le      : p.fWidth ≤ 32
  outCount_le    : p.outCount ≤ 16
  addrWidth_le   : p.regAddrWidth ≤ 16
  dataWidth_le   : p.regDataWidth ≤ 16
  batchMax_le    : p.batchMax ≤ 64
  sampleEntries_le : p.sampleEntries ≤ 1024
  wireBytes_le   : p.wireBytes ≤ 4096
  wireBytes_fits : 4 * p.sampleEntries ≤ p.wireBytes

/-- The frequency in Hz of an operand word: its low F_WIDTH bits, unsigned (00_scope.md R7,
10_state.md R28, R37). That the bits above it are ignored is a DESIGN CHOICE
(notes/assumptions/3.md). -/
def Params.hz (p : Params) (w : Word) : Nat := w.toNat % 2 ^ p.fWidth

/-- An address as the remote register port carries it, its low REG_ADDR_WIDTH bits (00_scope.md R7,
20_memory.md R70). That it drops the bits above is a DESIGN CHOICE (notes/assumptions/3.md). -/
def Params.portAddr (p : Params) (a : RegAddr) : RegAddr :=
  BitVec.ofNat 16 (a.toNat % 2 ^ p.regAddrWidth)

/-- A value as the port carries it, its low REG_DATA_WIDTH bits (00_scope.md R7, 20_memory.md R70).
That it drops the bits above is a DESIGN CHOICE (notes/assumptions/3.md). -/
def Params.portData (p : Params) (v : RegData) : RegData :=
  BitVec.ofNat 16 (v.toNat % 2 ^ p.regDataWidth)

/-- A batch as the port carries it. -/
def Params.portList (p : Params) (l : List (RegAddr × RegData)) : List (RegAddr × RegData) :=
  l.map fun x => (p.portAddr x.1, p.portData x.2)

/-- One draw of the environment, a value under no law (00_scope.md R15 "Draw"): what the transport
and the remote device answer to one transaction, and what a host read while BUSY returns. Each use
reads the part it needs. -/
structure Draw where
  /-- The transaction is answered IOERR (20_memory.md R76, R77). -/
  fails   : Bool
  /-- The value a successful transport read returns (20_memory.md R76). -/
  value   : RegData
  /-- For a failed batch, pair by pair, whether it was applied; a pair past the end of the list was
  not (20_memory.md R77). -/
  applied : List Bool
  /-- The value a host read returns while BUSY = 1 (10_state.md R44). -/
  word    : Word
  deriving DecidableEq, Repr, Inhabited

/-- The free values of the model (notes/assumptions/2.md): the draw number n of the environment, where
the State's list of draws gives none. It has no body, so nothing can be proved of it that does not
hold for every draw. -/
opaque Config.freeDraw : Nat → Draw

/-- A draw whose value the port has carried. -/
def Params.portDraw (p : Params) (d : Draw) : Draw := { d with value := p.portData d.value }

end Sys2Proof
end

