-- ==== Sys2Proof/Machine/State.lean ====
section
/-! DEFINITION. The state of the block (10_state.md), the moves of its environment (00_scope.md R6),
the faults (60_exceptions.md R293) and the state after reset (70_reset_and_hazards.md R311). -/

namespace Sys2Proof.Machine

/-- STAT.RESULT (60_exceptions.md R281). The reserved codes 6 and 7 are never written. -/
inductive Result where
  | ok
  | invalidArgument
  | ioError
  | timeout
  | hardwareError
  | illegalCommand
  deriving DecidableEq, Repr

/-- STAT.DETAIL (60_exceptions.md R282). The reserved code 15 is never written. -/
inductive Detail where
  | none
  | pllIndex
  | finLow
  | foutLow
  | dupIndex
  | noCandidate
  | noValidNm
  | fvcoRange
  | cZero
  | unknownOpcode
  | reservedBits
  | countRange
  | predRange
  | notConfigured
  | stepsRange
  deriving DecidableEq, Repr

/-- STAT's fields (10_state.md R22). The reserved bits 7:6 and 15:12 read as zero and are not stored. -/
structure Stat where
  busy    : Bool
  result  : Result
  ovr     : Bool
  clrFail : Bool
  detail  : Detail
  errcode : BitVec 16
  deriving DecidableEq, Repr

/-- RES_NM's fields (10_state.md R33). -/
structure ResNm where
  n     : BitVec 8
  m     : BitVec 8
  score : BitVec 5
  deriving DecidableEq, Repr

/-- RES_STEPS's fields: the step magnitude and the direction bit (10_state.md R35). -/
structure ResSteps where
  mag  : BitVec 16
  updn : Bool
  deriving DecidableEq, Repr

/-- The sequencer is idle or executing a command (10_state.md R45). -/
inductive Seq where
  | idle
  | exec
  deriving DecidableEq, Repr

/-- The stage of the running command (10_state.md R45). -/
inductive Stage where
  | decode
  | batch
  | poll
  | clear
  | finish
  deriving DecidableEq, Repr

/-- The pending terminal outcome of a command, with the error value of HWERR (10_state.md R45,
40_register_protocol.md R140). -/
inductive Term where
  | done
  | timeout
  | hwerr (e : BitVec 16)
  | ioerr
  deriving DecidableEq, Repr

/-- A poll predicate (done_bit, err_lsb, err_width) (40_register_protocol.md R133), its fields as wide
as ARG_POLL's (10_state.md R31). -/
structure Pred where
  doneBit  : BitVec 4
  errLsb   : BitVec 4
  errWidth : BitVec 5
  deriving DecidableEq, Repr

/-- A transport event (20_memory.md R78). -/
inductive Event where
  | read (a : RegAddr) (v : RegData)
  | readFail (a : RegAddr)
  | write (a : RegAddr) (v : RegData)
  | batchFail (n : Nat)
  deriving DecidableEq, Repr

/-- A transport transaction: a register read or an ordered batch write (20_memory.md R71). -/
inductive Transaction where
  | read (a : RegAddr)
  | write (l : List (RegAddr × RegData))
  deriving DecidableEq, Repr

/-- What a host access does. -/
inductive HostOp where
  | read
  | write (v : Word)
  deriving DecidableEq, Repr

/-- A host access: its address in the host's address map, its width in bytes, what it does
(20_memory.md R60, R61). -/
structure HostAccess where
  addr  : Nat
  bytes : Nat
  op    : HostOp
  deriving DecidableEq, Repr

/-- A move of the environment (notes/assumptions/1.md): the host makes an access, the sequencer is
given its turn, or reset is asserted, with a transport transaction in flight or not
(00_scope.md R6, 70_reset_and_hazards.md R312). -/
inductive Input where
  | host (a : HostAccess)
  | turn
  | reset (inFlight : Bool)
  deriving DecidableEq, Repr

/-- The block's two RAMs as one list of (host-window offset, byte) in strictly rising order. A byte
is listed exactly when it was written since reset: being listed is the `written` flag of
10_state.md R49, and an unlisted byte has no value (notes/assumptions/12.md). -/
abbrev Memory := List Host.Cell

/-- The state of the block and, last, of its environment. -/
structure State where
  /-- The parameters, which no step writes (00_scope.md R7; notes/assumptions/3.md). -/
  params     : Params
  /-- CMD; while executing also the latched command word (10_state.md R21, R45). -/
  cmd        : Word
  /-- STAT (10_state.md R22). -/
  stat       : Stat
  /-- FIN (10_state.md R28). -/
  fin        : Word
  /-- CTRL_SHADOW (10_state.md R29). -/
  ctrlShadow : BitVec 16
  /-- PHASE_MDEG (10_state.md R30). -/
  phaseMdeg  : Word
  /-- ARG_POLL (10_state.md R31). -/
  argPoll    : Word
  /-- RDATA (10_state.md R32). -/
  rdata      : BitVec 16
  /-- RES_NM (10_state.md R33). -/
  resNm      : ResNm
  /-- POLLCNT, which is also the poll count k (10_state.md R34, R45). -/
  pollcnt    : BitVec 16
  /-- RES_STEPS (10_state.md R35). -/
  resSteps   : ResSteps
  /-- RES_C[0..15] (10_state.md R36). -/
  resC       : Vector (BitVec 9) 16
  /-- OUT_FREQ[0..15] (10_state.md R37). -/
  outFreq    : Vector Word 16
  /-- OUT_CFG[0..15]: bit 4 BYPASS, bits 3:0 INDEX (10_state.md R38). -/
  outCfg     : Vector (BitVec 5) 16
  /-- BATCH[0..63]: bits 31:16 ADDR, bits 15:0 VALUE (10_state.md R39). -/
  batch      : Vector Word 64
  /-- SRAM and WRAM (10_state.md R40, R41, R49). -/
  mem        : Memory
  /-- Sequencer: idle or executing (10_state.md R45). -/
  seq        : Seq
  /-- Sequencer: the stage (10_state.md R45). -/
  stage      : Stage
  /-- Sequencer: the pending terminal outcome (10_state.md R45). -/
  term       : Term
  /-- Command local: the batch list (10_state.md R45). -/
  lBatch     : List (RegAddr × RegData)
  /-- Command local: the control base word (10_state.md R45). -/
  lBase      : BitVec 16
  /-- Command local: the step count (10_state.md R45). -/
  lSteps     : Int
  /-- Command local: the poll predicate (40_register_protocol.md R133, R152). -/
  lPred      : Pred
  /-- The event history, oldest first (20_memory.md R78). -/
  history    : List Event
  /-- Environment: the moves to come, the next one first (notes/assumptions/1.md). -/
  inputs     : List Input
  /-- Environment: the draws to come, the next one first (notes/assumptions/2.md). -/
  draws      : List Draw
  /-- Environment: the number of the next free draw (notes/assumptions/2.md). -/
  drawCount  : Nat
  /-- Host: the (window offset, value) pairs its reads have returned, oldest first
  (notes/assumptions/11.md). -/
  hostReads  : List (Nat × Word)
  deriving DecidableEq, Repr

/-- Why the model stops (60_exceptions.md R293: "These are the only faults"). Both are safe: the
hardware goes on and the model gives no next state. -/
inductive Fault where
  /-- Raised by a host access that is not 32 bits wide, not 4-byte aligned, or falls on an unmapped
  offset (20_memory.md R61). Safe: the hardware returns a bus error and changes nothing. -/
  | hostBusError
  /-- Raised by a codec command, or by a host read while BUSY = 0, that reads an SRAM entry or a
  WRAM byte not written since reset (10_state.md R49). Safe: the hardware returns an unspecified
  value. -/
  | unwrittenRead
  deriving DecidableEq, Repr

/-- Why the model has no meaning for a command. -/
inductive Refusal where
  /-- Raised by an arm of `exec` whose command has no meaning yet; there is none. Safe. -/
  | notModelled (mnemonic : String)
  deriving DecidableEq, Repr

/-- The outcome of a step of this machine. -/
abbrev Step := Host.Outcome State Fault Refusal

/-- The state after reset (70_reset_and_hazards.md R311): every register 0, the sequencer idle, no RAM
location written, an empty history. The sequencer's locals are "unspecified, unread while IDLE"
there, and the values named here are a DESIGN CHOICE (notes/assumptions/5.md), as are those of the
environment's fields (notes/assumptions/6.md). -/
def State.reset : State where
  params     := Config.defaults
  cmd        := 0
  stat       := ⟨false, .ok, false, false, .none, 0⟩
  fin        := 0
  ctrlShadow := 0
  phaseMdeg  := 0
  argPoll    := 0
  rdata      := 0
  resNm      := ⟨0, 0, 0⟩
  pollcnt    := 0
  resSteps   := ⟨0, false⟩
  resC       := .replicate 16 0
  outFreq    := .replicate 16 0
  outCfg     := .replicate 16 0
  batch      := .replicate 64 0
  mem        := []
  seq        := .idle
  stage      := .decode
  term       := .done
  lBatch     := []
  lBase      := 0
  lSteps     := 0
  lPred      := ⟨0, 0, 0⟩
  history    := []
  inputs     := []
  draws      := []
  drawCount  := 0
  hostReads  := []

end Sys2Proof.Machine
end

