-- ==== Sys2Proof/Machine/Flags.lean ====
section
/-! DEFINITION. STAT, the block's only flag-like state (10_state.md R20, R22-R27): the result and
detail codes, the word the host reads, and what a host write of STAT changes. -/

namespace Sys2Proof.Machine

/-- The RESULT codes (60_exceptions.md R281). -/
def Result.code : Result → BitVec 3
  | .ok => 0
  | .invalidArgument => 1
  | .ioError => 2
  | .timeout => 3
  | .hardwareError => 4
  | .illegalCommand => 5

/-- The DETAIL codes (60_exceptions.md R282). -/
def Detail.code : Detail → BitVec 4
  | .none => 0
  | .pllIndex => 1
  | .finLow => 2
  | .foutLow => 3
  | .dupIndex => 4
  | .noCandidate => 5
  | .noValidNm => 6
  | .fvcoRange => 7
  | .cZero => 8
  | .unknownOpcode => 9
  | .reservedBits => 10
  | .countRange => 11
  | .predRange => 12
  | .notConfigured => 13
  | .stepsRange => 14

/-- The word a host reads from STAT: ERRCODE 31:16, DETAIL 11:8, CLR_FAIL 5, OVR 4, RESULT 3:1,
BUSY 0, the rest zero (10_state.md R22). -/
def Stat.word (t : Stat) : Word :=
  t.errcode ++ 0#4 ++ t.detail.code ++ 0#2 ++ BitVec.ofBool t.clrFail ++ BitVec.ofBool t.ovr ++
    t.result.code ++ BitVec.ofBool t.busy

/-- A host write of STAT: OVR <- OVR & ~w[4], every other bit of the word ignored
(10_state.md R22). -/
def Stat.hostWrite (t : Stat) (w : Word) : Stat := { t with ovr := t.ovr && !w.getLsbD 4 }

/-- STAT at the acceptance of a command: BUSY 1; RESULT, DETAIL, ERRCODE, CLR_FAIL 0; OVR kept
(10_state.md R23, R26, R46). -/
def Stat.accept (t : Stat) : Stat :=
  { t with busy := true, result := .ok, clrFail := false, detail := .none, errcode := 0 }

/-- STAT at `finish`: RESULT and DETAIL written, BUSY 0; ERRCODE, CLR_FAIL and OVR kept
(60_exceptions.md R284). -/
def Stat.finish (t : Stat) (r : Result) (d : Detail) : Stat :=
  { t with busy := false, result := r, detail := d }

end Sys2Proof.Machine
end

