-- ==== Sys2Proof/Machine/Ops.lean ====
section
/-! DEFINITION. The shared operations: the RAMs (20_memory.md R63), the transport (R76-R78),
acceptance of a command (10_state.md R46) and `finish`, the block's analogue of taking an
exception (60_exceptions.md R284, R287). -/

namespace Sys2Proof.Machine

/-! ### The RAMs -/

/-- The byte listed at an offset, none where it has not been written since reset (10_state.md R49). -/
def Memory.read : Memory → Nat → Option Byte
  | [], _ => none
  | (x, y) :: m, a => if x = a then some y else Memory.read m a

/-- Write one byte, keeping the list in rising order of offsets. -/
def Memory.write : Memory → Nat → Byte → Memory
  | [], a, b => [(a, b)]
  | (x, y) :: m, a, b =>
    if a < x then (a, b) :: (x, y) :: m
    else if a = x then (a, b) :: m
    else (x, y) :: Memory.write m a b

/-- The canonical form of a memory: offsets strictly rising. (No entry can equal what an unlisted
offset reads as: that is no value.) -/
abbrev Memory.wf (m : Memory) : Prop := (m.map Prod.fst).Pairwise (· < ·)

/-- Read `n` bytes in rising offsets, none where one of them is unwritten. -/
def Memory.readBytes (m : Memory) (a : Nat) : Nat → Option (List Byte)
  | 0 => some []
  | n + 1 =>
    match m.read a, Memory.readBytes m (a + 1) n with
    | some b, some bs => some (b :: bs)
    | _, _ => none

/-- Write bytes at rising offsets. -/
def Memory.writeBytes (m : Memory) (a : Nat) : List Byte → Memory
  | [] => m
  | b :: bs => Memory.writeBytes (m.write a b) (a + 1) bs

/-- The 32-bit word of four bytes, byte lane b in bits 8b+7:8b (20_memory.md R62). -/
def wordOfBytes (b0 b1 b2 b3 : Byte) : Word := b3 ++ b2 ++ b1 ++ b0

/-- The four byte lanes of a word, lane 0 first (20_memory.md R62). -/
def bytesOfWord (w : Word) : List Byte :=
  [w.extractLsb' 0 8, w.extractLsb' 8 8, w.extractLsb' 16 8, w.extractLsb' 24 8]

/-- A 32-bit read of four bytes, none where one of them is unwritten. -/
def Memory.readWord (m : Memory) (a : Nat) : Option Word :=
  match m.readBytes a 4 with
  | some [b0, b1, b2, b3] => some (wordOfBytes b0 b1 b2 b3)
  | _ => none

/-- A 32-bit write of four bytes. -/
def Memory.writeWord (m : Memory) (a : Nat) (w : Word) : Memory := m.writeBytes a (bytesOfWord w)

/-- The window offset of SRAM entry `e` (10_state.md R40). -/
def sramAddr (e : Nat) : Nat := 0x1000 + 4 * e

/-- The window offset of WRAM byte `b` (10_state.md R41). -/
def wramAddr (b : Nat) : Nat := 0x2000 + b

/-! ### The draws of the environment -/

/-- The draw the next use gets: the first of the State's list, else the free value of the counter
(notes/assumptions/2.md). A value read comes through the port (Params.portData). -/
def State.draw (s : State) : Draw :=
  s.params.portDraw (match s.draws with
    | d :: _ => d
    | [] => Config.freeDraw s.drawCount)

/-- The state after a draw is used. -/
def State.popDraw (s : State) : State :=
  { s with draws := s.draws.tail, drawCount := s.drawCount + 1 }

/-! ### The transport -/

/-- The in-order subsequence of a batch that a draw says was applied (20_memory.md R77). -/
def appliedPairs (l : List (RegAddr × RegData)) (applied : List Bool) : List (RegAddr × RegData) :=
  (l.zip applied).filterMap fun x => if x.2 then some x.1 else none

/-- The Write events of pairs, in order (20_memory.md R77). -/
def writeEvents (l : List (RegAddr × RegData)) : List Event := l.map fun p => .write p.1 p.2

/-- The event of a transport read under a draw (20_memory.md R76). -/
def readEvents (a : RegAddr) (d : Draw) : List Event :=
  if d.fails then [.readFail a] else [.read a d.value]

/-- The events of a batch under a draw: all pairs, or the applied ones and BatchFail
(20_memory.md R77). -/
def batchEvents (l : List (RegAddr × RegData)) (d : Draw) : List Event :=
  if d.fails then writeEvents (appliedPairs l d.applied) ++ [.batchFail l.length]
  else writeEvents l

/-- The state after `TRead(a)`: the draw used, the event appended (20_memory.md R76, R78), the address
carried by the port. The response is that of `s.draw`. -/
def State.tRead (s : State) (a : RegAddr) : State :=
  { s.popDraw with history := s.history ++ readEvents (s.params.portAddr a) s.draw }

/-- The state after `TWrite(l)`: the draw used, the events appended (20_memory.md R77, R78), the pairs
carried by the port. The response is that of `s.draw`. -/
def State.tWrite (s : State) (l : List (RegAddr × RegData)) : State :=
  { s.popDraw with history := s.history ++ batchEvents (s.params.portList l) s.draw }

/-! ### The start and the end of a command -/

/-- Acceptance of command word `w` (10_state.md R21, R46). The locals other than the stage keep what the
command before left: DESIGN CHOICE (notes/assumptions/26.md). -/
def State.accept (s : State) (w : Word) : State :=
  { s with cmd := w, stat := s.stat.accept, pollcnt := 0, seq := .exec, stage := .decode }

/-- `finish(result, detail)`, the end of every command (60_exceptions.md R284). The sequencer's locals,
any value while IDLE (93_implementation_defined.md row 9), keep what the command left: DESIGN CHOICE
(notes/assumptions/26.md). -/
def State.finish (s : State) (r : Result) (d : Detail) : State :=
  { s with stat := s.stat.finish r d, seq := .idle }

end Sys2Proof.Machine
end

