-- ==== Sys2Proof/Machine/Operands.lean ====
section
/-! DEFINITION. The operands commands take from registers and tables, and the words a host reads
from registers stored as fields (10_state.md R28-R39, 30_encoding.md R106). -/

namespace Sys2Proof.Machine

/-- The word of RES_NM (10_state.md R33). -/
def ResNm.word (r : ResNm) : Word := 0#11 ++ r.score ++ r.m ++ r.n

/-- The word of RES_STEPS (10_state.md R35). -/
def ResSteps.word (r : ResSteps) : Word := 0#15 ++ BitVec.ofBool r.updn ++ r.mag

/-- OUT_CFG's fields (10_state.md R38). -/
def outIndex (c : BitVec 5) : Fin 16 := (c.extractLsb' 0 4).toFin
def outBypass (c : BitVec 5) : Bool := c.getLsbD 4

/-- One entry of the output list (idx, f, byp) (41_pll_synthesizer.md R170). -/
structure OutEntry where
  idx  : Fin 16
  freq : Nat
  byp  : Bool
  deriving DecidableEq, Repr

/-- The PLL input frequency in Hz (10_state.md R28, 41_pll_synthesizer.md R170). -/
def State.finHz (s : State) : Nat := s.params.hz s.fin

/-- The output list E_0 .. E_{nout-1} that PLL_CONFIG reads (41_pll_synthesizer.md R170). -/
def State.outList (s : State) (nout : Nat) : List OutEntry :=
  ((s.outFreq.toList.zip s.outCfg.toList).take nout).map fun x =>
    ⟨outIndex x.2, s.params.hz x.1, outBypass x.2⟩

/-- A BATCH table entry as an (address, value) pair (10_state.md R39). -/
def batchPair (w : Word) : RegAddr × RegData := (w.extractLsb' 16 16, w.extractLsb' 0 16)

/-- The first `count` pairs of the BATCH table (40_register_protocol.md R151). -/
def State.batchList (s : State) (count : Nat) : List (RegAddr × RegData) :=
  (s.batch.toList.take count).map batchPair

/-- The predicate ARG_POLL holds, (g[3:0], g[7:4], g[12:8]) (40_register_protocol.md R152). -/
def predOfArg (g : Word) : Pred := ⟨g.extractLsb' 0 4, g.extractLsb' 4 4, g.extractLsb' 8 5⟩

/-- ARG_POLL encodes a predicate: bits 31:13 zero, ERR_WIDTH at most 16, ERR_LSB + ERR_WIDTH at most
16 (40_register_protocol.md R133, R152). -/
def argPollValid (g : Word) : Bool :=
  g.extractLsb' 13 19 == 0 && decide ((predOfArg g).errWidth.toNat ≤ 16) &&
    decide ((predOfArg g).errLsb.toNat + (predOfArg g).errWidth.toNat ≤ 16)

/-- `err(v)` (40_register_protocol.md R133). -/
def Pred.err (p : Pred) (v : RegData) : BitVec 16 :=
  (v >>> p.errLsb.toNat) &&& ((1#16 <<< p.errWidth.toNat) - 1)

/-- `done(v)` (40_register_protocol.md R133). -/
def Pred.done (p : Pred) (v : RegData) : Bool := v.getLsbD p.doneBit.toNat

/-- PRED_PLL (40_register_protocol.md R134) and PRED_SEARCH (R135). -/
def predPll : Pred := ⟨0, 7, 9⟩
def predSearch : Pred := ⟨2, 3, 1⟩

/-- The requested phase `p = s32(PHASE_MDEG)` in millidegrees (42_phase.md R224). -/
def State.phase (s : State) : Int := s.phaseMdeg.toInt

/-- The divider C of output `o` that the phase commands use (42_phase.md R221). -/
def State.divider (s : State) (o : Fin 16) : Nat := s.resC[o].toNat

/-- The number of channels `nch` (30_encoding.md R106). -/
def channels (mimo : Bool) : Nat := if mimo then 2 else 1

end Sys2Proof.Machine
end

