-- ==== Sys2Proof/Machine/Codec.lean ====
section
/-! DEFINITION. The 12-bit I/Q sample codec: PACK12, UNPACK12, PACK16, UNPACK16 (43_sample_codec.md).
An SRAM entry holds I in bits 15:0 and Q in bits 31:16 (R250). -/

namespace Sys2Proof.Machine

/-- The compressed record of an entry (43_sample_codec.md R253). -/
def compress (x : Word) : List Byte :=
  let i := x.extractLsb' 0 16
  let q := x.extractLsb' 16 16
  [i.extractLsb' 0 8, q.extractLsb' 0 4 ++ i.extractLsb' 8 4, q.extractLsb' 4 8]

/-- The entry of a compressed record: each 12-bit field moved to bits 15:4, then shifted back
arithmetically (43_sample_codec.md R254). -/
def decompress (b0 b1 b2 : Byte) : Word :=
  let i : BitVec 16 := b1.extractLsb' 0 4 ++ b0 ++ 0#4
  let q : BitVec 16 := b2 ++ b1.extractLsb' 4 4 ++ 0#4
  asr4 q ++ asr4 i

/-- The uncompressed wire word of a host value: bits 11:0 in bits 15:4, bits 3:0 zero
(43_sample_codec.md R259). -/
def wireWord (v : BitVec 16) : BitVec 16 := v.extractLsb' 0 12 ++ 0#4

/-- The uncompressed record of an entry: the I word then the Q word, low byte first
(43_sample_codec.md R257, R259). -/
def expand (x : Word) : List Byte :=
  let i := wireWord (x.extractLsb' 0 16)
  let q := wireWord (x.extractLsb' 16 16)
  [i.extractLsb' 0 8, i.extractLsb' 8 8, q.extractLsb' 0 8, q.extractLsb' 8 8]

/-- The entry of an uncompressed record; bits 3:0 of each wire word are ignored
(43_sample_codec.md R258, R259). -/
def reduce (b0 b1 b2 b3 : Byte) : Word :=
  asr4 (b3 ++ b2) ++ asr4 (b1 ++ b0)

/-- The entry a record of bytes decodes to, by its length: 3 bytes compressed, 4 uncompressed. -/
def entryOfBytes : List Byte → Option Word
  | [b0, b1, b2] => some (decompress b0 b1 b2)
  | [b0, b1, b2, b3] => some (reduce b0 b1 b2 b3)
  | _ => none

/-- Pack `n` entries from entry `e` up: read SRAM entry e, write its record at WRAM byte `len` * e. None
where an entry read is unwritten (43_sample_codec.md R251, R255, R257). -/
def packFrom (rec : Word → List Byte) (len : Nat) : Nat → Nat → Memory → Option Memory
  | 0, _, m => some m
  | n + 1, e, m =>
    match m.readWord (sramAddr e) with
    | none => none
    | some x => packFrom rec len n (e + 1) (m.writeBytes (wramAddr (len * e)) (rec x))

/-- Unpack `n` records from entry `e` up: read `len` WRAM bytes at `len` * e, write SRAM entry e. None
where a byte read is unwritten (43_sample_codec.md R251, R256, R258). -/
def unpackFrom (len : Nat) : Nat → Nat → Memory → Option Memory
  | 0, _, m => some m
  | n + 1, e, m =>
    match (m.readBytes (wramAddr (len * e)) len).bind entryOfBytes with
    | none => none
    | some x => unpackFrom len n (e + 1) (m.writeWord (sramAddr e) x)

/-- A codec command, all in its DECODE step: the capacity check, the transfer `f` of nch * nsamp
entries, `finish` (43_sample_codec.md R252, 10_state.md R47); UnwrittenRead where the transfer reads
an unwritten location (60_exceptions.md R293). -/
def codec (nsamp : Nat) (mimo : Bool) (f : Nat → Memory → Option Memory) (s : State) : Step :=
  if s.params.sampleEntries < channels mimo * nsamp then
    .next (s.finish .invalidArgument .countRange)
  else
    match f (channels mimo * nsamp) s.mem with
    | none => .fault .unwrittenRead
    | some m => .next ({ s with mem := m }.finish .ok .none)

/-- PACK12 (43_sample_codec.md R255). -/
def execPack12 (nsamp : Nat) (mimo : Bool) (s : State) : Step :=
  codec nsamp mimo (fun n => packFrom compress 3 n 0) s

/-- UNPACK12 (43_sample_codec.md R256). -/
def execUnpack12 (nsamp : Nat) (mimo : Bool) (s : State) : Step :=
  codec nsamp mimo (fun n => unpackFrom 3 n 0) s

/-- PACK16 (43_sample_codec.md R257). -/
def execPack16 (nsamp : Nat) (mimo : Bool) (s : State) : Step :=
  codec nsamp mimo (fun n => packFrom expand 4 n 0) s

/-- UNPACK16 (43_sample_codec.md R258). -/
def execUnpack16 (nsamp : Nat) (mimo : Bool) (s : State) : Step :=
  codec nsamp mimo (fun n => unpackFrom 4 n 0) s

end Sys2Proof.Machine
end

