-- ==== Sys2Proof/Syntax.lean ====
section
/-! DEFINITION. The commands of the block, one constructor per row of spec/opcode_table.json
(30_encoding.md R106, R107). -/

namespace Sys2Proof

/-- A decoded command with its operands as 30_encoding.md R106 assembles them. `nout` is the number of
outputs (SEL + 1), `o` the output index, `mimo` the dual-channel bit. -/
inductive Instr where
  /-- NOP, format N (40_register_protocol.md R148). -/
  | nop
  /-- REG_READ, format A (40_register_protocol.md R150). -/
  | regRead (addr : RegAddr)
  /-- REG_WRITE, format B (40_register_protocol.md R151). -/
  | regWrite (count : Nat)
  /-- POLL, format A (40_register_protocol.md R152). -/
  | poll (addr : RegAddr)
  /-- PLL_CONFIG, format P (41_pll_synthesizer.md R170). -/
  | pllConfig (pll nout : Nat)
  /-- PHASE_FIXED, format P (42_phase.md R225). -/
  | phaseFixed (pll : Nat) (o : Fin 16)
  /-- PHASE_SEARCH, format P (42_phase.md R230). -/
  | phaseSearch (pll : Nat) (o : Fin 16)
  /-- PACK12, format S (43_sample_codec.md R255). -/
  | pack12 (nsamp : Nat) (mimo : Bool)
  /-- UNPACK12, format S (43_sample_codec.md R256). -/
  | unpack12 (nsamp : Nat) (mimo : Bool)
  /-- PACK16, format S (43_sample_codec.md R257). -/
  | pack16 (nsamp : Nat) (mimo : Bool)
  /-- UNPACK16, format S (43_sample_codec.md R258). -/
  | unpack16 (nsamp : Nat) (mimo : Bool)
  deriving DecidableEq, Repr

end Sys2Proof
end

