-- ==== Sys2Proof/Machine/Stages.lean ====
section
/-! DEFINITION. The stages PLL_CONFIG and the phase commands share, and those REG_WRITE and POLL
have of them (40_register_protocol.md R130-R146). Each is one sequencer step (10_state.md R47). -/

namespace Sys2Proof.Machine

/-- The stages a command has (10_state.md R46, 40_register_protocol.md R130, R151, R152). -/
def hasStage : Instr → Stage → Bool
  | .nop, st => st = .decode
  | .regRead _, st => st = .decode
  | .regWrite _, st => st = .decode || st = .batch || st = .finish
  | .poll _, st => st = .decode || st = .poll || st = .finish
  | .pllConfig _ _, _ => true
  | .phaseFixed _ _, _ => true
  | .phaseSearch _ _, _ => true
  | .pack12 _ _, st => st = .decode
  | .unpack12 _ _, st => st = .decode
  | .pack16 _ _, st => st = .decode
  | .unpack16 _ _, st => st = .decode

/-- The sequence leaves its current stage with outcome `t` for stage `st`. -/
def State.leaveTo (s : State) (t : Term) (st : Stage) : State := { s with term := t, stage := st }

/-- BATCH stage of a configuration sequence: `TWrite` of the batch list. OK goes to POLL, or to CLEAR
with DONE when BUSY_POLL_CAP = 0; IOERR goes straight to FINISH (40_register_protocol.md R131,
R132). -/
def batchStage (s : State) : State :=
  let t := s.tWrite s.lBatch
  if s.draw.fails then t.leaveTo .ioerr .finish
  else if s.params.busyPollCap then { t with stage := .poll }
  else t.leaveTo .done .clear

/-- What one status word does to a poll loop that has now made `k` reads: an error field ends it
before the done bit is looked at, and the last read without either is the timeout; none means the
loop goes on (40_register_protocol.md R140-R142, R146). -/
def pollVerdict (p : Pred) (limit k : Nat) (v : RegData) : Option Term :=
  if p.err v ≠ 0 then some (.hwerr (p.err v))
  else if p.done v then some .done
  else if k = limit then some .timeout
  else none

/-- One step of the poll loop on address `a`; `exit` is the stage that follows DONE, TIMEOUT and HWERR.
A loop already at its limit makes no read (40_register_protocol.md R140). -/
def pollStage (a : RegAddr) (exit : Stage) (s : State) : State :=
  if s.pollcnt.toNat = s.params.pollLimit then s.leaveTo .timeout exit
  else
    let t := { s.tRead a with pollcnt := s.pollcnt + 1 }
    if s.draw.fails then t.leaveTo .ioerr .finish
    else
      match pollVerdict s.lPred s.params.pollLimit t.pollcnt.toNat s.draw.value with
      | some o => t.leaveTo o exit
      | none => t

/-- CLEAR stage: the best-effort write of the base word; a failure sets STAT.CLR_FAIL and changes
nothing else (40_register_protocol.md R143, 10_state.md R24). -/
def clearStage (s : State) : State :=
  let t := { s.tWrite [(s.params.regmap.ctrl, s.lBase)] with stage := .finish }
  if s.draw.fails then { t with stat := { t.stat with clrFail := true } } else t

/-- `finish` by the pending outcome (40_register_protocol.md R144, R152). -/
def finishTerm (s : State) : State :=
  match s.term with
  | .done => s.finish .ok .none
  | .timeout => s.finish .timeout .none
  | .hwerr e => { s with stat := { s.stat with errcode := e } }.finish .hardwareError .none
  | .ioerr => s.finish .ioError .none

/-- FINISH stage of a configuration sequence: CTRL_SHADOW takes the base word whatever the outcome,
then `finish` (41_pll_synthesizer.md R193, 42_phase.md R228). -/
def finishConfig (s : State) : State := finishTerm { s with ctrlShadow := s.lBase }

/-- The stages of a configuration sequence after DECODE (40_register_protocol.md R130); `dec` is the
command's DECODE step. -/
def configStages (dec : State → State) (s : State) : State :=
  match s.stage with
  | .decode => dec s
  | .batch => batchStage s
  | .poll => pollStage s.params.regmap.status .clear s
  | .clear => clearStage s
  | .finish => finishConfig s

/-- The end of a configuration command's DECODE step: the locals its sequence uses, and the move to
BATCH (10_state.md R45-R47). -/
def State.toBatch (s : State) (l : List (RegAddr × RegData)) (base : BitVec 16) (pred : Pred) :
    State :=
  { s with lBatch := l, lBase := base, lPred := pred, stage := .batch }

end Sys2Proof.Machine
end

