-- ==== Sys2Proof/Machine/Phase.lean ====
section
/-! DEFINITION. PHASE_FIXED and PHASE_SEARCH, the phase-shift transactions (42_phase.md). -/

namespace Sys2Proof.Machine

/-- The fixed-phase step count s = trunc(p * C / 45000 + PHASE_BIAS) (42_phase.md R224). -/
def fixedSteps (p : Params) (phase : Int) (c : Nat) : Int :=
  truncDiv (phase * c * p.phaseBiasDen + 45000 * p.phaseBiasNum) (45000 * p.phaseBiasDen)

/-- The direction bit of a step count (42_phase.md R224). -/
def direction (steps : Int) : Bool := 0 ≤ steps

/-- The search-mode step count 8 * C - 1 (42_phase.md R229). -/
def searchSteps (c : Nat) : Nat := 8 * c - 1

/-- The checks the two phase commands share, in order: PLL_INDEX, NOT_CONFIGURED (42_phase.md R222). -/
def phaseValidate (p : Params) (pll c : Nat) : Option Detail :=
  if p.pllCount ≤ pll then some .pllIndex
  else if c = 0 then some .notConfigured
  else none

/-- A phase control base word: bits 15 and 2 of the shadow, PLL_IND, CNT_IND, UPDN and MODE, both start
bits 0 (42_phase.md R223, R225, R230, 20_memory.md R81). -/
def phaseBase (p : Params) (shadow : BitVec 16) (pll : Nat) (o : Fin 16) (updn mode : Bool) :
    BitVec 16 :=
  (shadow &&& 0x8004) ||| (BitVec.ofNat 16 pll <<< 3) |||
    (BitVec.ofNat 16 (o.val + p.cntIndOffset) <<< 8) |||
    ((bit updn).setWidth 16 <<< 13) ||| ((bit mode).setWidth 16 <<< 14)

/-- The phase batch: control word, step magnitude, control word with PHCFG_START
(42_phase.md R226, R231). -/
def phaseBatch (g : RegMap) (base mag : BitVec 16) : List (RegAddr × RegData) :=
  [(g.ctrl, base), (g.phsteps, mag), (g.ctrl, base ||| 2)]

/-- The end of a phase command's DECODE step: RES_STEPS written and the batch built
(42_phase.md R225, R230, R233). -/
def phaseStart (pll : Nat) (o : Fin 16) (steps : Int) (updn mode : Bool) (pred : Pred)
    (s : State) : State :=
  let mag := BitVec.ofNat 16 steps.natAbs
  let base := phaseBase s.params s.ctrlShadow pll o updn mode
  { s with resSteps := ⟨mag, updn⟩, lSteps := steps }.toBatch
    (phaseBatch s.params.regmap base mag) base pred

/-- PHASE_FIXED's DECODE step (42_phase.md R222, R225). -/
def phaseFixedDecode (pll : Nat) (o : Fin 16) (s : State) : State :=
  match phaseValidate s.params pll (s.divider o) with
  | some d => s.finish .invalidArgument d
  | none =>
    let steps := fixedSteps s.params s.phase (s.divider o)
    if s.params.phaseStepsMax < steps.natAbs then s.finish .invalidArgument .stepsRange
    else phaseStart pll o steps (direction steps) false predPll s

/-- PHASE_SEARCH's DECODE step (42_phase.md R222, R230). -/
def phaseSearchDecode (pll : Nat) (o : Fin 16) (s : State) : State :=
  match phaseValidate s.params pll (s.divider o) with
  | some d => s.finish .invalidArgument d
  | none => phaseStart pll o (searchSteps (s.divider o)) true true predSearch s

/-- PHASE_FIXED (42_phase.md R225). -/
def execPhaseFixed (pll : Nat) (o : Fin 16) (s : State) : Step :=
  .next (configStages (phaseFixedDecode pll o) s)

/-- PHASE_SEARCH (42_phase.md R230). -/
def execPhaseSearch (pll : Nat) (o : Fin 16) (s : State) : Step :=
  .next (configStages (phaseSearchDecode pll o) s)

end Sys2Proof.Machine
end

