-- ==== Sys2Proof/Machine/Pll.lean ====
section
/-! DEFINITION. PLL_CONFIG, the PLL divider synthesizer (41_pll_synthesizer.md). All arithmetic is on
exact naturals (R196: every intermediate fits in 64 bits). -/

namespace Sys2Proof.Machine

/-! ### Validation -/

/-- The entry checks in list order, `seen` being the indices of the entries before: first FOUT_LOW, then
DUP_INDEX (41_pll_synthesizer.md R173). -/
def checkEntries (fFloor : Nat) : List OutEntry → List (Fin 16) → Option Detail
  | [], _ => none
  | e :: es, seen =>
    if !e.byp && e.freq < fFloor then some .foutLow
    else if e.idx ∈ seen then some .dupIndex
    else checkEntries fFloor es (e.idx :: seen)

/-- The checks before the computation, in order: PLL_INDEX, FIN_LOW, the entries
(41_pll_synthesizer.md R171-R173). -/
def pllValidate (p : Params) (pll fin : Nat) (es : List OutEntry) : Option Detail :=
  if p.pllCount ≤ pll then some .pllIndex
  else if fin < p.fFloor then some .finLow
  else checkEntries p.fFloor es []

/-! ### Candidates and scores -/

/-- The frequencies of the active set, in list order (41_pll_synthesizer.md R174). -/
def activeFreqs (es : List OutEntry) : List Nat := (es.filter fun e => !e.byp).map OutEntry.freq

/-- The multiples q * f, q >= 1, in [lo, hi], ascending (41_pll_synthesizer.md R175). -/
def multiples (lo hi f : Nat) : List Nat :=
  if f = 0 then []
  else
    let q0 := max 1 ((lo + f - 1) / f)
    (List.range' q0 (hi / f + 1 - q0)).map (· * f)

/-- Insert into an ascending list, once (41_pll_synthesizer.md R175, R176). -/
def insertOnce (v : Nat) : List Nat → List Nat
  | [] => [v]
  | x :: xs => if v < x then v :: x :: xs else if v = x then x :: xs else x :: insertOnce v xs

/-- The candidate set as an ascending list without repeats (41_pll_synthesizer.md R175, R176). -/
def candidates (p : Params) (fs : List Nat) : List Nat :=
  (fs.flatMap (multiples p.vcoMin p.vcoMax)).foldr insertOnce []

/-- The score of a candidate: how many active frequencies divide it (41_pll_synthesizer.md R178). -/
def score (fs : List Nat) (v : Nat) : Nat := fs.countP fun f => v % f = 0

/-- The best score and the candidates that have it, in ascending order (41_pll_synthesizer.md R179). -/
def bestScore (fs cand : List Nat) : Nat := (cand.map (score fs)).foldr max 0
def topCandidates (fs cand : List Nat) : List Nat :=
  cand.filter fun v => score fs v = bestScore fs cand

/-! ### The N/M search -/

/-- The loop of SearchNM from the current N with at most `fuel` more rounds
(41_pll_synthesizer.md R181): raise N while fin > F_FLOOR * N, and step back once when M would exceed
NM_MAX. -/
def searchLoop (p : Params) (fin v : Nat) : Nat → Nat → Nat
  | 0, n => n
  | fuel + 1, n =>
    if p.fFloor * n < fin then
      if p.nmMax < rnd (v * (n + 1)) fin then n else searchLoop p fin v fuel (n + 1)
    else n

/-- The N and M that SearchNM returns for candidate `v`: M is always rnd(v * N, fin)
(41_pll_synthesizer.md R181). The loop makes at most fin / F_FLOOR + 1 rounds
(70_reset_and_hazards.md R331). -/
def searchN (p : Params) (fin v : Nat) : Nat := searchLoop p fin v (fin / p.fFloor + 1) 1
def searchM (p : Params) (fin v : Nat) : Nat := rnd (v * searchN p fin v) fin

/-- A candidate with its pair. -/
structure Choice where
  v : Nat
  n : Nat
  m : Nat
  deriving DecidableEq, Repr

/-- The choice SearchNM makes for a candidate. -/
def choiceOf (p : Params) (fin v : Nat) : Choice := ⟨v, searchN p fin v, searchM p fin v⟩

/-- A valid pair (41_pll_synthesizer.md R182). -/
def Choice.valid (p : Params) (c : Choice) : Bool :=
  (p.nmMin ≤ c.n && c.n ≤ p.nmMax) && (p.nmMin ≤ c.m && c.m ≤ p.nmMax)

/-- The numerator |v * N - fin * M| of the deviation, over N (41_pll_synthesizer.md R183). -/
def Choice.dev (fin : Nat) (c : Choice) : Nat := absDiff (c.v * c.n) (fin * c.m)

/-- Whether a later candidate `c` replaces the selected one `b`: less deviation, compared by
cross-multiplication, or as much where TIE_RULE = LAST (41_pll_synthesizer.md R183, R184). -/
def replaces (p : Params) (fin : Nat) (c b : Choice) : Bool :=
  match p.tieRule with
  | .first => c.dev fin * b.n < b.dev fin * c.n
  | .last => c.dev fin * b.n ≤ b.dev fin * c.n

/-- One visit of the selection: an invalid candidate is skipped (41_pll_synthesizer.md R182, R184). -/
def visit (p : Params) (fin : Nat) (sel : Option Choice) (v : Nat) : Option Choice :=
  let c := choiceOf p fin v
  if c.valid p then
    match sel with
    | none => some c
    | some b => if replaces p fin c b then some c else some b
  else sel

/-- The selection over the top candidates in ascending order (41_pll_synthesizer.md R184). -/
def selectNM (p : Params) (fin : Nat) (top : List Nat) : Option Choice :=
  top.foldl (visit p fin) none

/-! ### Fvco and dividers -/

/-- Fvco = fin * M / N lies in [VCO_MIN, VCO_MAX] (41_pll_synthesizer.md R186). -/
def fvcoInRange (p : Params) (fin : Nat) (c : Choice) : Bool :=
  decide (p.vcoMin * c.n ≤ fin * c.m) && decide (fin * c.m ≤ p.vcoMax * c.n)

/-- The divider of an entry (41_pll_synthesizer.md R187). -/
def dividerOf (fin : Nat) (c : Choice) (e : OutEntry) : Nat :=
  if e.byp then 1 else rnd (fin * c.m) (c.n * e.freq)

/-- The achieved frequency (fin * M / N) / C, which the block does not store and a host computes
(41_pll_synthesizer.md R195). -/
def achieved (fin n m c : Nat) : Rat := (fin * m : Rat) / (n * c : Rat)

/-- What PLL_CONFIG's computation finds: the best score, the pair, and each entry with its divider. -/
structure PllResult where
  best : Nat
  sel  : Choice
  outs : List (OutEntry × Nat)
  deriving DecidableEq, Repr

/-- Validation and computation of PLL_CONFIG: the first check that fails, or the result
(41_pll_synthesizer.md R170-R187, 60_exceptions.md R285). -/
def pllCompute (p : Params) (pll fin : Nat) (es : List OutEntry) : Except Detail PllResult :=
  match pllValidate p pll fin es with
  | some d => .error d
  | none =>
    let fs := activeFreqs es
    let cand := candidates p fs
    if cand = [] then .error .noCandidate
    else
      match selectNM p fin (topCandidates fs cand) with
      | none => .error .noValidNm
      | some c =>
        if !fvcoInRange p fin c then .error .fvcoRange
        else if es.any fun e => dividerOf fin c e = 0 then .error .cZero
        else .ok ⟨bestScore fs cand, c, es.map fun e => (e, dividerOf fin c e)⟩

/-! ### Results and the batch -/

/-- RES_NM (41_pll_synthesizer.md R188). -/
def pllResNm (r : PllResult) : ResNm :=
  ⟨BitVec.ofNat 8 r.sel.n, BitVec.ofNat 8 r.sel.m, BitVec.ofNat 5 r.best⟩

/-- RES_C with the listed outputs' dividers written, in list order (41_pll_synthesizer.md R188). -/
def pllResC (outs : List (OutEntry × Nat)) (v : Vector (BitVec 9) 16) : Vector (BitVec 9) 16 :=
  outs.foldl (fun v x => v.set x.1.idx (BitVec.ofNat 9 x.2)) v

/-- MN_ODD_BYP: M_ODD, M_BYP, N_ODD, N_BYP in bits 3..0 (41_pll_synthesizer.md R189, 20_memory.md R83). -/
def mnOddByp (n m : Nat) : RegData :=
  0#12 ++ bit (m % 2 = 1) ++ bit (m = 1) ++ bit (n % 2 = 1) ++ bit (n = 1)

/-- Bits 2p and 2p+1 of an enable register set to BYP and ODD (41_pll_synthesizer.md R189,
20_memory.md R85). -/
def setPair (r : RegData) (p : Nat) (byp odd : Bool) : RegData :=
  (r &&& ~~~(3#16 <<< (2 * p))) ||| (((0#14 ++ bit odd ++ bit byp) : BitVec 16) <<< (2 * p))

/-- The BYP bit of an entry with divider `c` (41_pll_synthesizer.md R189). -/
def bypBit (e : OutEntry) (c : Nat) : Bool := e.byp || c = 1

/-- CEN_LO and CEN_HI: every pair starts as BYP = 1, ODD = 0, and each entry sets its own
(41_pll_synthesizer.md R189). -/
def cenLo (outs : List (OutEntry × Nat)) : RegData :=
  outs.foldl (fun r x => if x.1.idx.val < 8 then
    setPair r (x.1.idx.val % 8) (bypBit x.1 x.2) (x.2 % 2 = 1) else r) 0x5555
def cenHi (outs : List (OutEntry × Nat)) : RegData :=
  outs.foldl (fun r x => if x.1.idx.val < 8 then r else
    setPair r (x.1.idx.val % 8) (bypBit x.1 x.2) (x.2 % 2 = 1)) 0x5555

/-- The control base word: the shadow with both start bits cleared and PLL_IND set
(41_pll_synthesizer.md R190, 20_memory.md R81). -/
def pllBase (shadow : BitVec 16) (pll : Nat) : BitVec 16 :=
  (shadow &&& 0xFF04) ||| (BitVec.ofNat 16 pll <<< 3)

/-- The batch list, the start word last (41_pll_synthesizer.md R191). -/
def pllBatch (g : RegMap) (base : BitVec 16) (r : PllResult) : List (RegAddr × RegData) :=
  [(g.mnOddByp, mnOddByp r.sel.n r.sel.m),
   (g.ncnt, splitHalves r.sel.n),
   (g.mcnt, splitHalves r.sel.m)] ++
  (r.outs.map fun x => (g.c[x.1.idx], splitHalves x.2)) ++
  [(g.cenLo, cenLo r.outs),
   (g.cenHi, cenHi r.outs),
   (g.ctrl, base ||| 1)]

/-- PLL_CONFIG's DECODE step (41_pll_synthesizer.md R170): the results are written and the batch built
only when no check fails (R188). -/
def pllDecode (pll nout : Nat) (s : State) : State :=
  match pllCompute s.params pll s.finHz (s.outList nout) with
  | .error d => s.finish .invalidArgument d
  | .ok r =>
    let base := pllBase s.ctrlShadow pll
    { s with resNm := pllResNm r, resC := pllResC r.outs s.resC }.toBatch
      (pllBatch s.params.regmap base r) base predPll

/-- PLL_CONFIG (41_pll_synthesizer.md R170). -/
def execPllConfig (pll nout : Nat) (s : State) : Step :=
  .next (configStages (pllDecode pll nout) s)

end Sys2Proof.Machine
end

