-- ==== Sys2Proof/Machine/Protocol.lean ====
section
/-! DEFINITION. The register-protocol commands NOP, REG_READ, REG_WRITE and POLL
(40_register_protocol.md section 2). Each meaning is one sequencer step of the command, at the
stage the State is in (10_state.md R46, R47). -/

namespace Sys2Proof.Machine

/-- NOP (40_register_protocol.md R148). -/
def execNop (s : State) : Step := .next (s.finish .ok .none)

/-- REG_READ: one transport read, all in its DECODE step (40_register_protocol.md R150;
notes/assumptions/10.md). RDATA is written only when the read succeeds. -/
def execRegRead (addr : RegAddr) (s : State) : Step :=
  .next (if s.draw.fails then (s.tRead addr).finish .ioError .none
    else { s.tRead addr with rdata := s.draw.value }.finish .ok .none)

/-- REG_WRITE's DECODE step (40_register_protocol.md R151). -/
def regWriteDecode (count : Nat) (s : State) : State :=
  if count = 0 ∨ s.params.batchMax < count then s.finish .invalidArgument .countRange
  else { s with lBatch := s.batchList count, stage := .batch }

/-- REG_WRITE's BATCH step (40_register_protocol.md R151): the outcome of the batch is that of the
command. -/
def regWriteBatch (s : State) : State :=
  (s.tWrite s.lBatch).leaveTo (if s.draw.fails then .ioerr else .done) .finish

/-- REG_WRITE (40_register_protocol.md R151). It has no POLL and no CLEAR stage and passes over them
(notes/assumptions/15.md). -/
def execRegWrite (count : Nat) (s : State) : Step :=
  .next (match s.stage with
    | .decode => regWriteDecode count s
    | .batch => regWriteBatch s
    | .poll => { s with stage := .finish }
    | .clear => { s with stage := .finish }
    | .finish => finishTerm s)

/-- POLL's DECODE step (40_register_protocol.md R152). -/
def pollDecode (s : State) : State :=
  if argPollValid s.argPoll then { s with lPred := predOfArg s.argPoll, stage := .poll }
  else s.finish .invalidArgument .predRange

/-- POLL (40_register_protocol.md R152). It has no BATCH and no CLEAR stage and passes over them
(notes/assumptions/15.md). -/
def execPoll (addr : RegAddr) (s : State) : Step :=
  .next (match s.stage with
    | .decode => pollDecode s
    | .batch => { s with stage := .poll }
    | .poll => pollStage addr .finish s
    | .clear => { s with stage := .finish }
    | .finish => finishTerm s)

end Sys2Proof.Machine
end

