-- ==== Sys2Proof/Machine/Dispatch.lean ====
section
/-! DEFINITION. One sequencer step of a command: one arm per constructor of Instr. -/

namespace Sys2Proof.Machine

/-- One sequencer step of command `i` (10_state.md R46, R47). -/
def exec (i : Instr) (s : State) : Host.Outcome State Fault Refusal :=
  match i with
  | .nop => Sys2Proof.Machine.execNop s
  | .regRead addr => Sys2Proof.Machine.execRegRead addr s
  | .regWrite count => Sys2Proof.Machine.execRegWrite count s
  | .poll addr => Sys2Proof.Machine.execPoll addr s
  | .pllConfig pll nout => Sys2Proof.Machine.execPllConfig pll nout s
  | .phaseFixed pll o => Sys2Proof.Machine.execPhaseFixed pll o s
  | .phaseSearch pll o => Sys2Proof.Machine.execPhaseSearch pll o s
  | .pack12 nsamp mimo => Sys2Proof.Machine.execPack12 nsamp mimo s
  | .unpack12 nsamp mimo => Sys2Proof.Machine.execUnpack12 nsamp mimo s
  | .pack16 nsamp mimo => Sys2Proof.Machine.execPack16 nsamp mimo s
  | .unpack16 nsamp mimo => Sys2Proof.Machine.execUnpack16 nsamp mimo s

end Sys2Proof.Machine
end

