-- ==== Sys2Proof/WellFormed.lean ====
section
/-! DEFINITION. Which commands have an encoding: every operand fits its field (30_encoding.md R106,
R110). An operand that fits but is out of its legal range (pll 16..31, count 0 or 65..127) is
well-formed: it encodes and is rejected at run time (30_encoding.md R110). -/

namespace Sys2Proof

/-- The refusals of 30_encoding.md R110: `count` > 127, `pll` > 31, `nout` not in 1..16, `nsamp` >
65535. (`addr` > 0xFFFF and `o` > 15 cannot be written: their types are 16 bits and Fin 16.) -/
def Instr.wellFormed : Instr → Bool
  | .nop => true
  | .regRead _ => true
  | .regWrite count => count ≤ 127
  | .poll _ => true
  | .pllConfig pll nout => pll ≤ 31 && (1 ≤ nout && nout ≤ 16)
  | .phaseFixed pll _ => pll ≤ 31
  | .phaseSearch pll _ => pll ≤ 31
  | .pack12 nsamp _ => nsamp ≤ 65535
  | .unpack12 nsamp _ => nsamp ≤ 65535
  | .pack16 nsamp _ => nsamp ≤ 65535
  | .unpack16 nsamp _ => nsamp ≤ 65535

end Sys2Proof
end

