-- ==== Sys2Proof/Decode.lean ====
section
/-! DEFINITION. The decoder, total on every 32-bit word and rejecting by name, and the encoder
(30_encoding.md R100-R110, spec/opcode_table.json). -/

namespace Sys2Proof

/-- What the decoder makes of a command word: a command, or one of the two illegal cases of
30_encoding.md R108. -/
inductive Decoded where
  | instr (i : Instr)
  /-- OP is not in the opcode map. -/
  | unknownOpcode
  /-- OP is in the map and a must-be-zero bit of its format is 1. -/
  | reservedBits
  deriving DecidableEq, Repr

/-- One row of the opcode map: a word `w` selects it when `w &&& mask = pattern`
(30_encoding.md R107). -/
structure OpcodeRow where
  op      : BitVec 8
  mask    : Word
  pattern : Word
  deriving DecidableEq, Repr

/-- The opcode map (30_encoding.md R107), in the table's order. -/
def opcodeMap : List OpcodeRow :=
  [ ⟨0x00, 0xFFFFFFFF, 0x00000000⟩,
    ⟨0x01, 0xFF0000FF, 0x00000001⟩,
    ⟨0x02, 0xFFFF80FF, 0x00000002⟩,
    ⟨0x03, 0xFF0000FF, 0x00000003⟩,
    ⟨0x10, 0xFFFE00FF, 0x00000010⟩,
    ⟨0x11, 0xFFFE00FF, 0x00000011⟩,
    ⟨0x12, 0xFFFE00FF, 0x00000012⟩,
    ⟨0x20, 0x0000FEFF, 0x00000020⟩,
    ⟨0x21, 0x0000FEFF, 0x00000021⟩,
    ⟨0x22, 0x0000FEFF, 0x00000022⟩,
    ⟨0x23, 0x0000FEFF, 0x00000023⟩ ]

/-- The fields of a command word (30_encoding.md R102-R106). -/
def opField (w : Word) : BitVec 8 := w.extractLsb' 0 8
def addrField (w : Word) : RegAddr := w.extractLsb' 8 16
def countField (w : Word) : BitVec 7 := w.extractLsb' 8 7
def pllField (w : Word) : BitVec 5 := w.extractLsb' 8 5
def selField (w : Word) : BitVec 4 := w.extractLsb' 13 4
def mimoField (w : Word) : BitVec 1 := w.extractLsb' 8 1
def nsampField (w : Word) : BitVec 16 := w.extractLsb' 16 16

/-- The command a word of opcode `op` stands for, its operands assembled by 30_encoding.md R106, or
none where `op` is not in the map (30_encoding.md R107, R109). -/
def operandsOf (op : BitVec 8) (w : Word) : Option Instr :=
  match op with
  | 0x00 => some .nop
  | 0x01 => some (.regRead (addrField w))
  | 0x02 => some (.regWrite (countField w).toNat)
  | 0x03 => some (.poll (addrField w))
  | 0x10 => some (.pllConfig (pllField w).toNat ((selField w).toNat + 1))
  | 0x11 => some (.phaseFixed (pllField w).toNat (selField w).toFin)
  | 0x12 => some (.phaseSearch (pllField w).toNat (selField w).toFin)
  | 0x20 => some (.pack12 (nsampField w).toNat (mimoField w == 1))
  | 0x21 => some (.unpack12 (nsampField w).toNat (mimoField w == 1))
  | 0x22 => some (.pack16 (nsampField w).toNat (mimoField w == 1))
  | 0x23 => some (.unpack16 (nsampField w).toNat (mimoField w == 1))
  | _ => none

/-- Decoding (30_encoding.md R108): the opcode is looked up first, then the row's must-be-zero bits. -/
def decode (w : Word) : Decoded :=
  match opcodeMap.find? (fun r => r.op == opField w), operandsOf (opField w) w with
  | some r, some i => if w &&& r.mask = r.pattern then .instr i else .reservedBits
  | _, _ => .unknownOpcode

/-- The command words of the formats (30_encoding.md R101-R105), fields placed side by side. -/
def formatN (op : BitVec 8) : Word := 0#24 ++ op
def formatA (op : BitVec 8) (addr : RegAddr) : Word := 0#8 ++ addr ++ op
def formatB (op : BitVec 8) (count : BitVec 7) : Word := 0#17 ++ count ++ op
def formatP (op : BitVec 8) (pll : BitVec 5) (sel : BitVec 4) : Word := 0#15 ++ sel ++ pll ++ op
def formatS (op : BitVec 8) (mimo : Bool) (nsamp : BitVec 16) : Word :=
  nsamp ++ 0#7 ++ BitVec.ofBool mimo ++ op

/-- The encoding of a command (30_encoding.md R110). -/
def encode : Instr → Word
  | .nop => formatN 0x00
  | .regRead addr => formatA 0x01 addr
  | .regWrite count => formatB 0x02 (BitVec.ofNat 7 count)
  | .poll addr => formatA 0x03 addr
  | .pllConfig pll nout => formatP 0x10 (BitVec.ofNat 5 pll) (BitVec.ofNat 4 (nout - 1))
  | .phaseFixed pll o => formatP 0x11 (BitVec.ofNat 5 pll) (BitVec.ofFin o)
  | .phaseSearch pll o => formatP 0x12 (BitVec.ofNat 5 pll) (BitVec.ofFin o)
  | .pack12 nsamp mimo => formatS 0x20 mimo (BitVec.ofNat 16 nsamp)
  | .unpack12 nsamp mimo => formatS 0x21 mimo (BitVec.ofNat 16 nsamp)
  | .pack16 nsamp mimo => formatS 0x22 mimo (BitVec.ofNat 16 nsamp)
  | .unpack16 nsamp mimo => formatS 0x23 mimo (BitVec.ofNat 16 nsamp)

/-- The command of a word, none where it is rejected. -/
def Decoded.instr? : Decoded → Option Instr
  | .instr i => some i
  | .unknownOpcode => none
  | .reservedBits => none

/-- The command the decoder reads from `nbits` bits of value `w`, the bits above them 0. A command is
one 32-bit word (30_encoding.md R100), so there is none of more than 32 bits. -/
def decodeTableWord (nbits w : Nat) : Option Instr :=
  if nbits ≤ 32 then (decode (BitVec.ofNat 32 (w % 2 ^ nbits))).instr? else none

end Sys2Proof
end

