-- ==== Sys2Proof/Machine/HostWindow.lean ====
section
/-! DEFINITION. The host window: what a host access reads, writes and starts (20_memory.md R60-R64,
10_state.md R21, R22, R42-R44, R49). -/

namespace Sys2Proof.Machine

/-- A mapped word of the host window (10_state.md section 1). -/
inductive Loc where
  | cmd
  | stat
  | fin
  | ctrlShadow
  | phaseMdeg
  | argPoll
  | rdata
  | resNm
  | pollcnt
  | resSteps
  | resC (i : Fin 16)
  | outFreq (j : Fin 16)
  | outCfg (j : Fin 16)
  | batch (k : Fin 64)
  | sram (e : Fin 1024)
  | wram (w : Fin 1024)
  deriving DecidableEq, Repr

/-- The word the layout puts at an offset, none where the offset is misaligned or unmapped (20_memory.md R60,
R61, 10_state.md section 1). Alignment is that of the window offset: DESIGN CHOICE where HOST_BASE is
no multiple of 4, for which the spec does not say (notes/assumptions/25.md). -/
def layoutAt (off : Nat) : Option Loc :=
  if off % 4 ≠ 0 then none
  else if off = 0x000 then some .cmd
  else if off = 0x004 then some .stat
  else if off = 0x008 then some .fin
  else if off = 0x00C then some .ctrlShadow
  else if off = 0x010 then some .phaseMdeg
  else if off = 0x014 then some .argPoll
  else if off = 0x018 then some .rdata
  else if off = 0x01C then some .resNm
  else if off = 0x020 then some .pollcnt
  else if off = 0x024 then some .resSteps
  else if off < 0x040 then none
  else if off < 0x080 then some (.resC (Fin.ofNat 16 ((off - 0x040) / 4)))
  else if off < 0x100 then none
  else if off < 0x180 then
    if off % 8 = 0 then some (.outFreq (Fin.ofNat 16 ((off - 0x100) / 8)))
    else some (.outCfg (Fin.ofNat 16 ((off - 0x100) / 8)))
  else if off < 0x200 then none
  else if off < 0x300 then some (.batch (Fin.ofNat 64 ((off - 0x200) / 4)))
  else if off < 0x1000 then none
  else if off < 0x2000 then some (.sram (Fin.ofNat 1024 ((off - 0x1000) / 4)))
  else if off < 0x3000 then some (.wram (Fin.ofNat 1024 ((off - 0x2000) / 4)))
  else none

/-- The word exists: the tables have OUT_COUNT and BATCH_MAX entries, SRAM has SAMPLE_ENTRIES entries,
WRAM has WIRE_BYTES bytes (00_scope.md R7, 10_state.md R36-R41, 20_memory.md R63). That an offset past
a smaller table or RAM is unmapped is a DESIGN CHOICE (notes/assumptions/3.md). -/
def Loc.present (p : Params) : Loc → Bool
  | .cmd => true
  | .stat => true
  | .fin => true
  | .ctrlShadow => true
  | .phaseMdeg => true
  | .argPoll => true
  | .rdata => true
  | .resNm => true
  | .pollcnt => true
  | .resSteps => true
  | .resC i => i < p.outCount
  | .outFreq j => j < p.outCount
  | .outCfg j => j < p.outCount
  | .batch k => k < p.batchMax
  | .sram e => e < p.sampleEntries
  | .wram w => 4 * w.val + 4 ≤ p.wireBytes

/-- The mapped word at an offset (20_memory.md R60, R61). -/
def locAt (p : Params) (off : Nat) : Option Loc := (layoutAt off).filter (Loc.present p)

/-- The word an access of `bytes` bytes at address `addr` falls on, with its offset; none is a bus
error (20_memory.md R61). -/
def locate (p : Params) (addr bytes : Nat) : Option (Nat × Loc) :=
  if addr < p.hostBase ∨ bytes ≠ 4 then none
  else (locAt p (addr - p.hostBase)).map fun l => (addr - p.hostBase, l)

/-- The word a host read returns while BUSY = 0; none is a RAM word not wholly written since reset
(10_state.md R42, R49). -/
def readLoc (s : State) : Loc → Option Word
  | .cmd => some s.cmd
  | .stat => some s.stat.word
  | .fin => some s.fin
  | .ctrlShadow => some (s.ctrlShadow.setWidth 32)
  | .phaseMdeg => some s.phaseMdeg
  | .argPoll => some s.argPoll
  | .rdata => some (s.rdata.setWidth 32)
  | .resNm => some s.resNm.word
  | .pollcnt => some (s.pollcnt.setWidth 32)
  | .resSteps => some s.resSteps.word
  | .resC i => some (s.resC[i].setWidth 32)
  | .outFreq j => some s.outFreq[j]
  | .outCfg j => some (s.outCfg[j].setWidth 32)
  | .batch k => some s.batch[k]
  | .sram e => s.mem.readWord (sramAddr e)
  | .wram w => s.mem.readWord (wramAddr (4 * w))

/-- A host write while BUSY = 0: read-only words and reserved bits ignore it, a write of CMD accepts a
command (10_state.md R21, R22, R42, 20_memory.md R64). -/
def writeLoc (s : State) (w : Word) : Loc → State
  | .cmd => s.accept w
  | .stat => { s with stat := s.stat.hostWrite w }
  | .fin => { s with fin := w }
  | .ctrlShadow => { s with ctrlShadow := w.extractLsb' 0 16 }
  | .phaseMdeg => { s with phaseMdeg := w }
  | .argPoll => { s with argPoll := w }
  | .rdata => s
  | .resNm => s
  | .pollcnt => s
  | .resSteps => s
  | .resC _ => s
  | .outFreq j => { s with outFreq := s.outFreq.set j w }
  | .outCfg j => { s with outCfg := s.outCfg.set j (w.extractLsb' 0 5) }
  | .batch k => { s with batch := s.batch.set k w }
  | .sram e => { s with mem := s.mem.writeWord (sramAddr e) w }
  | .wram v => { s with mem := s.mem.writeWord (wramAddr (4 * v)) w }

/-- A read of STAT, CMD or POLLCNT returns its current value also while BUSY = 1 (10_state.md R44). -/
def liveWhileBusy : Loc → Bool
  | .cmd => true
  | .stat => true
  | .pollcnt => true
  | _ => false

/-- A read returns `w` to the host (notes/assumptions/11.md). -/
def State.returnWord (s : State) (off : Nat) (w : Word) : State :=
  { s with hostReads := s.hostReads ++ [(off, w)] }

/-- A host read of the word at `off` (10_state.md R44, R49). While BUSY = 1 a word other than STAT, CMD
and POLLCNT reads as a draw (notes/assumptions/13.md). -/
def hostRead (off : Nat) (l : Loc) (s : State) : Step :=
  if s.stat.busy && !liveWhileBusy l then .next (s.popDraw.returnWord off s.draw.word)
  else
    match readLoc s l with
    | some w => .next (s.returnWord off w)
    | none => .fault .unwrittenRead

/-- A host write: while BUSY = 1 a write of anything but STAT is ignored and sets OVR
(10_state.md R43, R22). -/
def hostWrite (l : Loc) (w : Word) (s : State) : State :=
  if s.stat.busy && l ≠ .stat then { s with stat := { s.stat with ovr := true } }
  else writeLoc s w l

/-- A host access; one that is not performed is the fault HostBusError, whatever BUSY is
(20_memory.md R61, 60_exceptions.md R293; notes/assumptions/22.md). -/
def hostAccess (a : HostAccess) (s : State) : Step :=
  match locate s.params a.addr a.bytes with
  | none => .fault .hostBusError
  | some (off, l) =>
    match a.op with
    | .read => hostRead off l s
    | .write w => .next (hostWrite l w s)

/-! ### Host programs (30_encoding.md R111, R112) -/

/-- `sw off, value`. -/
def Input.sw (p : Params) (off : Nat) (w : Word) : Input := .host ⟨p.hostBase + off, 4, .write w⟩

/-- `lw off`. -/
def Input.lw (p : Params) (off : Nat) : Input := .host ⟨p.hostBase + off, 4, .read⟩

/-- `cmd <command>`: a write of its encoding to CMD. -/
def Input.cmd (p : Params) (i : Instr) : Input := .sw p 0 (encode i)

end Sys2Proof.Machine
end

