-- ==== Sys2Proof/Machine/Reset.lean ====
section
/-! DEFINITION. Reset asserted from outside, also while a command runs (70_reset_and_hazards.md
R310-R312). -/

namespace Sys2Proof.Machine

/-- The transport transaction that the current stage of the running command performs, if it performs
one (10_state.md R47, 40_register_protocol.md R131, R140, R143, R150, R151). -/
def State.transaction (s : State) : Option Transaction :=
  match s.seq, decode s.cmd with
  | .exec, .instr i =>
    if hasStage i s.stage then
      match s.stage, i with
      | .decode, .regRead a => some (.read (s.params.portAddr a))
      | .batch, _ => some (.write (s.params.portList s.lBatch))
      | .poll, .poll a => some (.read (s.params.portAddr a))
      | .poll, _ => some (.read (s.params.portAddr s.params.regmap.status))
      | .clear, _ => some (.write (s.params.portList [(s.params.regmap.ctrl, s.lBase)]))
      | _, _ => none
    else none
  | _, _ => none

/-- The events of a transaction that reset cuts short: a read's response is drawn and its value
discarded, and of a batch any in-order subsequence was applied, then BatchFail
(70_reset_and_hazards.md R312). -/
def abortEvents : Transaction → Draw → List Event
  | .read a, d => readEvents a d
  | .write l, d => writeEvents (appliedPairs l d.applied) ++ [.batchFail l.length]

/-- The block after reset: every piece of block state at its reset value, the parameters and the
environment's fields kept, since reset does not reset the remote device, the transport or the host
(70_reset_and_hazards.md R310, R311). -/
def State.resetBlock (s : State) : State :=
  { State.reset with
    params := s.params, inputs := s.inputs, draws := s.draws, drawCount := s.drawCount,
    hostReads := s.hostReads }

/-- Reset asserted, `inFlight` saying whether the current stage's transaction is in flight. Its events
stand alone in the history, which reset empties (70_reset_and_hazards.md R311, R312;
notes/assumptions/14.md). -/
def resetStep (inFlight : Bool) (s : State) : State :=
  match inFlight, s.transaction with
  | true, some t => { s.popDraw.resetBlock with history := abortEvents t s.draw }
  | _, _ => s.resetBlock

end Sys2Proof.Machine
end

