-- ==== Sys2Proof/Machine/Sequencer.lean ====
section
/-! DEFINITION. The moves a step is made of: the sequencer's turn, and the taking of a move from the
environment's list (10_state.md R45-R47; notes/assumptions/1.md). -/

namespace Sys2Proof.Machine

/-- The sequencer's turn: nothing while IDLE (60_exceptions.md R296); else one step of the command CMD
decodes to, or ILLEGAL_COMMAND (30_encoding.md R108, 60_exceptions.md R285). -/
def sequencerTurn (s : State) : Step :=
  match s.seq with
  | .idle => .next s
  | .exec =>
    match decode s.cmd with
    | .instr i => exec i s
    | .unknownOpcode => .next (s.finish .illegalCommand .unknownOpcode)
    | .reservedBits => .next (s.finish .illegalCommand .reservedBits)

/-- The state with its next move of the environment taken off the list. -/
def State.popInput (s : State) : State := { s with inputs := s.inputs.tail }

/-- One move of the environment, or the sequencer's turn where none is listed
(00_scope.md R6, 10_state.md R47). -/
def move (s : State) : Step :=
  match s.inputs with
  | [] => sequencerTurn s
  | .turn :: _ => sequencerTurn s.popInput
  | .host a :: _ => hostAccess a s.popInput
  | .reset inFlight :: _ => .next (resetStep inFlight s.popInput)

/-- The state in which the next move is a sequencer step of command word `w`, newly accepted
(10_state.md R46; notes/assumptions/20.md). -/
def State.acceptNext (s : State) (w : Word) : State :=
  { s.accept w with inputs := .turn :: s.inputs }

end Sys2Proof.Machine
end

