-- ==== Sys2Proof/Machine/Step.lean ====
section
/-! DEFINITION. One step of the machine, and how a command is put where the next step runs it. -/

namespace Sys2Proof.Machine

/-- One step: one host access, one sequencer step, or one reset (10_state.md R47). -/
def step (s : State) : Host.Outcome State Fault Refusal := move s

/-- `s` with the command of `nbits` bits of value `w`, the bits above them 0, accepted and the sequencer
next to move: the block fetches nothing, a host write of CMD is what starts a command
(10_state.md R21, R46, 20_memory.md R65; notes/assumptions/20.md). -/
def State.withFetchWord (s : State) (nbits w : Nat) : State :=
  s.acceptNext (BitVec.ofNat 32 (w % 2 ^ nbits))

end Sys2Proof.Machine
end

