-- ==== Sys2Proof/Safety.lean ====
section
/-! DEFINITION. The terms claims are stated in: the invariant of the block, the spec's own description
of what the PLL search chooses, and the forms of control words and samples. -/

namespace Sys2Proof.Machine

/-- The three commands that run a configuration sequence (40_register_protocol.md R130). -/
def isConfig : Instr → Bool
  | .pllConfig _ _ => true
  | .phaseFixed _ _ => true
  | .phaseSearch _ _ => true
  | .nop => false
  | .regRead _ => false
  | .regWrite _ => false
  | .poll _ => false
  | .pack12 _ _ => false
  | .unpack12 _ _ => false
  | .pack16 _ _ => false
  | .unpack16 _ _ => false

/-- The codec commands (43_sample_codec.md). -/
def isCodec : Instr → Bool
  | .pack12 _ _ => true
  | .unpack12 _ _ => true
  | .pack16 _ _ => true
  | .unpack16 _ _ => true
  | .nop => false
  | .regRead _ => false
  | .regWrite _ => false
  | .poll _ => false
  | .pllConfig _ _ => false
  | .phaseFixed _ _ => false
  | .phaseSearch _ _ => false

/-- The running command is in a stage that performs a transport transaction: its batch, a status read,
its clear write, or REG_READ's read (10_state.md R47, 40_register_protocol.md R131, R140, R143,
R150). -/
def InTransaction (s : State) : Prop :=
  s.seq = .exec ∧ ∃ i, decode s.cmd = .instr i ∧
    ((s.stage = .batch ∧ hasStage i .batch = true) ∨ (s.stage = .poll ∧ hasStage i .poll = true) ∨
      (s.stage = .clear ∧ hasStage i .clear = true) ∨ (s.stage = .decode ∧ ∃ a, i = .regRead a))

/-- The running command has the stage the sequencer is in; an illegal word has DECODE only
(10_state.md R45, R46). -/
def StageFits (s : State) : Prop :=
  match decode s.cmd with
  | .instr i => hasStage i s.stage = true
  | .unknownOpcode => s.stage = .decode
  | .reservedBits => s.stage = .decode

/-- What holds of the block in every state a run reaches. -/
structure Inv (s : State) : Prop where
  /-- seq = IDLE exactly when STAT.BUSY = 0 (10_state.md R45). -/
  busy_iff : s.stat.busy = true ↔ s.seq = .exec
  stage_fits : s.seq = .exec → StageFits s
  /-- Between acceptance and finish RESULT and DETAIL are 0 (10_state.md R23), and so is ERRCODE. -/
  running : s.stat.busy = true →
    s.stat.result = .ok ∧ s.stat.detail = .none ∧ s.stat.errcode = 0
  /-- DETAIL is 0 for every result but INVALID_ARGUMENT and ILLEGAL_COMMAND, and names a check for
  those (10_state.md R27). -/
  detail_iff : s.stat.detail ≠ .none ↔
    (s.stat.result = .invalidArgument ∨ s.stat.result = .illegalCommand)
  /-- ERRCODE is non-zero exactly after HARDWARE_ERROR (10_state.md R25). -/
  errcode_iff : s.stat.errcode ≠ 0 ↔ s.stat.result = .hardwareError
  /-- A poll loop makes at most POLL_LIMIT reads (40_register_protocol.md R142). -/
  poll_le : s.pollcnt.toNat ≤ s.params.pollLimit
  poll_before : s.seq = .exec → s.stage = .decode ∨ s.stage = .batch → s.pollcnt = 0
  poll_during : s.seq = .exec → s.stage = .poll → s.pollcnt.toNat < s.params.pollLimit
  /-- A pending HWERR carries a non-zero error value (40_register_protocol.md R140). -/
  hwerr_nonzero : s.seq = .exec → s.stage = .clear ∨ s.stage = .finish →
    s.term ≠ .hwerr 0
  /-- The CLEAR stage is not entered with IOERR (40_register_protocol.md R143). -/
  clear_term : s.seq = .exec → s.stage = .clear → s.term ≠ .ioerr
  /-- The base word of a configuration sequence has both start bits 0 (40_register_protocol.md R143). -/
  base_clear : s.seq = .exec → s.stage ≠ .decode →
    (∃ i, decode s.cmd = .instr i ∧ isConfig i = true) → s.lBase &&& 3 = 0
  /-- The memory keeps its canonical form, lists only RAM offsets, and SRAM entries are written whole
  (20_memory.md R60, R63). -/
  mem_wf : s.mem.wf
  mem_range : ∀ c ∈ s.mem, 0x1000 ≤ c.1 ∧ c.1 < 0x3000
  sram_whole : ∀ e k : Nat, e < 1024 → k < 4 →
    (s.mem.read (sramAddr e + k)).isSome = (s.mem.read (sramAddr e)).isSome

/-- The dividers the block reports: RES_C entries at most 260; RES_NM unset or N and M in 1..255
(41_pll_synthesizer.md R187, R194). -/
structure ReportsInRange (s : State) : Prop where
  c_le : ∀ i : Fin 16, s.resC[i].toNat ≤ 260
  nm : s.resNm = ⟨0, 0, 0⟩ ∨
    (1 ≤ s.resNm.n.toNat ∧ 1 ≤ s.resNm.m.toNat ∧ 1 ≤ s.resNm.score.toNat ∧ s.resNm.score.toNat ≤ 16)

/-! ### What PLL_CONFIG chooses, in the spec's own words -/

/-- The j-th entry of the output table (10_state.md R37, R38). -/
def State.entry (s : State) (j : Fin 16) : OutEntry :=
  ⟨outIndex s.outCfg[j], s.params.hz s.outFreq[j], outBypass s.outCfg[j]⟩

/-- Entry `j` passes the checks of 41_pll_synthesizer.md R173. -/
def EntryOk (s : State) (j : Fin 16) : Prop :=
  ((s.entry j).byp = true ∨ s.params.fFloor ≤ (s.entry j).freq) ∧
    ∀ i : Fin 16, i < j → (s.entry i).idx ≠ (s.entry j).idx

/-- `f` is the frequency of an active entry among the first `nout` (41_pll_synthesizer.md R174). -/
def Active (s : State) (nout : Nat) (j : Fin 16) : Prop := j.val < nout ∧ (s.entry j).byp = false

/-- `v` is a candidate (41_pll_synthesizer.md R175). -/
def IsCandidate (s : State) (nout v : Nat) : Prop :=
  s.params.vcoMin ≤ v ∧ v ≤ s.params.vcoMax ∧
    ∃ j, Active s nout j ∧ ∃ q : Nat, 1 ≤ q ∧ v = q * (s.entry j).freq

/-- The score of `v`: the number of active entries whose frequency divides it
(41_pll_synthesizer.md R178). -/
def scoreOf (s : State) (nout v : Nat) : Nat :=
  (List.finRange 16).countP fun j =>
    decide (j.val < nout) && !(s.entry j).byp && decide ((s.entry j).freq ∣ v)

/-- `v` is a candidate of best score (41_pll_synthesizer.md R179). -/
def IsTop (s : State) (nout v : Nat) : Prop :=
  IsCandidate s nout v ∧ ∀ w, IsCandidate s nout w → scoreOf s nout w ≤ scoreOf s nout v

/-- (n, m) is what the loop of 41_pll_synthesizer.md R181 returns for candidate `v`: the loop passed every
smaller N, and stops at n, because `fin > F_FLOOR * N` fails there or because the next M would exceed
NM_MAX. -/
def IsSearchPair (p : Params) (fin v n m : Nat) : Prop :=
  1 ≤ n ∧ m = rnd (v * n) fin ∧
    (∀ k, 1 ≤ k → k < n → p.fFloor * k < fin ∧ rnd (v * (k + 1)) fin ≤ p.nmMax) ∧
    (fin ≤ p.fFloor * n ∨ p.nmMax < rnd (v * (n + 1)) fin)

/-- (n, m) is valid (41_pll_synthesizer.md R182). -/
def ValidPair (p : Params) (n m : Nat) : Prop :=
  p.nmMin ≤ n ∧ n ≤ p.nmMax ∧ p.nmMin ≤ m ∧ m ≤ p.nmMax

/-- The deviation |v - fin * M / N| as a rational (41_pll_synthesizer.md R183). -/
def deviation (fin v n m : Nat) : Rat := |(v : Rat) - (fin : Rat) * m / n|

/-- `v` with (n, m) is the selection: of least deviation among the top candidates with a valid pair,
and of those the lowest (TIE_RULE = FIRST) or the highest (LAST) (41_pll_synthesizer.md R184). -/
def IsSelected (s : State) (nout v n m : Nat) : Prop :=
  IsTop s nout v ∧ IsSearchPair s.params s.finHz v n m ∧ ValidPair s.params n m ∧
    ∀ v' n' m', IsTop s nout v' → IsSearchPair s.params s.finHz v' n' m' →
      ValidPair s.params n' m' →
      deviation s.finHz v n m < deviation s.finHz v' n' m' ∨
        (deviation s.finHz v n m = deviation s.finHz v' n' m' ∧
          (match s.params.tieRule with
            | .first => v ≤ v'
            | .last => v' ≤ v))

/-- The divider of entry `j` (41_pll_synthesizer.md R187). -/
def dividerAt (s : State) (n m : Nat) (j : Fin 16) : Nat :=
  if (s.entry j).byp then 1 else rnd (s.finHz * m) (n * (s.entry j).freq)

/-- The arguments of PLL_CONFIG pass the checks made before the search
(41_pll_synthesizer.md R171-R173). -/
def PllArgsOk (s : State) (pll nout : Nat) : Prop :=
  pll < s.params.pllCount ∧ s.params.fFloor ≤ s.finHz ∧ 1 ≤ nout ∧ nout ≤ 16 ∧
    ∀ j : Fin 16, j.val < nout → EntryOk s j

/-! ### Samples -/

/-- Both words of an entry are in the 12-bit range, held sign-extended (43_sample_codec.md R250). -/
def TwelveBit (x : Word) : Prop :=
  (-2048 ≤ (x.extractLsb' 0 16).toInt ∧ (x.extractLsb' 0 16).toInt ≤ 2047) ∧
    (-2048 ≤ (x.extractLsb' 16 16).toInt ∧ (x.extractLsb' 16 16).toInt ≤ 2047)

/-- The first `n` SRAM entries, and the first `n` WRAM bytes, have been written (10_state.md R49). -/
def SramWritten (s : State) (n : Nat) : Prop :=
  ∀ e, e < n → ∃ x, s.mem.readWord (0x1000 + 4 * e) = some x
def WramWritten (s : State) (n : Nat) : Prop :=
  ∀ b, b < n → ∃ x, s.mem.read (0x2000 + b) = some x

end Sys2Proof.Machine
end

