-- ==== Sys2Proof/Certificates/Slice0/Obligations.lean ====
section
/-! DEFINITION. The statements about the model, each from a numbered rule of spec/. In a statement
`s.draw` is the environment's next answer (a value under no law), `s.popDraw` the state with that
answer used, and `s.finish r d` is spelled out by FinishWritesResultAndIdles. -/

open Sys2Proof Sys2Proof.Machine

/-! ### Encoding -/

/-- 30_encoding.md R101-R110: every bit of a well-formed command's encoding is read back. -/
def Obligations.DecodeOfEncodeIsIdentity : Prop :=
  ∀ i : Instr, i.wellFormed = true → decode (encode i) = .instr i

/-- 30_encoding.md R100, R106, R107: an accepted word is the encoding of the well-formed command it
decodes to. -/
def Obligations.EncodeOfDecodeIsIdentity : Prop :=
  ∀ (w : Word) (i : Instr), decode w = .instr i → i.wellFormed = true ∧ encode i = w

/-- 30_encoding.md R113: its nine commands and its two illegal words, and R110's word of NOP. -/
def Obligations.WordsOfTheSpecDecode : Prop :=
  decode 0x00000000 = .instr .nop ∧
  decode 0x00002310 = .instr (.pllConfig 3 2) ∧
  decode 0x00001010 = .instr (.pllConfig 16 1) ∧
  decode 0x00002011 = .instr (.phaseFixed 0 1) ∧
  decode 0x0001E212 = .instr (.phaseSearch 2 15) ∧
  decode 0x00002101 = .instr (.regRead 0x0021) ∧
  decode 0x00000302 = .instr (.regWrite 3) ∧
  decode 0x00002103 = .instr (.poll 0x0021) ∧
  decode 0x00020120 = .instr (.pack12 2 true) ∧
  decode 0x04000023 = .instr (.unpack16 1024 false) ∧
  decode 0x00000004 = .unknownOpcode ∧
  decode 0x00020010 = .reservedBits

/-- 30_encoding.md R101-R105, R107, R109: which words are illegal, and under which of the two names. -/
def Obligations.IllegalWordsAreNamed : Prop :=
  ∀ w : Word,
    (decode w = .unknownOpcode ↔
      w.toNat % 256 ∉ [0, 1, 2, 3, 0x10, 0x11, 0x12, 0x20, 0x21, 0x22, 0x23]) ∧
    (decode w = .reservedBits ↔
      (w.toNat % 256 = 0 ∧ w.toNat / 2 ^ 8 ≠ 0) ∨
      (w.toNat % 256 ∈ [1, 3] ∧ w.toNat / 2 ^ 24 ≠ 0) ∨
      (w.toNat % 256 = 2 ∧ w.toNat / 2 ^ 15 ≠ 0) ∨
      (w.toNat % 256 ∈ [0x10, 0x11, 0x12] ∧ w.toNat / 2 ^ 17 ≠ 0) ∨
      (w.toNat % 256 ∈ [0x20, 0x21, 0x22, 0x23] ∧ w.toNat / 2 ^ 9 % 2 ^ 7 ≠ 0))

/-- 30_encoding.md R108: an illegal word ends in the DECODE step and writes nothing but STAT. That
it ends in that same step is the model's reading (notes/assumptions/7.md). -/
def Obligations.IllegalWordsFinishAtOnce : Prop :=
  ∀ s u : State, ((s.inputs = [] ∧ u = s) ∨
      ∃ rest, s.inputs = .turn :: rest ∧ u = { s with inputs := rest }) → s.seq = .exec →
    (decode s.cmd = .unknownOpcode → step s = .next (u.finish .illegalCommand .unknownOpcode)) ∧
    (decode s.cmd = .reservedBits → step s = .next (u.finish .illegalCommand .reservedBits))

/-! ### The step -/

/-- 10_state.md R46, R47: the sequencer's turn is one step of the command CMD decodes to, whether the
turn is the next move listed or no move is listed. The list of moves is the model's choice
(notes/assumptions/1.md). -/
def Obligations.StepRunsTheDecodedCommand : Prop :=
  ∀ (s : State) (i : Instr) (rest : List Input), s.seq = .exec → decode s.cmd = .instr i →
    (s.inputs = [] → step s = exec i s) ∧
    (s.inputs = .turn :: rest → step s = exec i { s with inputs := rest })

/-- 10_state.md R21, R46: a word placed for the next step is run by it, in the state acceptance
leaves. How a word is placed is the model's choice (notes/assumptions/20.md). That the locals other
than the stage keep their values is the model's choice (notes/assumptions/26.md). -/
def Obligations.PlacedWordIsRunByTheNextStep : Prop :=
  ∀ (s : State) (nbits w : Nat) (i : Instr), decodeTableWord nbits w = some i →
    step (s.withFetchWord nbits w) = exec i { s with
      cmd := BitVec.ofNat 32 (w % 2 ^ nbits)
      stat := ⟨true, .ok, s.stat.ovr, false, .none, 0⟩
      pollcnt := 0
      seq := .exec
      stage := .decode }

/-- 60_exceptions.md R296: between commands the block does nothing, also when given its turn. -/
def Obligations.IdleBlockDoesNothing : Prop :=
  ∀ s : State, s.seq = .idle →
    (s.inputs = [] → step s = .next s) ∧
    (∀ rest, s.inputs = .turn :: rest → step s = .next { s with inputs := rest })

/-- 60_exceptions.md R284: what `finish` writes, everything else unchanged. That the sequencer's
locals are among what is unchanged is the model's choice (notes/assumptions/26.md). -/
def Obligations.FinishWritesResultAndIdles : Prop :=
  ∀ (s : State) (r : Result) (d : Detail),
    s.finish r d = { s with
      stat := ⟨false, r, s.stat.ovr, s.stat.clrFail, d, s.stat.errcode⟩, seq := .idle }

/-! ### Reset -/

/-- 70_reset_and_hazards.md R311: what the host reads after reset, an empty history, an idle
sequencer. -/
def Obligations.ResetLeavesZeroRegisters : Prop :=
  let s := State.reset
  (∀ off ∈ [0x000, 0x004, 0x008, 0x00C, 0x010, 0x014, 0x018, 0x01C, 0x020, 0x024],
    (locAt s.params off).map (readLoc s) = some (some 0)) ∧
  (∀ i : Fin 16, s.resC[i] = 0 ∧ s.outFreq[i] = 0 ∧ s.outCfg[i] = 0) ∧
  (∀ k : Fin 64, s.batch[k] = 0) ∧
  (∀ a, s.mem.read a = none) ∧
  s.seq = .idle ∧ s.history = []

/-- 70_reset_and_hazards.md R310-R312: reset at any time gives every piece of block state its reset
value and leaves the environment alone; a transaction in flight leaves its drawn events. That they
stand alone in the emptied history is the model's reading (notes/assumptions/14.md). The reset
values of the sequencer's locals are the model's choice (notes/assumptions/5.md). What the port
carries at widths below the defaults is the model's choice (notes/assumptions/3.md). -/
def Obligations.ResetEndsACommand : Prop :=
  ∀ (s : State) (inFlight : Bool) (rest : List Input), s.inputs = .reset inFlight :: rest →
    ∃ t, step s = .next t ∧
      t = { State.reset with
        params := s.params, inputs := rest, draws := t.draws, drawCount := t.drawCount,
        hostReads := s.hostReads, history := t.history } ∧
      ((inFlight = false ∨ ¬ InTransaction s) →
        t.history = [] ∧ t.draws = s.draws ∧ t.drawCount = s.drawCount) ∧
      (inFlight = true → InTransaction s →
        t.draws = s.draws.tail ∧ t.drawCount = s.drawCount + 1) ∧
      (∀ i, inFlight = true → s.seq = .exec → decode s.cmd = .instr i →
        (s.stage = .batch → hasStage i .batch = true →
          ∃ sub : List (RegAddr × RegData), sub.Sublist (s.params.portList s.lBatch) ∧
            t.history = sub.map (fun p => .write p.1 p.2) ++ [.batchFail s.lBatch.length]) ∧
        (s.stage = .clear → isConfig i = true →
          ∃ sub : List (RegAddr × RegData),
            sub.Sublist (s.params.portList [(s.params.regmap.ctrl, s.lBase)]) ∧
            t.history = sub.map (fun p => .write p.1 p.2) ++ [.batchFail 1]) ∧
        (s.stage = .poll → isConfig i = true →
          t.history = [if s.draw.fails then .readFail (s.params.portAddr s.params.regmap.status)
            else .read (s.params.portAddr s.params.regmap.status) s.draw.value]) ∧
        (∀ a, s.stage = .poll → i = .poll a →
          t.history = [if s.draw.fails then .readFail (s.params.portAddr a)
            else .read (s.params.portAddr a) s.draw.value]) ∧
        (∀ a, s.stage = .decode → i = .regRead a →
          t.history = [if s.draw.fails then .readFail (s.params.portAddr a)
            else .read (s.params.portAddr a) s.draw.value]))

/-! ### The host window -/

/-- 20_memory.md R60, R61 with the offsets of 10_state.md section 1: a host access is a bus error
exactly when it is not 32 bits wide, not 4-byte aligned, or unmapped, the tables and RAMs having the
sizes of 00_scope.md R7. That an offset past a smaller one is unmapped is the model's choice
(notes/assumptions/3.md). Alignment is that of the window offset, which is the address's where
HOST_BASE is a multiple of 4; for another HOST_BASE it is the model's choice
(notes/assumptions/25.md). -/
def Obligations.BusErrorExactly : Prop :=
  ∀ (s : State) (a : HostAccess) (rest : List Input), s.params.Ok → s.inputs = .host a :: rest →
    (step s = .fault .hostBusError ↔
      ¬ (a.bytes = 4 ∧ ∃ off, a.addr = s.params.hostBase + off ∧ off % 4 = 0 ∧
        (off < 0x28 ∨ (0x40 ≤ off ∧ off < 0x40 + 4 * s.params.outCount) ∨
          (0x100 ≤ off ∧ off < 0x100 + 8 * s.params.outCount) ∨
          (0x200 ≤ off ∧ off < 0x200 + 4 * s.params.batchMax) ∨
          (0x1000 ≤ off ∧ off < 0x1000 + 4 * s.params.sampleEntries) ∨
          (0x2000 ≤ off ∧ off + 4 ≤ 0x2000 + s.params.wireBytes))))

/-- 10_state.md R21, R26, R46: a host write of CMD while BUSY = 0 accepts the command. That the locals
other than the stage keep their values is the model's choice (notes/assumptions/26.md). -/
def Obligations.WriteOfCmdAcceptsACommand : Prop :=
  ∀ (s : State) (w : Word) (rest : List Input),
    s.inputs = .host ⟨s.params.hostBase, 4, .write w⟩ :: rest → s.stat.busy = false →
    step s = .next { s with
      inputs := rest
      cmd := w
      stat := ⟨true, .ok, s.stat.ovr, false, .none, 0⟩
      pollcnt := 0
      seq := .exec
      stage := .decode }

/-- 10_state.md R43: while BUSY = 1 a write of any mapped word but STAT keeps the target and sets OVR;
no host access changes the running command (20_memory.md R94). -/
def Obligations.HostCannotDisturbARunningCommand : Prop :=
  ∀ (s : State) (a : HostAccess) (rest : List Input), s.inputs = .host a :: rest →
    s.stat.busy = true →
    (∀ t, step s = .next t →
      t = { s with
        inputs := rest
        stat := { s.stat with ovr := t.stat.ovr }
        draws := t.draws
        drawCount := t.drawCount
        hostReads := t.hostReads }) ∧
    (∀ w off l, a = ⟨s.params.hostBase + off, 4, .write w⟩ → locAt s.params off = some l → off ≠ 4 →
      step s = .next { s with inputs := rest, stat := { s.stat with ovr := true } })

/-- 10_state.md R22: a host write of STAT, also while BUSY = 1, changes only OVR, which it clears where
bit 4 is 1. -/
def Obligations.WriteOfStatClearsOnlyOvr : Prop :=
  ∀ (s : State) (w : Word) (rest : List Input),
    s.inputs = .host ⟨s.params.hostBase + 4, 4, .write w⟩ :: rest →
    step s = .next { s with
      inputs := rest
      stat := { s.stat with ovr := if w.getLsbD 4 then false else s.stat.ovr } }

/-- 10_state.md R22, 60_exceptions.md R281, R282: the word STAT reads as, and the codes in it. -/
def Obligations.StatWordLayout : Prop :=
  (∀ t : Stat, t.word.toNat =
    t.busy.toNat + 2 * t.result.code.toNat + 16 * t.ovr.toNat + 32 * t.clrFail.toNat +
      256 * t.detail.code.toNat + 65536 * t.errcode.toNat) ∧
  [Result.ok, .invalidArgument, .ioError, .timeout, .hardwareError, .illegalCommand].map
    (fun r => r.code.toNat) = List.range 6 ∧
  [Detail.none, .pllIndex, .finLow, .foutLow, .dupIndex, .noCandidate, .noValidNm, .fvcoRange,
    .cZero, .unknownOpcode, .reservedBits, .countRange, .predRange, .notConfigured,
    .stepsRange].map (fun d => d.code.toNat) = List.range 15

/-- 10_state.md R44: while BUSY = 1 the host reads the current STAT, CMD and POLLCNT; every other mapped
word reads as a draw. That holds of an unwritten RAM word too (notes/assumptions/13.md). -/
def Obligations.ReadWhileBusy : Prop :=
  ∀ (s : State) (off : Nat) (l : Loc) (rest : List Input),
    s.inputs = .host ⟨s.params.hostBase + off, 4, .read⟩ :: rest → locAt s.params off = some l →
    s.stat.busy = true →
    (off = 0 → step s = .next { s with inputs := rest, hostReads := s.hostReads ++ [(0, s.cmd)] }) ∧
    (off = 4 → step s =
      .next { s with inputs := rest, hostReads := s.hostReads ++ [(4, s.stat.word)] }) ∧
    (off = 0x20 → step s =
      .next { s with
        inputs := rest, hostReads := s.hostReads ++ [(0x20, s.pollcnt.setWidth 32)] }) ∧
    (off ≠ 0 → off ≠ 4 → off ≠ 0x20 → step s =
      .next { s.popDraw with
        inputs := rest, hostReads := s.hostReads ++ [(off, s.draw.word)] })

/-- 20_memory.md R64, 10_state.md R21-R22, R28-R41, R49: while BUSY = 0 a host read changes nothing and
returns the word's value, and it stops exactly on a RAM word with an unwritten byte. (STAT's word is
StatWordLayout's.) -/
def Obligations.IdleReadHasNoEffect : Prop :=
  ∀ (s : State) (off : Nat) (l : Loc) (rest : List Input),
    s.inputs = .host ⟨s.params.hostBase + off, 4, .read⟩ :: rest → locAt s.params off = some l →
    s.stat.busy = false →
    ((∃ k, k < 4 ∧ 0x1000 ≤ off ∧ s.mem.read (off + k) = none) → step s = .fault .unwrittenRead) ∧
    ((¬ ∃ k, k < 4 ∧ 0x1000 ≤ off ∧ s.mem.read (off + k) = none) →
      ∃ w, step s = .next { s with inputs := rest, hostReads := s.hostReads ++ [(off, w)] } ∧
        (off = 0x000 → w = s.cmd) ∧ (off = 0x004 → w = s.stat.word) ∧ (off = 0x008 → w = s.fin) ∧
        (off = 0x00C → w.toNat = s.ctrlShadow.toNat) ∧ (off = 0x010 → w = s.phaseMdeg) ∧
        (off = 0x014 → w = s.argPoll) ∧ (off = 0x018 → w.toNat = s.rdata.toNat) ∧
        (off = 0x01C → w.toNat = s.resNm.n.toNat + 2 ^ 8 * s.resNm.m.toNat +
          2 ^ 16 * s.resNm.score.toNat) ∧
        (off = 0x020 → w.toNat = s.pollcnt.toNat) ∧
        (off = 0x024 → w.toNat = s.resSteps.mag.toNat + 2 ^ 16 * s.resSteps.updn.toNat) ∧
        (∀ i : Fin 16, off = 0x040 + 4 * i.val → w.toNat = s.resC[i].toNat) ∧
        (∀ j : Fin 16, off = 0x100 + 8 * j.val → w = s.outFreq[j]) ∧
        (∀ j : Fin 16, off = 0x104 + 8 * j.val → w.toNat = s.outCfg[j].toNat) ∧
        (∀ k : Fin 64, off = 0x200 + 4 * k.val → w = s.batch[k]) ∧
        (∀ b0 b1 b2 b3, 0x1000 ≤ off → s.mem.read off = some b0 → s.mem.read (off + 1) = some b1 →
          s.mem.read (off + 2) = some b2 → s.mem.read (off + 3) = some b3 →
          w.toNat = b0.toNat + 2 ^ 8 * b1.toNat + 2 ^ 16 * b2.toNat + 2 ^ 24 * b3.toNat))

/-- 10_state.md R28-R31, R37-R39, R42: a register or table entry read back after a write while BUSY
= 0 gives the written word in its writable bits and zero in the others. Which entries a size below
the default has is the model's choice (notes/assumptions/3.md). -/
def Obligations.WrittenRegistersReadBack : Prop :=
  ∀ (s : State) (off : Nat) (mask w : Word),
    (((off = 0x08 ∨ off = 0x10 ∨ off = 0x14) ∧ mask = 0xFFFFFFFF) ∨
      (off = 0x0C ∧ mask = 0x0000FFFF) ∨
      (∃ j, j < 16 ∧ j < s.params.outCount ∧ off = 0x100 + 8 * j ∧ mask = 0xFFFFFFFF) ∨
      (∃ j, j < 16 ∧ j < s.params.outCount ∧ off = 0x104 + 8 * j ∧ mask = 0x0000001F) ∨
      (∃ k, k < 64 ∧ k < s.params.batchMax ∧ off = 0x200 + 4 * k ∧ mask = 0xFFFFFFFF)) →
    s.stat.busy = false →
    s.inputs = [.host ⟨s.params.hostBase + off, 4, .write w⟩,
      .host ⟨s.params.hostBase + off, 4, .read⟩] →
    ∃ t, core.run 2 s = .next t ∧ t.hostReads = s.hostReads ++ [(off, w &&& mask)] ∧
      t.mem = s.mem ∧ t.stat = s.stat ∧ t.seq = s.seq ∧ t.history = s.history ∧
      (off ≠ 0x08 → t.fin = s.fin) ∧ (off ≠ 0x0C → t.ctrlShadow = s.ctrlShadow) ∧
      (off ≠ 0x10 → t.phaseMdeg = s.phaseMdeg) ∧ (off ≠ 0x14 → t.argPoll = s.argPoll) ∧
      (∀ j : Fin 16, off ≠ 0x100 + 8 * j.val → t.outFreq[j] = s.outFreq[j]) ∧
      (∀ j : Fin 16, off ≠ 0x104 + 8 * j.val → t.outCfg[j] = s.outCfg[j]) ∧
      (∀ k : Fin 64, off ≠ 0x200 + 4 * k.val → t.batch[k] = s.batch[k])

/-- 10_state.md R42: a host write of a read-only register while BUSY = 0 has no effect. Which
entries a size below the default has is the model's choice (notes/assumptions/3.md). -/
def Obligations.ReadOnlyRegistersIgnoreWrites : Prop :=
  ∀ (s : State) (off : Nat) (w : Word) (rest : List Input),
    (off = 0x18 ∨ off = 0x1C ∨ off = 0x20 ∨ off = 0x24 ∨
      (∃ i, i < 16 ∧ i < s.params.outCount ∧ off = 0x40 + 4 * i)) →
    s.stat.busy = false →
    s.inputs = .host ⟨s.params.hostBase + off, 4, .write w⟩ :: rest →
    step s = .next { s with inputs := rest }

/-- 10_state.md R40, R41, 20_memory.md R62, R63: a host write of a RAM word while BUSY = 0 writes
its four bytes, lane b at offset + b, and no other byte. Which entries a size below the default has
is the model's choice (notes/assumptions/3.md). -/
def Obligations.HostWriteOfRamWritesFourBytes : Prop :=
  ∀ (s : State) (off : Nat) (w : Word) (rest : List Input),
    ((0x1000 ≤ off ∧ off < 0x2000 ∧ off < 0x1000 + 4 * s.params.sampleEntries) ∨
      (0x2000 ≤ off ∧ off < 0x3000 ∧ off + 4 ≤ 0x2000 + s.params.wireBytes)) →
    off % 4 = 0 → s.stat.busy = false →
    s.inputs = .host ⟨s.params.hostBase + off, 4, .write w⟩ :: rest →
    ∃ t, step s = .next t ∧ t = { s with inputs := rest, mem := t.mem } ∧
      (∀ k, k < 4 → t.mem.read (off + k) = some (w.extractLsb' (8 * k) 8)) ∧
      (∀ a, (a < off ∨ off + 4 ≤ a) → t.mem.read a = s.mem.read a)

/-! ### The register protocol -/

/-- 40_register_protocol.md R148: NOP finishes OK and changes nothing else. -/
def Obligations.NopFinishesOk : Prop :=
  ∀ s : State, exec .nop s = .next (s.finish .ok .none)

/-- 40_register_protocol.md R150, 20_memory.md R76: REG_READ reads its address once; RDATA takes the
value when the read succeeds and keeps its value when it fails. The port carries the address's and
the value's low REG_ADDR_WIDTH and REG_DATA_WIDTH bits (00_scope.md R7, 20_memory.md R70). That read
and finish share one step is the model's reading (notes/assumptions/10.md). What the port carries at
widths below the defaults is the model's choice (notes/assumptions/3.md). -/
def Obligations.RegReadReturnsTheRegister : Prop :=
  ∀ (a : RegAddr) (s : State),
    (s.draw.fails = false → exec (.regRead a) s = .next ({ s.popDraw with
      rdata := s.draw.value
      history := s.history ++ [Event.read (s.params.portAddr a) s.draw.value] }.finish .ok .none)) ∧
    (s.draw.fails = true → exec (.regRead a) s = .next ({ s.popDraw with
      history := s.history ++ [Event.readFail (s.params.portAddr a)] }.finish .ioError .none)) ∧
    s.draw.value.toNat < 2 ^ s.params.regDataWidth ∧
    (∀ d ds, s.draws = d :: ds → s.draw.fails = d.fails ∧
      s.draw.value.toNat = d.value.toNat % 2 ^ s.params.regDataWidth) ∧
    (s.params.regAddrWidth = 16 → s.params.portAddr a = a)

/-- 40_register_protocol.md R151: REG_WRITE's DECODE step rejects a count not in 1..BATCH_MAX, and else
takes the first `count` pairs of the BATCH table in index order. -/
def Obligations.RegWriteTakesItsBatch : Prop :=
  ∀ (count : Nat) (s : State), s.params.Ok → s.stage = .decode →
    ((count = 0 ∨ s.params.batchMax < count) →
      exec (.regWrite count) s = .next (s.finish .invalidArgument .countRange)) ∧
    (1 ≤ count → count ≤ s.params.batchMax →
      ∃ t, exec (.regWrite count) s = .next t ∧
        t = { s with lBatch := t.lBatch, stage := .batch } ∧
        t.lBatch.length = count ∧
        ∀ k : Fin 64, k.val < count →
          t.lBatch[k.val]? = some (s.batch[k].extractLsb' 16 16, s.batch[k].extractLsb' 0 16))

/-- 20_memory.md R77, 40_register_protocol.md R131, R132, R151: the BATCH step. A successful batch
writes every pair in list order; a failed one writes an in-order subsequence and reports once. What
the port carries at widths below the defaults is the model's choice (notes/assumptions/3.md). -/
def Obligations.BatchStepWritesInOrder : Prop :=
  ∀ (i : Instr) (s : State), s.stage = .batch → hasStage i .batch = true →
    ∃ t, exec i s = .next t ∧
      t = { s.popDraw with history := t.history, term := t.term, stage := t.stage } ∧
      (s.draw.fails = false →
        t.history = s.history ++ (s.params.portList s.lBatch).map (fun p => .write p.1 p.2) ∧
        (isConfig i = false → t.stage = .finish ∧ t.term = .done) ∧
        (isConfig i = true → s.params.busyPollCap = true → t.stage = .poll ∧ t.term = s.term) ∧
        (isConfig i = true → s.params.busyPollCap = false → t.stage = .clear ∧ t.term = .done)) ∧
      (s.draw.fails = true → t.stage = .finish ∧ t.term = .ioerr ∧
        ∃ sub : List (RegAddr × RegData), sub.Sublist (s.params.portList s.lBatch) ∧ t.history =
          s.history ++ sub.map (fun p => .write p.1 p.2) ++ [.batchFail s.lBatch.length])

/-- 20_memory.md R77: the pairs a failed batch applied are any in-order subsequence, empty and complete
ones included, and nothing else. -/
def Obligations.FailedBatchAppliesAnySubsequence : Prop :=
  ∀ l sub : List (RegAddr × RegData),
    (∃ applied, appliedPairs l applied = sub) ↔ sub.Sublist l

/-- 40_register_protocol.md R152, R133: POLL's DECODE step rejects an ARG_POLL that encodes no predicate,
and else starts the loop with the predicate it encodes. -/
def Obligations.PollChecksItsPredicate : Prop :=
  ∀ (a : RegAddr) (s : State), s.stage = .decode →
    let g := s.argPoll.toNat
    ((g / 2 ^ 13 ≠ 0 ∨ 16 < g / 2 ^ 8 % 2 ^ 5 ∨ 16 < g / 2 ^ 4 % 2 ^ 4 + g / 2 ^ 8 % 2 ^ 5) →
      exec (.poll a) s = .next (s.finish .invalidArgument .predRange)) ∧
    (¬ (g / 2 ^ 13 ≠ 0 ∨ 16 < g / 2 ^ 8 % 2 ^ 5 ∨
        16 < g / 2 ^ 4 % 2 ^ 4 + g / 2 ^ 8 % 2 ^ 5) →
      ∃ pred : Pred, exec (.poll a) s = .next { s with lPred := pred, stage := .poll } ∧
        pred.doneBit.toNat = g % 2 ^ 4 ∧ pred.errLsb.toNat = g / 2 ^ 4 % 2 ^ 4 ∧
        pred.errWidth.toNat = g / 2 ^ 8 % 2 ^ 5)

/-- 40_register_protocol.md R140-R142, R146: one poll step on the command's status address. The
error field comes before the done bit; the POLL_LIMIT-th read without either is the timeout. `e` is
err(v) of R133. That the timeout is decided in the step of the last read is the model's reading
(notes/assumptions/16.md). What the port carries at widths below the defaults is the model's choice
(notes/assumptions/3.md). -/
def Obligations.PollStepReadsStatusOnce : Prop :=
  ∀ (i : Instr) (a : RegAddr) (exit : Stage) (s : State),
    ((i = .poll a ∧ exit = .finish) ∨
      (isConfig i = true ∧ a = s.params.regmap.status ∧ exit = .clear)) →
    s.stage = .poll → s.pollcnt.toNat < s.params.pollLimit → s.params.pollLimit ≤ 65535 →
    s.lPred.errLsb.toNat + s.lPred.errWidth.toNat ≤ 16 →
    let v := s.draw.value
    let e := v.toNat / 2 ^ s.lPred.errLsb.toNat % 2 ^ s.lPred.errWidth.toNat
    let done := v.toNat.testBit s.lPred.doneBit.toNat
    let t := { s.popDraw with
      pollcnt := s.pollcnt + 1
      history := s.history ++ [if s.draw.fails then .readFail (s.params.portAddr a)
        else .read (s.params.portAddr a) v] }
    (s.draw.fails = true → exec i s = .next { t with term := .ioerr, stage := .finish }) ∧
    (s.draw.fails = false → e ≠ 0 →
      exec i s = .next { t with term := .hwerr (BitVec.ofNat 16 e), stage := exit }) ∧
    (s.draw.fails = false → e = 0 → done = true →
      exec i s = .next { t with term := .done, stage := exit }) ∧
    (s.draw.fails = false → e = 0 → done = false → s.pollcnt.toNat + 1 = s.params.pollLimit →
      exec i s = .next { t with term := .timeout, stage := exit }) ∧
    (s.draw.fails = false → e = 0 → done = false → s.pollcnt.toNat + 1 < s.params.pollLimit →
      exec i s = .next t)

/-- 40_register_protocol.md R143, 10_state.md R24: the CLEAR step writes the base word to CTRL, and
its failure sets CLR_FAIL and leaves the outcome. What the port carries at widths below the defaults
is the model's choice (notes/assumptions/3.md). -/
def Obligations.ClearStepIsBestEffort : Prop :=
  ∀ (i : Instr) (s : State), isConfig i = true → s.stage = .clear →
    let ctrl := s.params.portAddr s.params.regmap.ctrl
    let base := s.params.portData s.lBase
    (s.draw.fails = false → exec i s = .next { s.popDraw with
      history := s.history ++ [.write ctrl base], stage := .finish }) ∧
    (s.draw.fails = true → ∃ sub : List Event, sub.Sublist [Event.write ctrl base] ∧
      exec i s = .next { s.popDraw with
        history := s.history ++ sub ++ [.batchFail 1]
        stage := .finish
        stat := { s.stat with clrFail := true } })

/-- 40_register_protocol.md R144, R151, R152, 41_pll_synthesizer.md R193, 42_phase.md R228: the FINISH
step maps the outcome to the result; a configuration command writes CTRL_SHADOW whatever the outcome
is. -/
def Obligations.FinishStepReportsTheOutcome : Prop :=
  ∀ (i : Instr) (s : State), hasStage i .finish = true → s.stage = .finish →
    let t := { s with ctrlShadow := if isConfig i then s.lBase else s.ctrlShadow }
    (s.term = .done → exec i s = .next (t.finish .ok .none)) ∧
    (s.term = .timeout → exec i s = .next (t.finish .timeout .none)) ∧
    (∀ e, s.term = .hwerr e → exec i s =
      .next ({ t with stat := { s.stat with errcode := e } }.finish .hardwareError .none)) ∧
    (s.term = .ioerr → exec i s = .next (t.finish .ioError .none))

/-- 40_register_protocol.md R130, R146: a configuration sequence whose batch succeeds, whose first
status read is done without an error, and whose clear succeeds, ends OK in four steps, having
written its batch, read STATUS once and cleared the start bit, in that order. What the port carries
at widths below the defaults is the model's choice (notes/assumptions/3.md). That the idle state at
the end keeps the sequencer's locals (stage FINISH, outcome DONE, batch list, base word, predicate)
is the model's choice (notes/assumptions/26.md). -/
def Obligations.ConfigurationSequenceSucceeds : Prop :=
  ∀ (i : Instr) (s : State) (d1 d2 d3 : Draw) (rest : List Draw), isConfig i = true →
    decode s.cmd = .instr i → s.seq = .exec → s.stage = .batch → s.inputs = [] →
    s.params.busyPollCap = true → 1 ≤ s.params.pollLimit → s.pollcnt = 0 →
    s.draws = d1 :: d2 :: d3 :: rest → d1.fails = false → d2.fails = false → d3.fails = false →
    let v := s.params.portData d2.value
    s.lPred.err v = 0 → s.lPred.done v = true →
    core.run 4 s = .next { s with
      draws := rest
      drawCount := s.drawCount + 3
      pollcnt := 1
      term := .done
      stage := .finish
      ctrlShadow := s.lBase
      stat := { s.stat with busy := false, result := .ok, detail := .none }
      seq := .idle
      history := s.history ++ (s.params.portList s.lBatch).map (fun p => .write p.1 p.2) ++
        [.read (s.params.portAddr s.params.regmap.status) v,
          .write (s.params.portAddr s.params.regmap.ctrl) (s.params.portData s.lBase)] }

/-! ### PLL_CONFIG -/

/-- 00_scope.md R10: `rnd` is the nearest integer, an exact half rounded up. -/
def Obligations.RoundIsNearestHalfUp : Prop :=
  ∀ a b : Nat, 0 < b →
    (rnd a b : Rat) - 1 / 2 ≤ (a : Rat) / b ∧ (a : Rat) / b < (rnd a b : Rat) + 1 / 2

/-- 00_scope.md R12, 20_memory.md R84: the two half-counters of a divider value. -/
def Obligations.SplitHoldsHalfCounters : Prop :=
  ∀ n : Nat, n ≤ 510 →
    (splitHalves n).toNat = 256 * ((n + 1) / 2) + n / 2 ∧ (n + 1) / 2 + n / 2 = n

/-- 41_pll_synthesizer.md R171-R173: the checks before the search, in order, each ending the command
in its DECODE step. FIN and FOUT are the operands' low F_WIDTH bits, which is the model's choice
where F_WIDTH is below 32 (notes/assumptions/3.md). -/
def Obligations.PllConfigChecksItsArguments : Prop :=
  ∀ (pll nout : Nat) (s : State), s.stage = .decode → nout ≤ 16 →
    (s.params.pllCount ≤ pll →
      exec (.pllConfig pll nout) s = .next (s.finish .invalidArgument .pllIndex)) ∧
    (pll < s.params.pllCount → s.finHz < s.params.fFloor →
      exec (.pllConfig pll nout) s = .next (s.finish .invalidArgument .finLow)) ∧
    (pll < s.params.pllCount → s.params.fFloor ≤ s.finHz →
      ∀ j : Fin 16, j.val < nout → (∀ i : Fin 16, i < j → EntryOk s i) →
        (((s.entry j).byp = false ∧ (s.entry j).freq < s.params.fFloor) →
          exec (.pllConfig pll nout) s = .next (s.finish .invalidArgument .foutLow)) ∧
        (¬ ((s.entry j).byp = false ∧ (s.entry j).freq < s.params.fFloor) →
          (∃ i : Fin 16, i < j ∧ (s.entry i).idx = (s.entry j).idx) →
          exec (.pllConfig pll nout) s = .next (s.finish .invalidArgument .dupIndex)))

/-- 41_pll_synthesizer.md R181: SearchNM returns the pair its loop describes, and only that pair. -/
def Obligations.SearchReturnsTheLoopPair : Prop :=
  ∀ (p : Params) (fin v n m : Nat), p.Ok → 0 < fin →
    (IsSearchPair p fin v n m ↔ n = searchN p fin v ∧ m = searchM p fin v)

/-- 41_pll_synthesizer.md R177, R185-R187: how the computation fails once the arguments pass, each
in the DECODE step with nothing but STAT written. FIN and FOUT are the operands' low F_WIDTH bits,
which is the model's choice where F_WIDTH is below 32 (notes/assumptions/3.md). -/
def Obligations.PllConfigRejectsWhatItCannotMake : Prop :=
  ∀ (pll nout : Nat) (s : State), s.params.Ok → s.stage = .decode → PllArgsOk s pll nout →
    ((¬ ∃ v, IsCandidate s nout v) →
      exec (.pllConfig pll nout) s = .next (s.finish .invalidArgument .noCandidate)) ∧
    ((∃ v, IsCandidate s nout v) → (¬ ∃ v n m, IsSelected s nout v n m) →
      exec (.pllConfig pll nout) s = .next (s.finish .invalidArgument .noValidNm)) ∧
    (∀ v n m, IsSelected s nout v n m →
      (s.finHz * m < s.params.vcoMin * n ∨ s.params.vcoMax * n < s.finHz * m) →
      exec (.pllConfig pll nout) s = .next (s.finish .invalidArgument .fvcoRange)) ∧
    (∀ v n m, IsSelected s nout v n m →
      ¬ (s.finHz * m < s.params.vcoMin * n ∨ s.params.vcoMax * n < s.finHz * m) →
      (∃ j : Fin 16, j.val < nout ∧ dividerAt s n m j = 0) →
      exec (.pllConfig pll nout) s = .next (s.finish .invalidArgument .cZero))

/-- 41_pll_synthesizer.md R174-R191: where the arguments pass, a pair is selected, Fvco is in range
and no divider is 0, the DECODE step writes exactly the results and the batch the rules give, and
moves to BATCH. The predicate kept as a local is the model's (notes/assumptions/9.md). FIN and FOUT
are the operands' low F_WIDTH bits, which is the model's choice where F_WIDTH is below 32
(notes/assumptions/3.md). -/
def Obligations.PllConfigCommitsTheSelectedPair : Prop :=
  ∀ (pll nout v n m : Nat) (s : State), s.params.Ok → s.stage = .decode → PllArgsOk s pll nout →
    IsSelected s nout v n m →
    s.params.vcoMin * n ≤ s.finHz * m → s.finHz * m ≤ s.params.vcoMax * n →
    (∀ j : Fin 16, j.val < nout → dividerAt s n m j ≠ 0) →
    ∃ (t : State) (cs : List (RegAddr × RegData)) (mnob lo hi : RegData) (base : BitVec 16),
      exec (.pllConfig pll nout) s = .next t ∧
      t = { s with
        resNm := ⟨BitVec.ofNat 8 n, BitVec.ofNat 8 m, BitVec.ofNat 5 (scoreOf s nout v)⟩
        resC := t.resC
        lBatch := [(s.params.regmap.mnOddByp, mnob), (s.params.regmap.ncnt, splitHalves n),
            (s.params.regmap.mcnt, splitHalves m)] ++ cs ++
          [(s.params.regmap.cenLo, lo), (s.params.regmap.cenHi, hi),
            (s.params.regmap.ctrl, base ||| 1)]
        lBase := base
        lPred := ⟨0, 7, 9⟩
        stage := .batch } ∧
      -- RES_C (R188)
      (∀ j : Fin 16, j.val < nout →
        t.resC[(s.entry j).idx] = BitVec.ofNat 9 (dividerAt s n m j)) ∧
      (∀ i : Fin 16, (∀ j : Fin 16, j.val < nout → (s.entry j).idx ≠ i) →
        t.resC[i] = s.resC[i]) ∧
      -- the C registers, in list order (R189, R191)
      cs.length = nout ∧
      (∀ j : Fin 16, j.val < nout → cs[j.val]? =
        some (s.params.regmap.c[(s.entry j).idx], splitHalves (dividerAt s n m j))) ∧
      -- MN_ODD_BYP (R189)
      mnob.toNat = (if n = 1 then 1 else 0) + 2 * (n % 2) + 4 * (if m = 1 then 1 else 0) +
        8 * (m % 2) ∧
      -- CEN_LO and CEN_HI (R189)
      (∀ i : Fin 8, ∀ h : Bool,
        let reg := if h then hi else lo
        let out := i.val + (if h then 8 else 0)
        (∀ j : Fin 16, j.val < nout → (s.entry j).idx.val = out →
          reg.getLsbD (2 * i.val) = ((s.entry j).byp || decide (dividerAt s n m j = 1)) ∧
          reg.getLsbD (2 * i.val + 1) = decide (dividerAt s n m j % 2 = 1)) ∧
        ((∀ j : Fin 16, j.val < nout → (s.entry j).idx.val ≠ out) →
          reg.getLsbD (2 * i.val) = true ∧ reg.getLsbD (2 * i.val + 1) = false)) ∧
      -- the control base word (R190)
      base.toNat = (s.ctrlShadow.toNat / 2 ^ 8) * 2 ^ 8 + pll * 2 ^ 3 +
        4 * (s.ctrlShadow.getLsbD 2).toNat

/-- 41_pll_synthesizer.md R194: with the spec's parameters, a PLL_CONFIG that reaches BATCH reports N and
M in 1..255, an Fvco in [600 MHz, 1300 MHz], and dividers in 1..260. -/
def Obligations.PllConfigReachingBatchIsInRange : Prop :=
  ∀ (pll nout : Nat) (s t : State), { s.params with hostBase := 0 } = Config.defaults →
    s.stage = .decode → 1 ≤ nout → nout ≤ 16 →
    exec (.pllConfig pll nout) s = .next t → t.stage = .batch →
    let n := t.resNm.n.toNat
    let m := t.resNm.m.toNat
    1 ≤ n ∧ n ≤ 255 ∧ 1 ≤ m ∧ m ≤ 255 ∧
    600000000 * n ≤ s.finHz * m ∧ s.finHz * m ≤ 1300000000 * n ∧
    (∀ j : Fin 16, j.val < nout →
      1 ≤ t.resC[(s.entry j).idx].toNat ∧ t.resC[(s.entry j).idx].toNat ≤ 260)

/-! ### The phase commands -/

/-- 42_phase.md R222: the checks of the phase commands, in order. -/
def Obligations.PhaseCommandsCheckTheirArguments : Prop :=
  ∀ (pll : Nat) (o : Fin 16) (s : State), s.stage = .decode →
    (s.params.pllCount ≤ pll →
      exec (.phaseFixed pll o) s = .next (s.finish .invalidArgument .pllIndex) ∧
      exec (.phaseSearch pll o) s = .next (s.finish .invalidArgument .pllIndex)) ∧
    (pll < s.params.pllCount → s.resC[o] = 0 →
      exec (.phaseFixed pll o) s = .next (s.finish .invalidArgument .notConfigured) ∧
      exec (.phaseSearch pll o) s = .next (s.finish .invalidArgument .notConfigured))

/-- 42_phase.md R224-R226, R233: PHASE_FIXED's DECODE step, the step count being the rational
p * C / 45000 + PHASE_BIAS truncated toward zero. The step count and predicate kept as locals are the
model's (notes/assumptions/9.md). -/
def Obligations.PhaseFixedBuildsItsBatch : Prop :=
  ∀ (pll : Nat) (o : Fin 16) (s : State), s.params.Ok → s.stage = .decode →
    pll < s.params.pllCount → s.resC[o] ≠ 0 →
    let x : Rat := (s.phaseMdeg.toInt : Rat) * (s.resC[o].toNat : Rat) / 45000 +
      (s.params.phaseBiasNum : Rat) / (s.params.phaseBiasDen : Rat)
    let steps : Int := if 0 ≤ x then ⌊x⌋ else ⌈x⌉
    let updn : Bool := 0 ≤ steps
    let mag := BitVec.ofNat 16 steps.natAbs
    (s.params.phaseStepsMax < steps.natAbs →
      exec (.phaseFixed pll o) s = .next (s.finish .invalidArgument .stepsRange)) ∧
    (steps.natAbs ≤ s.params.phaseStepsMax →
      ∃ base : BitVec 16,
        exec (.phaseFixed pll o) s = .next { s with
          resSteps := ⟨mag, updn⟩
          lSteps := steps
          lBatch := [(s.params.regmap.ctrl, base), (s.params.regmap.phsteps, mag),
            (s.params.regmap.ctrl, base ||| 2)]
          lBase := base
          lPred := ⟨0, 7, 9⟩
          stage := .batch } ∧
        base.toNat = 2 ^ 15 * (s.ctrlShadow.getLsbD 15).toNat + 2 ^ 13 * updn.toNat +
          2 ^ 8 * (o.val + s.params.cntIndOffset) + 2 ^ 3 * pll +
          2 ^ 2 * (s.ctrlShadow.getLsbD 2).toNat)

/-- 42_phase.md R229-R231, R233: PHASE_SEARCH's DECODE step, with 8 * C - 1 steps, direction and mode
1. The step count and predicate kept as locals are the model's (notes/assumptions/9.md). -/
def Obligations.PhaseSearchBuildsItsBatch : Prop :=
  ∀ (pll : Nat) (o : Fin 16) (s : State), s.params.Ok → s.stage = .decode →
    pll < s.params.pllCount → s.resC[o] ≠ 0 →
    ∃ (base mag : BitVec 16),
      exec (.phaseSearch pll o) s = .next { s with
        resSteps := ⟨mag, true⟩
        lSteps := 8 * s.resC[o].toNat - 1
        lBatch := [(s.params.regmap.ctrl, base), (s.params.regmap.phsteps, mag),
          (s.params.regmap.ctrl, base ||| 2)]
        lBase := base
        lPred := ⟨2, 3, 1⟩
        stage := .batch } ∧
      mag.toNat + 1 = 8 * s.resC[o].toNat ∧
      base.toNat = 2 ^ 15 * (s.ctrlShadow.getLsbD 15).toNat + 2 ^ 14 + 2 ^ 13 +
        2 ^ 8 * (o.val + s.params.cntIndOffset) + 2 ^ 3 * pll +
        2 ^ 2 * (s.ctrlShadow.getLsbD 2).toNat

/-! ### The codec -/

/-- 43_sample_codec.md R252: more than SAMPLE_ENTRIES entries are rejected before any RAM access, and no
sample is no access at all, for all four commands. -/
def Obligations.CodecChecksItsCapacity : Prop :=
  ∀ (nsamp : Nat) (mimo : Bool) (s : State),
    ∀ i ∈ [Instr.pack12 nsamp mimo, .unpack12 nsamp mimo, .pack16 nsamp mimo, .unpack16 nsamp mimo],
      (s.params.sampleEntries < channels mimo * nsamp →
        exec i s = .next (s.finish .invalidArgument .countRange)) ∧
      (nsamp = 0 → exec i s = .next (s.finish .ok .none))

/-- 43_sample_codec.md R253, R255: PACK12 writes the 3-byte record of each entry, and no other byte. -/
def Obligations.Pack12WritesCompressedRecords : Prop :=
  ∀ (nsamp : Nat) (mimo : Bool) (s : State),
    let n := channels mimo * nsamp
    s.params.Ok → n ≤ s.params.sampleEntries → SramWritten s n →
    ∃ t, exec (.pack12 nsamp mimo) s = .next t ∧ t = { s with mem := t.mem }.finish .ok .none ∧
      (∀ e x, e < n → s.mem.readWord (0x1000 + 4 * e) = some x →
        ∃ b0 b1 b2 : Byte,
          t.mem.read (0x2000 + 3 * e) = some b0 ∧ t.mem.read (0x2000 + 3 * e + 1) = some b1 ∧
          t.mem.read (0x2000 + 3 * e + 2) = some b2 ∧
          let i := x.toNat % 2 ^ 16
          let q := x.toNat / 2 ^ 16
          b0.toNat = i % 2 ^ 8 ∧ b1.toNat = i / 2 ^ 8 % 2 ^ 4 + 2 ^ 4 * (q % 2 ^ 4) ∧
          b2.toNat = q / 2 ^ 4 % 2 ^ 8) ∧
      (∀ a, (a < 0x2000 ∨ 0x2000 + 3 * n ≤ a) → t.mem.read a = s.mem.read a)

/-- 43_sample_codec.md R254, R256: UNPACK12 writes the sign-extended pair of each record, and no other
byte. -/
def Obligations.Unpack12WritesSignExtendedPairs : Prop :=
  ∀ (nsamp : Nat) (mimo : Bool) (s : State),
    let n := channels mimo * nsamp
    s.params.Ok → n ≤ s.params.sampleEntries → WramWritten s (3 * n) →
    ∃ t, exec (.unpack12 nsamp mimo) s = .next t ∧ t = { s with mem := t.mem }.finish .ok .none ∧
      (∀ e b0 b1 b2, e < n → s.mem.read (0x2000 + 3 * e) = some b0 →
        s.mem.read (0x2000 + 3 * e + 1) = some b1 → s.mem.read (0x2000 + 3 * e + 2) = some b2 →
        ∃ x : Word, t.mem.readWord (0x1000 + 4 * e) = some x ∧
          (x.extractLsb' 0 16).toInt =
            Int.bmod (b0.toNat + 2 ^ 8 * (b1.toNat % 2 ^ 4) : Nat) (2 ^ 12) ∧
          (x.extractLsb' 16 16).toInt =
            Int.bmod (b1.toNat / 2 ^ 4 + 2 ^ 4 * b2.toNat : Nat) (2 ^ 12)) ∧
      (∀ a, (a < 0x1000 ∨ 0x1000 + 4 * n ≤ a) → t.mem.read a = s.mem.read a)

/-- 43_sample_codec.md R257, R259: PACK16 writes the I and Q wire words of each entry, low byte first,
bits 3:0 zero, and no other byte. -/
def Obligations.Pack16WritesWireWords : Prop :=
  ∀ (nsamp : Nat) (mimo : Bool) (s : State),
    let n := channels mimo * nsamp
    s.params.Ok → n ≤ s.params.sampleEntries → SramWritten s n →
    ∃ t, exec (.pack16 nsamp mimo) s = .next t ∧ t = { s with mem := t.mem }.finish .ok .none ∧
      (∀ e x, e < n → s.mem.readWord (0x1000 + 4 * e) = some x →
        ∃ y : Word, t.mem.readWord (0x2000 + 4 * e) = some y ∧
          y.toNat % 2 ^ 16 = 2 ^ 4 * (x.toNat % 2 ^ 12) ∧
          y.toNat / 2 ^ 16 = 2 ^ 4 * (x.toNat / 2 ^ 16 % 2 ^ 12)) ∧
      (∀ a, (a < 0x2000 ∨ 0x2000 + 4 * n ≤ a) → t.mem.read a = s.mem.read a)

/-- 43_sample_codec.md R258, R259: UNPACK16 writes each wire word's bits 15:4 sign-extended, ignores
bits 3:0, and writes no other byte. -/
def Obligations.Unpack16IgnoresLowBits : Prop :=
  ∀ (nsamp : Nat) (mimo : Bool) (s : State),
    let n := channels mimo * nsamp
    s.params.Ok → n ≤ s.params.sampleEntries → WramWritten s (4 * n) →
    ∃ t, exec (.unpack16 nsamp mimo) s = .next t ∧ t = { s with mem := t.mem }.finish .ok .none ∧
      (∀ e y, e < n → s.mem.readWord (0x2000 + 4 * e) = some y →
        ∃ x : Word, t.mem.readWord (0x1000 + 4 * e) = some x ∧
          (x.extractLsb' 0 16).toInt = (y.extractLsb' 0 16).toInt / 2 ^ 4 ∧
          (x.extractLsb' 16 16).toInt = (y.extractLsb' 16 16).toInt / 2 ^ 4) ∧
      (∀ a, (a < 0x1000 ∨ 0x1000 + 4 * n ≤ a) → t.mem.read a = s.mem.read a)

/-- 10_state.md R49, 43_sample_codec.md R255-R258, 60_exceptions.md R293: within capacity, a codec command
stops with UnwrittenRead exactly when a location it reads has not been written. -/
def Obligations.CodecStopsOnlyOnUnwrittenReads : Prop :=
  ∀ (nsamp : Nat) (mimo : Bool) (s : State),
    let n := channels mimo * nsamp
    s.params.Ok → n ≤ s.params.sampleEntries →
    (exec (.pack12 nsamp mimo) s = .fault .unwrittenRead ↔ ¬ SramWritten s n) ∧
    (exec (.pack16 nsamp mimo) s = .fault .unwrittenRead ↔ ¬ SramWritten s n) ∧
    (exec (.unpack12 nsamp mimo) s = .fault .unwrittenRead ↔ ¬ WramWritten s (3 * n)) ∧
    (exec (.unpack16 nsamp mimo) s = .fault .unwrittenRead ↔ ¬ WramWritten s (4 * n))

/-- 43_sample_codec.md R260: pack then unpack restores every SRAM entry whose words are in the 12-bit
range, in both layouts; the unpack may run in any state with the pack's RAM contents. -/
def Obligations.PackThenUnpackRestoresSamples : Prop :=
  ∀ (nsamp : Nat) (mimo : Bool) (s : State),
    let n := channels mimo * nsamp
    s.params.Ok → n ≤ s.params.sampleEntries →
    (∀ e, e < n → ∃ x, s.mem.readWord (0x1000 + 4 * e) = some x ∧ TwelveBit x) →
    ∀ p ∈ [(Instr.pack12 nsamp mimo, Instr.unpack12 nsamp mimo),
        (Instr.pack16 nsamp mimo, Instr.unpack16 nsamp mimo)],
      ∃ t, exec p.1 s = .next t ∧
        ∀ t' : State, t'.params = t.params → t'.mem = t.mem → ∃ u, exec p.2 t' = .next u ∧
          ∀ a, a < 0x2000 → u.mem.read a = s.mem.read a

/-- 43_sample_codec.md R260: unpack then pack restores every byte of the compressed records. -/
def Obligations.UnpackThenPackRestoresBytes : Prop :=
  ∀ (nsamp : Nat) (mimo : Bool) (s : State),
    let n := channels mimo * nsamp
    s.params.Ok → n ≤ s.params.sampleEntries → WramWritten s (3 * n) →
      ∃ t, exec (.unpack12 nsamp mimo) s = .next t ∧
        ∀ t' : State, t'.params = t.params → t'.mem = t.mem → ∃ u, exec (.pack12 nsamp mimo) t' = .next u ∧
          ∀ a, 0x2000 ≤ a → u.mem.read a = s.mem.read a

/-- 43_sample_codec.md R261: a host word outside the 12-bit range comes back as its bits 11:0
sign-extended, in both layouts. -/
def Obligations.OutOfRangeSamplesLoseHighBits : Prop :=
  ∀ x : Word,
    ∀ y ∈ [entryOfBytes (compress x), entryOfBytes (expand x)],
      ∃ z : Word, y = some z ∧
        (z.extractLsb' 0 16).toInt = Int.bmod (x.toNat % 2 ^ 16 : Nat) (2 ^ 12) ∧
        (z.extractLsb' 16 16).toInt = Int.bmod (x.toNat / 2 ^ 16 : Nat) (2 ^ 12)

/-! ### The whole machine -/

/-- The invariant of Safety.lean (10_state.md R23, R25, R27, R45, 40_register_protocol.md R140-R143,
20_memory.md R63) is kept by every step, from every state that has it. -/
def Obligations.EveryStepKeepsTheInvariant : Prop :=
  ∀ s t : State, s.params.Ok → Inv s → step s = .next t → Inv t

/-- With the spec's parameters the reported dividers stay in range (41_pll_synthesizer.md R187, R194,
10_state.md R33, R36). -/
def Obligations.EveryStepKeepsReportsInRange : Prop :=
  ∀ s t : State, { s.params with hostBase := 0 } = Config.defaults → ReportsInRange s →
    step s = .next t → ReportsInRange t

/-- The invariants hold after reset, and the spec's parameters are the ones the rules are written
for. -/
def Obligations.InvariantsHoldAtReset : Prop :=
  Inv State.reset ∧ ReportsInRange State.reset ∧ Config.defaults.Ok

/-- 70_reset_and_hazards.md R331: an accepted command ends within POLL_LIMIT + 4 sequencer steps; only a
codec command that reads unwritten RAM stops instead. It rests on every transaction being answered
(notes/assumptions/18.md). -/
def Obligations.EveryCommandEnds : Prop :=
  ∀ s : State, s.params.Ok → Inv s → s.seq = .exec → s.inputs = [] →
    ∃ k, k ≤ s.params.pollLimit + 4 ∧
      ((∃ t, core.run k s = .next t ∧ t.seq = .idle ∧ t.stat.busy = false) ∨
        (core.run k s = .fault .unwrittenRead ∧ ∃ i, decode s.cmd = .instr i ∧ isCodec i = true))

/-- 20_memory.md R78: the event history is appended to by every step but a reset, and never read. -/
def Obligations.HistoryIsAppendedAndNeverRead : Prop :=
  ∀ s t : State, (∀ b, s.inputs.head? ≠ some (.reset b)) → step s = .next t →
    ∃ ev, t.history = s.history ++ ev ∧
      ∀ h, step { s with history := h } = .next { t with history := h ++ ev }

/-- 10_state.md R29, R32-R36: outside a reset, RDATA is written only by REG_READ, RES_NM and RES_C only
by PLL_CONFIG, RES_STEPS only by the phase commands, POLLCNT only by acceptance (to 0) and by a status
read (up by 1), and CTRL_SHADOW only by a configuration command's FINISH step or by the host while
BUSY = 0. -/
def Obligations.ResultRegistersHaveOneWriter : Prop :=
  ∀ s t : State, (∀ b, s.inputs.head? ≠ some (.reset b)) → step s = .next t →
    (t.rdata ≠ s.rdata → s.seq = .exec ∧ ∃ a, decode s.cmd = .instr (.regRead a)) ∧
    ((t.resNm ≠ s.resNm ∨ t.resC ≠ s.resC) →
      s.seq = .exec ∧ s.stage = .decode ∧ ∃ pll nout, decode s.cmd = .instr (.pllConfig pll nout)) ∧
    (t.resSteps ≠ s.resSteps → s.seq = .exec ∧ s.stage = .decode ∧ ∃ pll o,
      decode s.cmd = .instr (.phaseFixed pll o) ∨ decode s.cmd = .instr (.phaseSearch pll o)) ∧
    (t.pollcnt ≠ s.pollcnt →
      (t.pollcnt = 0 ∧ s.stat.busy = false ∧ ∃ w, s.inputs.head? =
        some (.host ⟨s.params.hostBase, 4, .write w⟩)) ∨
      (t.pollcnt = s.pollcnt + 1 ∧ s.seq = .exec ∧ s.stage = .poll ∧
        (∃ i, decode s.cmd = .instr i ∧ hasStage i .poll = true) ∧
        ∃ a, t.history = s.history ++ [if s.draw.fails then .readFail a else .read a s.draw.value])) ∧
    (t.ctrlShadow ≠ s.ctrlShadow →
      (s.seq = .exec ∧ s.stage = .finish ∧ ∃ i, decode s.cmd = .instr i ∧ isConfig i = true) ∨
      (s.stat.busy = false ∧ ∃ w, s.inputs.head? =
        some (.host ⟨s.params.hostBase + 0x0C, 4, .write w⟩)))

/-- 60_exceptions.md R286: a running command that ends with INVALID_ARGUMENT or ILLEGAL_COMMAND ends in
its DECODE step, the first step after acceptance, which issues no transport transaction and writes
only STAT. -/
def Obligations.RejectionsWriteOnlyStat : Prop :=
  ∀ s u t : State, Inv s → s.seq = .exec → ((s.inputs = [] ∧ u = s) ∨
      ∃ rest, s.inputs = .turn :: rest ∧ u = { s with inputs := rest }) → step s = .next t →
    (t.stat.result = .invalidArgument ∨ t.stat.result = .illegalCommand) →
    s.stage = .decode ∧ t = u.finish t.stat.result t.stat.detail ∧ t.stat.detail ≠ .none

/-- 70_reset_and_hazards.md R320: in every batch the block builds, the pair that arms a start bit is the
last, and no pair before it writes a start bit to CTRL. -/
def Obligations.StartBitIsArmedLast : Prop :=
  ∀ (i : Instr) (s t : State), s.params.Ok → isConfig i = true → s.stage = .decode →
    exec i s = .next t → t.stage = .batch →
    ∃ (init : List (RegAddr × RegData)) (start : RegData),
      t.lBatch = init ++ [(s.params.regmap.ctrl, start)] ∧
      (start &&& 3 = 1 ∨ start &&& 3 = 2) ∧
      (∀ p ∈ init, p.1 = s.params.regmap.ctrl → p.2 &&& 3 = 0) ∧
      t.lBase = start &&& ~~~3

/-- 10_state.md R26: OVR stays 1 until a host write of STAT with bit 4 set, or reset. -/
def Obligations.OvrIsSticky : Prop :=
  ∀ s t : State, s.stat.ovr = true → step s = .next t → t.stat.ovr = false →
    (∃ b, s.inputs.head? = some (.reset b)) ∨
    (∃ w, w.getLsbD 4 = true ∧
      s.inputs.head? = some (.host ⟨s.params.hostBase + 4, 4, .write w⟩))

/-- 00_scope.md R7: the parameters are fixed: no step changes them. That they stand in State is
the model's choice (notes/assumptions/3.md). -/
def Obligations.ParametersNeverChange : Prop :=
  ∀ s t : State, step s = .next t → t.params = s.params
end

