-- ==== Sys2Proof/Laws/State.lean ====
section
/-! SUPPORT. One lemma per field of State per shared update, each true by rfl, so that no later proof
unfolds a record update. -/

namespace Sys2Proof.Machine

/-! ### the use of a draw -/

@[simp] theorem State.popDraw_params (s : State) : (s.popDraw).params = s.params := rfl
@[simp] theorem State.popDraw_cmd (s : State) : (s.popDraw).cmd = s.cmd := rfl
@[simp] theorem State.popDraw_stat (s : State) : (s.popDraw).stat = s.stat := rfl
@[simp] theorem State.popDraw_fin (s : State) : (s.popDraw).fin = s.fin := rfl
@[simp] theorem State.popDraw_ctrlShadow (s : State) : (s.popDraw).ctrlShadow = s.ctrlShadow := rfl
@[simp] theorem State.popDraw_phaseMdeg (s : State) : (s.popDraw).phaseMdeg = s.phaseMdeg := rfl
@[simp] theorem State.popDraw_argPoll (s : State) : (s.popDraw).argPoll = s.argPoll := rfl
@[simp] theorem State.popDraw_rdata (s : State) : (s.popDraw).rdata = s.rdata := rfl
@[simp] theorem State.popDraw_resNm (s : State) : (s.popDraw).resNm = s.resNm := rfl
@[simp] theorem State.popDraw_pollcnt (s : State) : (s.popDraw).pollcnt = s.pollcnt := rfl
@[simp] theorem State.popDraw_resSteps (s : State) : (s.popDraw).resSteps = s.resSteps := rfl
@[simp] theorem State.popDraw_resC (s : State) : (s.popDraw).resC = s.resC := rfl
@[simp] theorem State.popDraw_outFreq (s : State) : (s.popDraw).outFreq = s.outFreq := rfl
@[simp] theorem State.popDraw_outCfg (s : State) : (s.popDraw).outCfg = s.outCfg := rfl
@[simp] theorem State.popDraw_batch (s : State) : (s.popDraw).batch = s.batch := rfl
@[simp] theorem State.popDraw_mem (s : State) : (s.popDraw).mem = s.mem := rfl
@[simp] theorem State.popDraw_seq (s : State) : (s.popDraw).seq = s.seq := rfl
@[simp] theorem State.popDraw_stage (s : State) : (s.popDraw).stage = s.stage := rfl
@[simp] theorem State.popDraw_term (s : State) : (s.popDraw).term = s.term := rfl
@[simp] theorem State.popDraw_lBatch (s : State) : (s.popDraw).lBatch = s.lBatch := rfl
@[simp] theorem State.popDraw_lBase (s : State) : (s.popDraw).lBase = s.lBase := rfl
@[simp] theorem State.popDraw_lSteps (s : State) : (s.popDraw).lSteps = s.lSteps := rfl
@[simp] theorem State.popDraw_lPred (s : State) : (s.popDraw).lPred = s.lPred := rfl
@[simp] theorem State.popDraw_history (s : State) : (s.popDraw).history = s.history := rfl
@[simp] theorem State.popDraw_inputs (s : State) : (s.popDraw).inputs = s.inputs := rfl
@[simp] theorem State.popDraw_draws (s : State) : (s.popDraw).draws = s.draws.tail := rfl
@[simp] theorem State.popDraw_drawCount (s : State) : (s.popDraw).drawCount = s.drawCount + 1 := rfl
@[simp] theorem State.popDraw_hostReads (s : State) : (s.popDraw).hostReads = s.hostReads := rfl

/-! ### a transport read -/

@[simp] theorem State.tRead_params (s : State) (a : RegAddr) : (s.tRead a).params = s.params := rfl
@[simp] theorem State.tRead_cmd (s : State) (a : RegAddr) : (s.tRead a).cmd = s.cmd := rfl
@[simp] theorem State.tRead_stat (s : State) (a : RegAddr) : (s.tRead a).stat = s.stat := rfl
@[simp] theorem State.tRead_fin (s : State) (a : RegAddr) : (s.tRead a).fin = s.fin := rfl
@[simp] theorem State.tRead_ctrlShadow (s : State) (a : RegAddr) :
    (s.tRead a).ctrlShadow = s.ctrlShadow := rfl
@[simp] theorem State.tRead_phaseMdeg (s : State) (a : RegAddr) :
    (s.tRead a).phaseMdeg = s.phaseMdeg := rfl
@[simp] theorem State.tRead_argPoll (s : State) (a : RegAddr) :
    (s.tRead a).argPoll = s.argPoll := rfl
@[simp] theorem State.tRead_rdata (s : State) (a : RegAddr) : (s.tRead a).rdata = s.rdata := rfl
@[simp] theorem State.tRead_resNm (s : State) (a : RegAddr) : (s.tRead a).resNm = s.resNm := rfl
@[simp] theorem State.tRead_pollcnt (s : State) (a : RegAddr) :
    (s.tRead a).pollcnt = s.pollcnt := rfl
@[simp] theorem State.tRead_resSteps (s : State) (a : RegAddr) :
    (s.tRead a).resSteps = s.resSteps := rfl
@[simp] theorem State.tRead_resC (s : State) (a : RegAddr) : (s.tRead a).resC = s.resC := rfl
@[simp] theorem State.tRead_outFreq (s : State) (a : RegAddr) :
    (s.tRead a).outFreq = s.outFreq := rfl
@[simp] theorem State.tRead_outCfg (s : State) (a : RegAddr) : (s.tRead a).outCfg = s.outCfg := rfl
@[simp] theorem State.tRead_batch (s : State) (a : RegAddr) : (s.tRead a).batch = s.batch := rfl
@[simp] theorem State.tRead_mem (s : State) (a : RegAddr) : (s.tRead a).mem = s.mem := rfl
@[simp] theorem State.tRead_seq (s : State) (a : RegAddr) : (s.tRead a).seq = s.seq := rfl
@[simp] theorem State.tRead_stage (s : State) (a : RegAddr) : (s.tRead a).stage = s.stage := rfl
@[simp] theorem State.tRead_term (s : State) (a : RegAddr) : (s.tRead a).term = s.term := rfl
@[simp] theorem State.tRead_lBatch (s : State) (a : RegAddr) : (s.tRead a).lBatch = s.lBatch := rfl
@[simp] theorem State.tRead_lBase (s : State) (a : RegAddr) : (s.tRead a).lBase = s.lBase := rfl
@[simp] theorem State.tRead_lSteps (s : State) (a : RegAddr) : (s.tRead a).lSteps = s.lSteps := rfl
@[simp] theorem State.tRead_lPred (s : State) (a : RegAddr) : (s.tRead a).lPred = s.lPred := rfl
@[simp] theorem State.tRead_history (s : State) (a : RegAddr) :
    (s.tRead a).history = s.history ++ readEvents (s.params.portAddr a) s.draw := rfl
@[simp] theorem State.tRead_inputs (s : State) (a : RegAddr) : (s.tRead a).inputs = s.inputs := rfl
@[simp] theorem State.tRead_draws (s : State) (a : RegAddr) :
    (s.tRead a).draws = s.draws.tail := rfl
@[simp] theorem State.tRead_drawCount (s : State) (a : RegAddr) :
    (s.tRead a).drawCount = s.drawCount + 1 := rfl
@[simp] theorem State.tRead_hostReads (s : State) (a : RegAddr) :
    (s.tRead a).hostReads = s.hostReads := rfl

/-! ### a transport batch -/

@[simp] theorem State.tWrite_params (s : State) (l : List (RegAddr × RegData)) :
    (s.tWrite l).params = s.params := rfl
@[simp] theorem State.tWrite_cmd (s : State) (l : List (RegAddr × RegData)) :
    (s.tWrite l).cmd = s.cmd := rfl
@[simp] theorem State.tWrite_stat (s : State) (l : List (RegAddr × RegData)) :
    (s.tWrite l).stat = s.stat := rfl
@[simp] theorem State.tWrite_fin (s : State) (l : List (RegAddr × RegData)) :
    (s.tWrite l).fin = s.fin := rfl
@[simp] theorem State.tWrite_ctrlShadow (s : State) (l : List (RegAddr × RegData)) :
    (s.tWrite l).ctrlShadow = s.ctrlShadow := rfl
@[simp] theorem State.tWrite_phaseMdeg (s : State) (l : List (RegAddr × RegData)) :
    (s.tWrite l).phaseMdeg = s.phaseMdeg := rfl
@[simp] theorem State.tWrite_argPoll (s : State) (l : List (RegAddr × RegData)) :
    (s.tWrite l).argPoll = s.argPoll := rfl
@[simp] theorem State.tWrite_rdata (s : State) (l : List (RegAddr × RegData)) :
    (s.tWrite l).rdata = s.rdata := rfl
@[simp] theorem State.tWrite_resNm (s : State) (l : List (RegAddr × RegData)) :
    (s.tWrite l).resNm = s.resNm := rfl
@[simp] theorem State.tWrite_pollcnt (s : State) (l : List (RegAddr × RegData)) :
    (s.tWrite l).pollcnt = s.pollcnt := rfl
@[simp] theorem State.tWrite_resSteps (s : State) (l : List (RegAddr × RegData)) :
    (s.tWrite l).resSteps = s.resSteps := rfl
@[simp] theorem State.tWrite_resC (s : State) (l : List (RegAddr × RegData)) :
    (s.tWrite l).resC = s.resC := rfl
@[simp] theorem State.tWrite_outFreq (s : State) (l : List (RegAddr × RegData)) :
    (s.tWrite l).outFreq = s.outFreq := rfl
@[simp] theorem State.tWrite_outCfg (s : State) (l : List (RegAddr × RegData)) :
    (s.tWrite l).outCfg = s.outCfg := rfl
@[simp] theorem State.tWrite_batch (s : State) (l : List (RegAddr × RegData)) :
    (s.tWrite l).batch = s.batch := rfl
@[simp] theorem State.tWrite_mem (s : State) (l : List (RegAddr × RegData)) :
    (s.tWrite l).mem = s.mem := rfl
@[simp] theorem State.tWrite_seq (s : State) (l : List (RegAddr × RegData)) :
    (s.tWrite l).seq = s.seq := rfl
@[simp] theorem State.tWrite_stage (s : State) (l : List (RegAddr × RegData)) :
    (s.tWrite l).stage = s.stage := rfl
@[simp] theorem State.tWrite_term (s : State) (l : List (RegAddr × RegData)) :
    (s.tWrite l).term = s.term := rfl
@[simp] theorem State.tWrite_lBatch (s : State) (l : List (RegAddr × RegData)) :
    (s.tWrite l).lBatch = s.lBatch := rfl
@[simp] theorem State.tWrite_lBase (s : State) (l : List (RegAddr × RegData)) :
    (s.tWrite l).lBase = s.lBase := rfl
@[simp] theorem State.tWrite_lSteps (s : State) (l : List (RegAddr × RegData)) :
    (s.tWrite l).lSteps = s.lSteps := rfl
@[simp] theorem State.tWrite_lPred (s : State) (l : List (RegAddr × RegData)) :
    (s.tWrite l).lPred = s.lPred := rfl
@[simp] theorem State.tWrite_history (s : State) (l : List (RegAddr × RegData)) :
    (s.tWrite l).history = s.history ++ batchEvents (s.params.portList l) s.draw := rfl
@[simp] theorem State.tWrite_inputs (s : State) (l : List (RegAddr × RegData)) :
    (s.tWrite l).inputs = s.inputs := rfl
@[simp] theorem State.tWrite_draws (s : State) (l : List (RegAddr × RegData)) :
    (s.tWrite l).draws = s.draws.tail := rfl
@[simp] theorem State.tWrite_drawCount (s : State) (l : List (RegAddr × RegData)) :
    (s.tWrite l).drawCount = s.drawCount + 1 := rfl
@[simp] theorem State.tWrite_hostReads (s : State) (l : List (RegAddr × RegData)) :
    (s.tWrite l).hostReads = s.hostReads := rfl

/-! ### the acceptance of a command -/

@[simp] theorem State.accept_params (s : State) (w : Word) : (s.accept w).params = s.params := rfl
@[simp] theorem State.accept_cmd (s : State) (w : Word) : (s.accept w).cmd = w := rfl
@[simp] theorem State.accept_stat (s : State) (w : Word) : (s.accept w).stat = s.stat.accept := rfl
@[simp] theorem State.accept_fin (s : State) (w : Word) : (s.accept w).fin = s.fin := rfl
@[simp] theorem State.accept_ctrlShadow (s : State) (w : Word) :
    (s.accept w).ctrlShadow = s.ctrlShadow := rfl
@[simp] theorem State.accept_phaseMdeg (s : State) (w : Word) :
    (s.accept w).phaseMdeg = s.phaseMdeg := rfl
@[simp] theorem State.accept_argPoll (s : State) (w : Word) :
    (s.accept w).argPoll = s.argPoll := rfl
@[simp] theorem State.accept_rdata (s : State) (w : Word) : (s.accept w).rdata = s.rdata := rfl
@[simp] theorem State.accept_resNm (s : State) (w : Word) : (s.accept w).resNm = s.resNm := rfl
@[simp] theorem State.accept_pollcnt (s : State) (w : Word) : (s.accept w).pollcnt = 0 := rfl
@[simp] theorem State.accept_resSteps (s : State) (w : Word) :
    (s.accept w).resSteps = s.resSteps := rfl
@[simp] theorem State.accept_resC (s : State) (w : Word) : (s.accept w).resC = s.resC := rfl
@[simp] theorem State.accept_outFreq (s : State) (w : Word) :
    (s.accept w).outFreq = s.outFreq := rfl
@[simp] theorem State.accept_outCfg (s : State) (w : Word) : (s.accept w).outCfg = s.outCfg := rfl
@[simp] theorem State.accept_batch (s : State) (w : Word) : (s.accept w).batch = s.batch := rfl
@[simp] theorem State.accept_mem (s : State) (w : Word) : (s.accept w).mem = s.mem := rfl
@[simp] theorem State.accept_seq (s : State) (w : Word) : (s.accept w).seq = .exec := rfl
@[simp] theorem State.accept_stage (s : State) (w : Word) : (s.accept w).stage = .decode := rfl
@[simp] theorem State.accept_term (s : State) (w : Word) : (s.accept w).term = s.term := rfl
@[simp] theorem State.accept_lBatch (s : State) (w : Word) : (s.accept w).lBatch = s.lBatch := rfl
@[simp] theorem State.accept_lBase (s : State) (w : Word) : (s.accept w).lBase = s.lBase := rfl
@[simp] theorem State.accept_lSteps (s : State) (w : Word) : (s.accept w).lSteps = s.lSteps := rfl
@[simp] theorem State.accept_lPred (s : State) (w : Word) : (s.accept w).lPred = s.lPred := rfl
@[simp] theorem State.accept_history (s : State) (w : Word) :
    (s.accept w).history = s.history := rfl
@[simp] theorem State.accept_inputs (s : State) (w : Word) : (s.accept w).inputs = s.inputs := rfl
@[simp] theorem State.accept_draws (s : State) (w : Word) : (s.accept w).draws = s.draws := rfl
@[simp] theorem State.accept_drawCount (s : State) (w : Word) :
    (s.accept w).drawCount = s.drawCount := rfl
@[simp] theorem State.accept_hostReads (s : State) (w : Word) :
    (s.accept w).hostReads = s.hostReads := rfl

/-! ### `finish` -/

@[simp] theorem State.finish_params (s : State) (r : Result) (d : Detail) :
    (s.finish r d).params = s.params := rfl
@[simp] theorem State.finish_cmd (s : State) (r : Result) (d : Detail) :
    (s.finish r d).cmd = s.cmd := rfl
@[simp] theorem State.finish_stat (s : State) (r : Result) (d : Detail) :
    (s.finish r d).stat = s.stat.finish r d := rfl
@[simp] theorem State.finish_fin (s : State) (r : Result) (d : Detail) :
    (s.finish r d).fin = s.fin := rfl
@[simp] theorem State.finish_ctrlShadow (s : State) (r : Result) (d : Detail) :
    (s.finish r d).ctrlShadow = s.ctrlShadow := rfl
@[simp] theorem State.finish_phaseMdeg (s : State) (r : Result) (d : Detail) :
    (s.finish r d).phaseMdeg = s.phaseMdeg := rfl
@[simp] theorem State.finish_argPoll (s : State) (r : Result) (d : Detail) :
    (s.finish r d).argPoll = s.argPoll := rfl
@[simp] theorem State.finish_rdata (s : State) (r : Result) (d : Detail) :
    (s.finish r d).rdata = s.rdata := rfl
@[simp] theorem State.finish_resNm (s : State) (r : Result) (d : Detail) :
    (s.finish r d).resNm = s.resNm := rfl
@[simp] theorem State.finish_pollcnt (s : State) (r : Result) (d : Detail) :
    (s.finish r d).pollcnt = s.pollcnt := rfl
@[simp] theorem State.finish_resSteps (s : State) (r : Result) (d : Detail) :
    (s.finish r d).resSteps = s.resSteps := rfl
@[simp] theorem State.finish_resC (s : State) (r : Result) (d : Detail) :
    (s.finish r d).resC = s.resC := rfl
@[simp] theorem State.finish_outFreq (s : State) (r : Result) (d : Detail) :
    (s.finish r d).outFreq = s.outFreq := rfl
@[simp] theorem State.finish_outCfg (s : State) (r : Result) (d : Detail) :
    (s.finish r d).outCfg = s.outCfg := rfl
@[simp] theorem State.finish_batch (s : State) (r : Result) (d : Detail) :
    (s.finish r d).batch = s.batch := rfl
@[simp] theorem State.finish_mem (s : State) (r : Result) (d : Detail) :
    (s.finish r d).mem = s.mem := rfl
@[simp] theorem State.finish_seq (s : State) (r : Result) (d : Detail) :
    (s.finish r d).seq = .idle := rfl
@[simp] theorem State.finish_stage (s : State) (r : Result) (d : Detail) :
    (s.finish r d).stage = s.stage := rfl
@[simp] theorem State.finish_term (s : State) (r : Result) (d : Detail) :
    (s.finish r d).term = s.term := rfl
@[simp] theorem State.finish_lBatch (s : State) (r : Result) (d : Detail) :
    (s.finish r d).lBatch = s.lBatch := rfl
@[simp] theorem State.finish_lBase (s : State) (r : Result) (d : Detail) :
    (s.finish r d).lBase = s.lBase := rfl
@[simp] theorem State.finish_lSteps (s : State) (r : Result) (d : Detail) :
    (s.finish r d).lSteps = s.lSteps := rfl
@[simp] theorem State.finish_lPred (s : State) (r : Result) (d : Detail) :
    (s.finish r d).lPred = s.lPred := rfl
@[simp] theorem State.finish_history (s : State) (r : Result) (d : Detail) :
    (s.finish r d).history = s.history := rfl
@[simp] theorem State.finish_inputs (s : State) (r : Result) (d : Detail) :
    (s.finish r d).inputs = s.inputs := rfl
@[simp] theorem State.finish_draws (s : State) (r : Result) (d : Detail) :
    (s.finish r d).draws = s.draws := rfl
@[simp] theorem State.finish_drawCount (s : State) (r : Result) (d : Detail) :
    (s.finish r d).drawCount = s.drawCount := rfl
@[simp] theorem State.finish_hostReads (s : State) (r : Result) (d : Detail) :
    (s.finish r d).hostReads = s.hostReads := rfl

/-! ### the move to a stage with an outcome -/

@[simp] theorem State.leaveTo_params (s : State) (o : Term) (st : Stage) :
    (s.leaveTo o st).params = s.params := rfl
@[simp] theorem State.leaveTo_cmd (s : State) (o : Term) (st : Stage) :
    (s.leaveTo o st).cmd = s.cmd := rfl
@[simp] theorem State.leaveTo_stat (s : State) (o : Term) (st : Stage) :
    (s.leaveTo o st).stat = s.stat := rfl
@[simp] theorem State.leaveTo_fin (s : State) (o : Term) (st : Stage) :
    (s.leaveTo o st).fin = s.fin := rfl
@[simp] theorem State.leaveTo_ctrlShadow (s : State) (o : Term) (st : Stage) :
    (s.leaveTo o st).ctrlShadow = s.ctrlShadow := rfl
@[simp] theorem State.leaveTo_phaseMdeg (s : State) (o : Term) (st : Stage) :
    (s.leaveTo o st).phaseMdeg = s.phaseMdeg := rfl
@[simp] theorem State.leaveTo_argPoll (s : State) (o : Term) (st : Stage) :
    (s.leaveTo o st).argPoll = s.argPoll := rfl
@[simp] theorem State.leaveTo_rdata (s : State) (o : Term) (st : Stage) :
    (s.leaveTo o st).rdata = s.rdata := rfl
@[simp] theorem State.leaveTo_resNm (s : State) (o : Term) (st : Stage) :
    (s.leaveTo o st).resNm = s.resNm := rfl
@[simp] theorem State.leaveTo_pollcnt (s : State) (o : Term) (st : Stage) :
    (s.leaveTo o st).pollcnt = s.pollcnt := rfl
@[simp] theorem State.leaveTo_resSteps (s : State) (o : Term) (st : Stage) :
    (s.leaveTo o st).resSteps = s.resSteps := rfl
@[simp] theorem State.leaveTo_resC (s : State) (o : Term) (st : Stage) :
    (s.leaveTo o st).resC = s.resC := rfl
@[simp] theorem State.leaveTo_outFreq (s : State) (o : Term) (st : Stage) :
    (s.leaveTo o st).outFreq = s.outFreq := rfl
@[simp] theorem State.leaveTo_outCfg (s : State) (o : Term) (st : Stage) :
    (s.leaveTo o st).outCfg = s.outCfg := rfl
@[simp] theorem State.leaveTo_batch (s : State) (o : Term) (st : Stage) :
    (s.leaveTo o st).batch = s.batch := rfl
@[simp] theorem State.leaveTo_mem (s : State) (o : Term) (st : Stage) :
    (s.leaveTo o st).mem = s.mem := rfl
@[simp] theorem State.leaveTo_seq (s : State) (o : Term) (st : Stage) :
    (s.leaveTo o st).seq = s.seq := rfl
@[simp] theorem State.leaveTo_stage (s : State) (o : Term) (st : Stage) :
    (s.leaveTo o st).stage = st := rfl
@[simp] theorem State.leaveTo_term (s : State) (o : Term) (st : Stage) :
    (s.leaveTo o st).term = o := rfl
@[simp] theorem State.leaveTo_lBatch (s : State) (o : Term) (st : Stage) :
    (s.leaveTo o st).lBatch = s.lBatch := rfl
@[simp] theorem State.leaveTo_lBase (s : State) (o : Term) (st : Stage) :
    (s.leaveTo o st).lBase = s.lBase := rfl
@[simp] theorem State.leaveTo_lSteps (s : State) (o : Term) (st : Stage) :
    (s.leaveTo o st).lSteps = s.lSteps := rfl
@[simp] theorem State.leaveTo_lPred (s : State) (o : Term) (st : Stage) :
    (s.leaveTo o st).lPred = s.lPred := rfl
@[simp] theorem State.leaveTo_history (s : State) (o : Term) (st : Stage) :
    (s.leaveTo o st).history = s.history := rfl
@[simp] theorem State.leaveTo_inputs (s : State) (o : Term) (st : Stage) :
    (s.leaveTo o st).inputs = s.inputs := rfl
@[simp] theorem State.leaveTo_draws (s : State) (o : Term) (st : Stage) :
    (s.leaveTo o st).draws = s.draws := rfl
@[simp] theorem State.leaveTo_drawCount (s : State) (o : Term) (st : Stage) :
    (s.leaveTo o st).drawCount = s.drawCount := rfl
@[simp] theorem State.leaveTo_hostReads (s : State) (o : Term) (st : Stage) :
    (s.leaveTo o st).hostReads = s.hostReads := rfl

/-! ### the move to BATCH -/

@[simp] theorem State.toBatch_params (s : State) (l : List (RegAddr × RegData)) (b : BitVec 16) (p : Pred) :
    (s.toBatch l b p).params = s.params := rfl
@[simp] theorem State.toBatch_cmd (s : State) (l : List (RegAddr × RegData)) (b : BitVec 16) (p : Pred) :
    (s.toBatch l b p).cmd = s.cmd := rfl
@[simp] theorem State.toBatch_stat (s : State) (l : List (RegAddr × RegData)) (b : BitVec 16) (p : Pred) :
    (s.toBatch l b p).stat = s.stat := rfl
@[simp] theorem State.toBatch_fin (s : State) (l : List (RegAddr × RegData)) (b : BitVec 16) (p : Pred) :
    (s.toBatch l b p).fin = s.fin := rfl
@[simp] theorem State.toBatch_ctrlShadow (s : State) (l : List (RegAddr × RegData)) (b : BitVec 16) (p : Pred) :
    (s.toBatch l b p).ctrlShadow = s.ctrlShadow := rfl
@[simp] theorem State.toBatch_phaseMdeg (s : State) (l : List (RegAddr × RegData)) (b : BitVec 16) (p : Pred) :
    (s.toBatch l b p).phaseMdeg = s.phaseMdeg := rfl
@[simp] theorem State.toBatch_argPoll (s : State) (l : List (RegAddr × RegData)) (b : BitVec 16) (p : Pred) :
    (s.toBatch l b p).argPoll = s.argPoll := rfl
@[simp] theorem State.toBatch_rdata (s : State) (l : List (RegAddr × RegData)) (b : BitVec 16) (p : Pred) :
    (s.toBatch l b p).rdata = s.rdata := rfl
@[simp] theorem State.toBatch_resNm (s : State) (l : List (RegAddr × RegData)) (b : BitVec 16) (p : Pred) :
    (s.toBatch l b p).resNm = s.resNm := rfl
@[simp] theorem State.toBatch_pollcnt (s : State) (l : List (RegAddr × RegData)) (b : BitVec 16) (p : Pred) :
    (s.toBatch l b p).pollcnt = s.pollcnt := rfl
@[simp] theorem State.toBatch_resSteps (s : State) (l : List (RegAddr × RegData)) (b : BitVec 16) (p : Pred) :
    (s.toBatch l b p).resSteps = s.resSteps := rfl
@[simp] theorem State.toBatch_resC (s : State) (l : List (RegAddr × RegData)) (b : BitVec 16) (p : Pred) :
    (s.toBatch l b p).resC = s.resC := rfl
@[simp] theorem State.toBatch_outFreq (s : State) (l : List (RegAddr × RegData)) (b : BitVec 16) (p : Pred) :
    (s.toBatch l b p).outFreq = s.outFreq := rfl
@[simp] theorem State.toBatch_outCfg (s : State) (l : List (RegAddr × RegData)) (b : BitVec 16) (p : Pred) :
    (s.toBatch l b p).outCfg = s.outCfg := rfl
@[simp] theorem State.toBatch_batch (s : State) (l : List (RegAddr × RegData)) (b : BitVec 16) (p : Pred) :
    (s.toBatch l b p).batch = s.batch := rfl
@[simp] theorem State.toBatch_mem (s : State) (l : List (RegAddr × RegData)) (b : BitVec 16) (p : Pred) :
    (s.toBatch l b p).mem = s.mem := rfl
@[simp] theorem State.toBatch_seq (s : State) (l : List (RegAddr × RegData)) (b : BitVec 16) (p : Pred) :
    (s.toBatch l b p).seq = s.seq := rfl
@[simp] theorem State.toBatch_stage (s : State) (l : List (RegAddr × RegData)) (b : BitVec 16) (p : Pred) :
    (s.toBatch l b p).stage = .batch := rfl
@[simp] theorem State.toBatch_term (s : State) (l : List (RegAddr × RegData)) (b : BitVec 16) (p : Pred) :
    (s.toBatch l b p).term = s.term := rfl
@[simp] theorem State.toBatch_lBatch (s : State) (l : List (RegAddr × RegData)) (b : BitVec 16) (p : Pred) :
    (s.toBatch l b p).lBatch = l := rfl
@[simp] theorem State.toBatch_lBase (s : State) (l : List (RegAddr × RegData)) (b : BitVec 16) (p : Pred) :
    (s.toBatch l b p).lBase = b := rfl
@[simp] theorem State.toBatch_lSteps (s : State) (l : List (RegAddr × RegData)) (b : BitVec 16) (p : Pred) :
    (s.toBatch l b p).lSteps = s.lSteps := rfl
@[simp] theorem State.toBatch_lPred (s : State) (l : List (RegAddr × RegData)) (b : BitVec 16) (p : Pred) :
    (s.toBatch l b p).lPred = p := rfl
@[simp] theorem State.toBatch_history (s : State) (l : List (RegAddr × RegData)) (b : BitVec 16) (p : Pred) :
    (s.toBatch l b p).history = s.history := rfl
@[simp] theorem State.toBatch_inputs (s : State) (l : List (RegAddr × RegData)) (b : BitVec 16) (p : Pred) :
    (s.toBatch l b p).inputs = s.inputs := rfl
@[simp] theorem State.toBatch_draws (s : State) (l : List (RegAddr × RegData)) (b : BitVec 16) (p : Pred) :
    (s.toBatch l b p).draws = s.draws := rfl
@[simp] theorem State.toBatch_drawCount (s : State) (l : List (RegAddr × RegData)) (b : BitVec 16) (p : Pred) :
    (s.toBatch l b p).drawCount = s.drawCount := rfl
@[simp] theorem State.toBatch_hostReads (s : State) (l : List (RegAddr × RegData)) (b : BitVec 16) (p : Pred) :
    (s.toBatch l b p).hostReads = s.hostReads := rfl

/-! ### a value returned to the host -/

@[simp] theorem State.returnWord_params (s : State) (off : Nat) (w : Word) :
    (s.returnWord off w).params = s.params := rfl
@[simp] theorem State.returnWord_cmd (s : State) (off : Nat) (w : Word) :
    (s.returnWord off w).cmd = s.cmd := rfl
@[simp] theorem State.returnWord_stat (s : State) (off : Nat) (w : Word) :
    (s.returnWord off w).stat = s.stat := rfl
@[simp] theorem State.returnWord_fin (s : State) (off : Nat) (w : Word) :
    (s.returnWord off w).fin = s.fin := rfl
@[simp] theorem State.returnWord_ctrlShadow (s : State) (off : Nat) (w : Word) :
    (s.returnWord off w).ctrlShadow = s.ctrlShadow := rfl
@[simp] theorem State.returnWord_phaseMdeg (s : State) (off : Nat) (w : Word) :
    (s.returnWord off w).phaseMdeg = s.phaseMdeg := rfl
@[simp] theorem State.returnWord_argPoll (s : State) (off : Nat) (w : Word) :
    (s.returnWord off w).argPoll = s.argPoll := rfl
@[simp] theorem State.returnWord_rdata (s : State) (off : Nat) (w : Word) :
    (s.returnWord off w).rdata = s.rdata := rfl
@[simp] theorem State.returnWord_resNm (s : State) (off : Nat) (w : Word) :
    (s.returnWord off w).resNm = s.resNm := rfl
@[simp] theorem State.returnWord_pollcnt (s : State) (off : Nat) (w : Word) :
    (s.returnWord off w).pollcnt = s.pollcnt := rfl
@[simp] theorem State.returnWord_resSteps (s : State) (off : Nat) (w : Word) :
    (s.returnWord off w).resSteps = s.resSteps := rfl
@[simp] theorem State.returnWord_resC (s : State) (off : Nat) (w : Word) :
    (s.returnWord off w).resC = s.resC := rfl
@[simp] theorem State.returnWord_outFreq (s : State) (off : Nat) (w : Word) :
    (s.returnWord off w).outFreq = s.outFreq := rfl
@[simp] theorem State.returnWord_outCfg (s : State) (off : Nat) (w : Word) :
    (s.returnWord off w).outCfg = s.outCfg := rfl
@[simp] theorem State.returnWord_batch (s : State) (off : Nat) (w : Word) :
    (s.returnWord off w).batch = s.batch := rfl
@[simp] theorem State.returnWord_mem (s : State) (off : Nat) (w : Word) :
    (s.returnWord off w).mem = s.mem := rfl
@[simp] theorem State.returnWord_seq (s : State) (off : Nat) (w : Word) :
    (s.returnWord off w).seq = s.seq := rfl
@[simp] theorem State.returnWord_stage (s : State) (off : Nat) (w : Word) :
    (s.returnWord off w).stage = s.stage := rfl
@[simp] theorem State.returnWord_term (s : State) (off : Nat) (w : Word) :
    (s.returnWord off w).term = s.term := rfl
@[simp] theorem State.returnWord_lBatch (s : State) (off : Nat) (w : Word) :
    (s.returnWord off w).lBatch = s.lBatch := rfl
@[simp] theorem State.returnWord_lBase (s : State) (off : Nat) (w : Word) :
    (s.returnWord off w).lBase = s.lBase := rfl
@[simp] theorem State.returnWord_lSteps (s : State) (off : Nat) (w : Word) :
    (s.returnWord off w).lSteps = s.lSteps := rfl
@[simp] theorem State.returnWord_lPred (s : State) (off : Nat) (w : Word) :
    (s.returnWord off w).lPred = s.lPred := rfl
@[simp] theorem State.returnWord_history (s : State) (off : Nat) (w : Word) :
    (s.returnWord off w).history = s.history := rfl
@[simp] theorem State.returnWord_inputs (s : State) (off : Nat) (w : Word) :
    (s.returnWord off w).inputs = s.inputs := rfl
@[simp] theorem State.returnWord_draws (s : State) (off : Nat) (w : Word) :
    (s.returnWord off w).draws = s.draws := rfl
@[simp] theorem State.returnWord_drawCount (s : State) (off : Nat) (w : Word) :
    (s.returnWord off w).drawCount = s.drawCount := rfl
@[simp] theorem State.returnWord_hostReads (s : State) (off : Nat) (w : Word) :
    (s.returnWord off w).hostReads = s.hostReads ++ [(off, w)] := rfl

/-! ### the taking of a move -/

@[simp] theorem State.popInput_params (s : State) : (s.popInput).params = s.params := rfl
@[simp] theorem State.popInput_cmd (s : State) : (s.popInput).cmd = s.cmd := rfl
@[simp] theorem State.popInput_stat (s : State) : (s.popInput).stat = s.stat := rfl
@[simp] theorem State.popInput_fin (s : State) : (s.popInput).fin = s.fin := rfl
@[simp] theorem State.popInput_ctrlShadow (s : State) :
    (s.popInput).ctrlShadow = s.ctrlShadow := rfl
@[simp] theorem State.popInput_phaseMdeg (s : State) : (s.popInput).phaseMdeg = s.phaseMdeg := rfl
@[simp] theorem State.popInput_argPoll (s : State) : (s.popInput).argPoll = s.argPoll := rfl
@[simp] theorem State.popInput_rdata (s : State) : (s.popInput).rdata = s.rdata := rfl
@[simp] theorem State.popInput_resNm (s : State) : (s.popInput).resNm = s.resNm := rfl
@[simp] theorem State.popInput_pollcnt (s : State) : (s.popInput).pollcnt = s.pollcnt := rfl
@[simp] theorem State.popInput_resSteps (s : State) : (s.popInput).resSteps = s.resSteps := rfl
@[simp] theorem State.popInput_resC (s : State) : (s.popInput).resC = s.resC := rfl
@[simp] theorem State.popInput_outFreq (s : State) : (s.popInput).outFreq = s.outFreq := rfl
@[simp] theorem State.popInput_outCfg (s : State) : (s.popInput).outCfg = s.outCfg := rfl
@[simp] theorem State.popInput_batch (s : State) : (s.popInput).batch = s.batch := rfl
@[simp] theorem State.popInput_mem (s : State) : (s.popInput).mem = s.mem := rfl
@[simp] theorem State.popInput_seq (s : State) : (s.popInput).seq = s.seq := rfl
@[simp] theorem State.popInput_stage (s : State) : (s.popInput).stage = s.stage := rfl
@[simp] theorem State.popInput_term (s : State) : (s.popInput).term = s.term := rfl
@[simp] theorem State.popInput_lBatch (s : State) : (s.popInput).lBatch = s.lBatch := rfl
@[simp] theorem State.popInput_lBase (s : State) : (s.popInput).lBase = s.lBase := rfl
@[simp] theorem State.popInput_lSteps (s : State) : (s.popInput).lSteps = s.lSteps := rfl
@[simp] theorem State.popInput_lPred (s : State) : (s.popInput).lPred = s.lPred := rfl
@[simp] theorem State.popInput_history (s : State) : (s.popInput).history = s.history := rfl
@[simp] theorem State.popInput_inputs (s : State) : (s.popInput).inputs = s.inputs.tail := rfl
@[simp] theorem State.popInput_draws (s : State) : (s.popInput).draws = s.draws := rfl
@[simp] theorem State.popInput_drawCount (s : State) : (s.popInput).drawCount = s.drawCount := rfl
@[simp] theorem State.popInput_hostReads (s : State) : (s.popInput).hostReads = s.hostReads := rfl

/-! ### a command put where the next step runs it -/

@[simp] theorem State.acceptNext_params (s : State) (w : Word) :
    (s.acceptNext w).params = s.params := rfl
@[simp] theorem State.acceptNext_cmd (s : State) (w : Word) : (s.acceptNext w).cmd = w := rfl
@[simp] theorem State.acceptNext_stat (s : State) (w : Word) :
    (s.acceptNext w).stat = s.stat.accept := rfl
@[simp] theorem State.acceptNext_fin (s : State) (w : Word) : (s.acceptNext w).fin = s.fin := rfl
@[simp] theorem State.acceptNext_ctrlShadow (s : State) (w : Word) :
    (s.acceptNext w).ctrlShadow = s.ctrlShadow := rfl
@[simp] theorem State.acceptNext_phaseMdeg (s : State) (w : Word) :
    (s.acceptNext w).phaseMdeg = s.phaseMdeg := rfl
@[simp] theorem State.acceptNext_argPoll (s : State) (w : Word) :
    (s.acceptNext w).argPoll = s.argPoll := rfl
@[simp] theorem State.acceptNext_rdata (s : State) (w : Word) :
    (s.acceptNext w).rdata = s.rdata := rfl
@[simp] theorem State.acceptNext_resNm (s : State) (w : Word) :
    (s.acceptNext w).resNm = s.resNm := rfl
@[simp] theorem State.acceptNext_pollcnt (s : State) (w : Word) :
    (s.acceptNext w).pollcnt = 0 := rfl
@[simp] theorem State.acceptNext_resSteps (s : State) (w : Word) :
    (s.acceptNext w).resSteps = s.resSteps := rfl
@[simp] theorem State.acceptNext_resC (s : State) (w : Word) : (s.acceptNext w).resC = s.resC := rfl
@[simp] theorem State.acceptNext_outFreq (s : State) (w : Word) :
    (s.acceptNext w).outFreq = s.outFreq := rfl
@[simp] theorem State.acceptNext_outCfg (s : State) (w : Word) :
    (s.acceptNext w).outCfg = s.outCfg := rfl
@[simp] theorem State.acceptNext_batch (s : State) (w : Word) :
    (s.acceptNext w).batch = s.batch := rfl
@[simp] theorem State.acceptNext_mem (s : State) (w : Word) : (s.acceptNext w).mem = s.mem := rfl
@[simp] theorem State.acceptNext_seq (s : State) (w : Word) : (s.acceptNext w).seq = .exec := rfl
@[simp] theorem State.acceptNext_stage (s : State) (w : Word) :
    (s.acceptNext w).stage = .decode := rfl
@[simp] theorem State.acceptNext_term (s : State) (w : Word) : (s.acceptNext w).term = s.term := rfl
@[simp] theorem State.acceptNext_lBatch (s : State) (w : Word) :
    (s.acceptNext w).lBatch = s.lBatch := rfl
@[simp] theorem State.acceptNext_lBase (s : State) (w : Word) :
    (s.acceptNext w).lBase = s.lBase := rfl
@[simp] theorem State.acceptNext_lSteps (s : State) (w : Word) :
    (s.acceptNext w).lSteps = s.lSteps := rfl
@[simp] theorem State.acceptNext_lPred (s : State) (w : Word) :
    (s.acceptNext w).lPred = s.lPred := rfl
@[simp] theorem State.acceptNext_history (s : State) (w : Word) :
    (s.acceptNext w).history = s.history := rfl
@[simp] theorem State.acceptNext_inputs (s : State) (w : Word) :
    (s.acceptNext w).inputs = .turn :: s.inputs := rfl
@[simp] theorem State.acceptNext_draws (s : State) (w : Word) :
    (s.acceptNext w).draws = s.draws := rfl
@[simp] theorem State.acceptNext_drawCount (s : State) (w : Word) :
    (s.acceptNext w).drawCount = s.drawCount := rfl
@[simp] theorem State.acceptNext_hostReads (s : State) (w : Word) :
    (s.acceptNext w).hostReads = s.hostReads := rfl

/-! ### reset -/

@[simp] theorem State.resetBlock_params (s : State) : (s.resetBlock).params = s.params := rfl
@[simp] theorem State.resetBlock_cmd (s : State) : (s.resetBlock).cmd = State.reset.cmd := rfl
@[simp] theorem State.resetBlock_stat (s : State) : (s.resetBlock).stat = State.reset.stat := rfl
@[simp] theorem State.resetBlock_fin (s : State) : (s.resetBlock).fin = State.reset.fin := rfl
@[simp] theorem State.resetBlock_ctrlShadow (s : State) :
    (s.resetBlock).ctrlShadow = State.reset.ctrlShadow := rfl
@[simp] theorem State.resetBlock_phaseMdeg (s : State) :
    (s.resetBlock).phaseMdeg = State.reset.phaseMdeg := rfl
@[simp] theorem State.resetBlock_argPoll (s : State) :
    (s.resetBlock).argPoll = State.reset.argPoll := rfl
@[simp] theorem State.resetBlock_rdata (s : State) : (s.resetBlock).rdata = State.reset.rdata := rfl
@[simp] theorem State.resetBlock_resNm (s : State) : (s.resetBlock).resNm = State.reset.resNm := rfl
@[simp] theorem State.resetBlock_pollcnt (s : State) :
    (s.resetBlock).pollcnt = State.reset.pollcnt := rfl
@[simp] theorem State.resetBlock_resSteps (s : State) :
    (s.resetBlock).resSteps = State.reset.resSteps := rfl
@[simp] theorem State.resetBlock_resC (s : State) : (s.resetBlock).resC = State.reset.resC := rfl
@[simp] theorem State.resetBlock_outFreq (s : State) :
    (s.resetBlock).outFreq = State.reset.outFreq := rfl
@[simp] theorem State.resetBlock_outCfg (s : State) :
    (s.resetBlock).outCfg = State.reset.outCfg := rfl
@[simp] theorem State.resetBlock_batch (s : State) : (s.resetBlock).batch = State.reset.batch := rfl
@[simp] theorem State.resetBlock_mem (s : State) : (s.resetBlock).mem = State.reset.mem := rfl
@[simp] theorem State.resetBlock_seq (s : State) : (s.resetBlock).seq = State.reset.seq := rfl
@[simp] theorem State.resetBlock_stage (s : State) : (s.resetBlock).stage = State.reset.stage := rfl
@[simp] theorem State.resetBlock_term (s : State) : (s.resetBlock).term = State.reset.term := rfl
@[simp] theorem State.resetBlock_lBatch (s : State) :
    (s.resetBlock).lBatch = State.reset.lBatch := rfl
@[simp] theorem State.resetBlock_lBase (s : State) : (s.resetBlock).lBase = State.reset.lBase := rfl
@[simp] theorem State.resetBlock_lSteps (s : State) :
    (s.resetBlock).lSteps = State.reset.lSteps := rfl
@[simp] theorem State.resetBlock_lPred (s : State) : (s.resetBlock).lPred = State.reset.lPred := rfl
@[simp] theorem State.resetBlock_history (s : State) :
    (s.resetBlock).history = State.reset.history := rfl
@[simp] theorem State.resetBlock_inputs (s : State) : (s.resetBlock).inputs = s.inputs := rfl
@[simp] theorem State.resetBlock_draws (s : State) : (s.resetBlock).draws = s.draws := rfl
@[simp] theorem State.resetBlock_drawCount (s : State) :
    (s.resetBlock).drawCount = s.drawCount := rfl
@[simp] theorem State.resetBlock_hostReads (s : State) :
    (s.resetBlock).hostReads = s.hostReads := rfl

/-! ### STAT -/

@[simp] theorem Stat.accept_busy (t : Stat) : t.accept.busy = true := rfl
@[simp] theorem Stat.accept_result (t : Stat) : t.accept.result = .ok := rfl
@[simp] theorem Stat.accept_ovr (t : Stat) : t.accept.ovr = t.ovr := rfl
@[simp] theorem Stat.accept_clrFail (t : Stat) : t.accept.clrFail = false := rfl
@[simp] theorem Stat.accept_detail (t : Stat) : t.accept.detail = .none := rfl
@[simp] theorem Stat.accept_errcode (t : Stat) : t.accept.errcode = 0 := rfl
@[simp] theorem Stat.finish_busy (t : Stat) (r : Result) (d : Detail) :
    (t.finish r d).busy = false := rfl
@[simp] theorem Stat.finish_result (t : Stat) (r : Result) (d : Detail) :
    (t.finish r d).result = r := rfl
@[simp] theorem Stat.finish_ovr (t : Stat) (r : Result) (d : Detail) :
    (t.finish r d).ovr = t.ovr := rfl
@[simp] theorem Stat.finish_clrFail (t : Stat) (r : Result) (d : Detail) :
    (t.finish r d).clrFail = t.clrFail := rfl
@[simp] theorem Stat.finish_detail (t : Stat) (r : Result) (d : Detail) :
    (t.finish r d).detail = d := rfl
@[simp] theorem Stat.finish_errcode (t : Stat) (r : Result) (d : Detail) :
    (t.finish r d).errcode = t.errcode := rfl
@[simp] theorem Stat.hostWrite_busy (t : Stat) (w : Word) : (t.hostWrite w).busy = t.busy := rfl
@[simp] theorem Stat.hostWrite_result (t : Stat) (w : Word) :
    (t.hostWrite w).result = t.result := rfl
@[simp] theorem Stat.hostWrite_ovr (t : Stat) (w : Word) :
    (t.hostWrite w).ovr = (t.ovr && !w.getLsbD 4) := rfl
@[simp] theorem Stat.hostWrite_clrFail (t : Stat) (w : Word) :
    (t.hostWrite w).clrFail = t.clrFail := rfl
@[simp] theorem Stat.hostWrite_detail (t : Stat) (w : Word) :
    (t.hostWrite w).detail = t.detail := rfl
@[simp] theorem Stat.hostWrite_errcode (t : Stat) (w : Word) :
    (t.hostWrite w).errcode = t.errcode := rfl

end Sys2Proof.Machine
end

