-- ==== Sys2Proof/Laws/Memory.lean ====
section
/-! SUPPORT. The laws of the RAMs: read after write, every operation keeps the canonical form, and
what the byte and word accesses read and write. -/

namespace Sys2Proof.Machine

/-! ### One byte -/

theorem Memory.read_write_same (m : Memory) (a : Nat) (b : Byte) :
    (m.write a b).read a = some b := by
  induction m with
  | nil => simp [Memory.write, Memory.read]
  | cons c m ih =>
    obtain ⟨x, y⟩ := c
    unfold Memory.write
    split
    · simp [Memory.read]
    · split
      · simp [Memory.read]
      · simp only [Memory.read]
        rw [if_neg (by omega)]
        exact ih

theorem Memory.read_write_other (m : Memory) {a a' : Nat} (b : Byte) (h : a' ≠ a) :
    (m.write a b).read a' = m.read a' := by
  induction m with
  | nil => simp [Memory.write, Memory.read, Ne.symm h]
  | cons c m ih =>
    obtain ⟨x, y⟩ := c
    unfold Memory.write
    split
    · simp [Memory.read, Ne.symm h]
    · split
      · subst a; simp [Memory.read, Ne.symm h]
      · simp only [Memory.read, ih]

theorem Memory.read_write (m : Memory) (a a' : Nat) (b : Byte) :
    (m.write a b).read a' = if a' = a then some b else m.read a' := by
  split
  · subst a'; exact m.read_write_same a b
  · exact m.read_write_other b ‹_›

/-- The offsets listed after a write: those before it, and the one written. -/
theorem Memory.mem_write {m : Memory} {a : Nat} {b : Byte} {c : Host.Cell}
    (h : c ∈ m.write a b) : c = (a, b) ∨ c ∈ m := by
  induction m with
  | nil => simpa [Memory.write] using h
  | cons d m ih =>
    obtain ⟨x, y⟩ := d
    unfold Memory.write at h
    split at h
    · simpa using h
    · split at h
      · simp only [List.mem_cons] at h ⊢; tauto
      · simp only [List.mem_cons] at h ⊢
        rcases h with h | h
        · tauto
        · have := ih h; tauto

theorem Memory.wf_nil : Memory.wf ([] : Memory) := List.Pairwise.nil

theorem Memory.wf_cons {c : Host.Cell} {m : Memory} :
    Memory.wf (c :: m) ↔ (∀ d ∈ m, c.1 < d.1) ∧ Memory.wf m := by
  simp [Memory.wf, List.pairwise_cons]

theorem Memory.wf_write {m : Memory} (a : Nat) (b : Byte) (h : m.wf) : (m.write a b).wf := by
  induction m with
  | nil => simp [Memory.write, Memory.wf]
  | cons c m ih =>
    obtain ⟨x, y⟩ := c
    obtain ⟨h1, h2⟩ := Memory.wf_cons.1 h
    unfold Memory.write
    split
    · rename_i hlt
      refine Memory.wf_cons.2 ⟨fun d hd => ?_, h⟩
      rcases List.mem_cons.1 hd with rfl | hd
      · exact hlt
      · exact Nat.lt_trans hlt (h1 d hd)
    · split
      · subst a; exact Memory.wf_cons.2 ⟨h1, h2⟩
      · refine Memory.wf_cons.2 ⟨fun d hd => ?_, ih h2⟩
        rcases Memory.mem_write hd with rfl | hd
        · show x < a; omega
        · exact h1 d hd

/-! ### Several bytes -/

theorem Memory.read_writeBytes (bs : List Byte) (m : Memory) (a a' : Nat) :
    (m.writeBytes a bs).read a' =
      if a ≤ a' ∧ a' < a + bs.length then bs[a' - a]? else m.read a' := by
  induction bs generalizing m a with
  | nil => simp only [Memory.writeBytes, List.length_nil]; rw [if_neg (by omega)]
  | cons b bs ih =>
    simp only [Memory.writeBytes, ih, List.length_cons, Memory.read_write]
    by_cases h : a' = a
    · subst h; simp
    · by_cases h2 : a ≤ a' ∧ a' < a + (bs.length + 1)
      · rw [if_pos (by omega), if_pos h2]
        obtain ⟨k, hk⟩ : ∃ k, a' - a = k + 1 := ⟨a' - a - 1, by omega⟩
        rw [hk, show a' - (a + 1) = k by omega]; simp
      · rw [if_neg (by omega), if_neg h, if_neg h2]

theorem Memory.read_writeBytes_other (bs : List Byte) (m : Memory) {a a' : Nat}
    (h : a' < a ∨ a + bs.length ≤ a') : (m.writeBytes a bs).read a' = m.read a' := by
  rw [Memory.read_writeBytes, if_neg (by omega)]

theorem Memory.wf_writeBytes (bs : List Byte) {m : Memory} (a : Nat) (h : m.wf) :
    (m.writeBytes a bs).wf := by
  induction bs generalizing m a with
  | nil => exact h
  | cons b bs ih => exact ih _ (Memory.wf_write a b h)

theorem Memory.mem_writeBytes {bs : List Byte} {m : Memory} {a : Nat} {c : Host.Cell}
    (h : c ∈ m.writeBytes a bs) : (a ≤ c.1 ∧ c.1 < a + bs.length) ∨ c ∈ m := by
  induction bs generalizing m a with
  | nil => exact .inr h
  | cons b bs ih =>
    rcases ih h with h | h
    · exact .inl (by simp only [List.length_cons]; omega)
    · rcases Memory.mem_write h with rfl | h
      · exact .inl (by simp)
      · exact .inr h

/-- A read of several bytes succeeds with `bs` exactly when each byte reads as bs says. -/
theorem Memory.readBytes_eq_some {m : Memory} {n a : Nat} {bs : List Byte} :
    m.readBytes a n = some bs ↔ bs.length = n ∧ ∀ k, k < n → m.read (a + k) = bs[k]? := by
  induction n generalizing a bs with
  | zero =>
    simp only [Memory.readBytes, Option.some.injEq]
    constructor
    · rintro rfl; simp
    · rintro ⟨h, -⟩; exact (List.eq_nil_of_length_eq_zero h).symm
  | succ n ih =>
    have hr : m.readBytes a (n + 1) =
        (match m.read a, m.readBytes (a + 1) n with
          | some b, some bs => some (b :: bs)
          | _, _ => none) := rfl
    rw [hr]
    constructor
    · intro h
      cases h1 : m.read a with
      | none => rw [h1] at h; simp at h
      | some b =>
        cases h2 : m.readBytes (a + 1) n with
        | none => rw [h1, h2] at h; simp at h
        | some cs =>
          rw [h1, h2] at h
          simp only [Option.some.injEq] at h
          subst h
          obtain ⟨hl, hk⟩ := ih.1 h2
          refine ⟨by simp [hl], fun k hk' => ?_⟩
          cases k with
          | zero => simpa using h1
          | succ k =>
            have := hk k (by omega)
            rw [show a + (k + 1) = a + 1 + k by omega, this]; simp
    · rintro ⟨hl, hk⟩
      obtain ⟨b, cs, rfl⟩ : ∃ b cs, bs = b :: cs := by
        cases bs with
        | nil => simp at hl
        | cons b cs => exact ⟨b, cs, rfl⟩
      have h1 : m.read a = some b := by simpa using hk 0 (by omega)
      have h2 : m.readBytes (a + 1) n = some cs := by
        refine ih.2 ⟨by simpa using hl, fun k hk' => ?_⟩
        have := hk (k + 1) (by omega)
        rw [show a + (k + 1) = a + 1 + k by omega] at this
        simpa using this
      rw [h1, h2]

/-- A read of several bytes fails exactly when one of them is unwritten. -/
theorem Memory.readBytes_eq_none {m : Memory} {n a : Nat} :
    m.readBytes a n = none ↔ ∃ k, k < n ∧ m.read (a + k) = none := by
  induction n generalizing a with
  | zero => simp [Memory.readBytes]
  | succ n ih =>
    have hr : m.readBytes a (n + 1) =
        (match m.read a, m.readBytes (a + 1) n with
          | some b, some bs => some (b :: bs)
          | _, _ => none) := rfl
    rw [hr]
    cases h1 : m.read a with
    | none => simp only [true_iff]; exact ⟨0, by omega, by simpa using h1⟩
    | some b =>
      cases h2 : m.readBytes (a + 1) n with
      | none =>
        obtain ⟨k, hk, h⟩ := ih.1 h2
        simp only [true_iff]
        exact ⟨k + 1, by omega, by rw [show a + (k + 1) = a + 1 + k by omega]; exact h⟩
      | some bs =>
        simp only [reduceCtorEq, false_iff]
        rintro ⟨k, hk, h⟩
        cases k with
        | zero => simp [h1] at h
        | succ k =>
          have : m.readBytes (a + 1) n = none :=
            ih.2 ⟨k, by omega, by rw [show a + 1 + k = a + (k + 1) by omega]; exact h⟩
          simp [this] at h2

/-! ### Words -/

@[simp] theorem bytesOfWord_length (w : Word) : (bytesOfWord w).length = 4 := rfl

theorem wordOfBytes_bytesOfWord (w : Word) :
    wordOfBytes (w.extractLsb' 0 8) (w.extractLsb' 8 8) (w.extractLsb' 16 8)
      (w.extractLsb' 24 8) = w := by
  apply BitVec.eq_of_getLsbD_eq
  intro i hi
  simp only [wordOfBytes]
  erw [BitVec.getLsbD_append, BitVec.getLsbD_append, BitVec.getLsbD_append]
  simp only [BitVec.getLsbD_extractLsb']
  by_cases h0 : i < 8
  · simp [h0]
  · by_cases h1 : i < 16
    · simp [h0, show i - 8 < 8 by omega, show 8 + (i - 8) = i by omega]
    · by_cases h2 : i < 24
      · simp [h0, show ¬ i - 8 < 8 by omega, show i - 8 - 8 < 8 by omega,
          show 16 + (i - 8 - 8) = i by omega]
      · simp [h0, show ¬ i - 8 < 8 by omega, show ¬ i - 8 - 8 < 8 by omega,
          show i - 8 - 8 - 8 < 8 by omega, show 24 + (i - 8 - 8 - 8) = i by omega]

/-- A word read succeeds with `w` exactly when its four bytes are those of `w`. -/
theorem Memory.readWord_eq_some {m : Memory} {a : Nat} {w : Word} :
    m.readWord a = some w ↔ ∃ b0 b1 b2 b3, m.read a = some b0 ∧ m.read (a + 1) = some b1 ∧
      m.read (a + 2) = some b2 ∧ m.read (a + 3) = some b3 ∧ w = wordOfBytes b0 b1 b2 b3 := by
  unfold Memory.readWord
  constructor
  · intro h
    split at h
    · rename_i b0 b1 b2 b3 hb
      obtain ⟨-, hk⟩ := Memory.readBytes_eq_some.1 hb
      refine ⟨b0, b1, b2, b3, ?_, ?_, ?_, ?_, (Option.some.inj h).symm⟩
      · simpa using hk 0 (by omega)
      · simpa using hk 1 (by omega)
      · simpa using hk 2 (by omega)
      · simpa using hk 3 (by omega)
    · simp at h
  · rintro ⟨b0, b1, b2, b3, h0, h1, h2, h3, rfl⟩
    have : m.readBytes a 4 = some [b0, b1, b2, b3] := by
      refine Memory.readBytes_eq_some.2 ⟨rfl, fun k hk => ?_⟩
      obtain rfl | rfl | rfl | rfl : k = 0 ∨ k = 1 ∨ k = 2 ∨ k = 3 := by omega
      · simpa using h0
      · simpa using h1
      · simpa using h2
      · simpa using h3
    rw [this]

/-- A word read fails exactly when one of its four bytes is unwritten. -/
theorem Memory.readWord_eq_none {m : Memory} {a : Nat} :
    m.readWord a = none ↔ ∃ k, k < 4 ∧ m.read (a + k) = none := by
  rw [← Memory.readBytes_eq_none]
  unfold Memory.readWord
  constructor
  · intro h
    cases hb : m.readBytes a 4 with
    | none => rfl
    | some bs =>
      obtain ⟨hl, -⟩ := Memory.readBytes_eq_some.1 hb
      obtain ⟨b0, b1, b2, b3, rfl⟩ : ∃ b0 b1 b2 b3, bs = [b0, b1, b2, b3] :=
        List.length_eq_four.1 hl
      rw [hb] at h; simp at h
  · intro h; rw [h]

theorem Memory.readWord_congr {m m' : Memory} {a : Nat}
    (h : ∀ k, k < 4 → m'.read (a + k) = m.read (a + k)) : m'.readWord a = m.readWord a := by
  have hb : m'.readBytes a 4 = m.readBytes a 4 := by
    cases hm : m.readBytes a 4 with
    | none =>
      obtain ⟨k, hk, hr⟩ := Memory.readBytes_eq_none.1 hm
      exact Memory.readBytes_eq_none.2 ⟨k, hk, by rw [h k hk]; exact hr⟩
    | some bs =>
      obtain ⟨hl, hr⟩ := Memory.readBytes_eq_some.1 hm
      exact Memory.readBytes_eq_some.2 ⟨hl, fun k hk => by rw [h k hk]; exact hr k hk⟩
  unfold Memory.readWord
  rw [hb]

theorem Memory.read_writeWord (m : Memory) (a a' : Nat) (w : Word) :
    (m.writeWord a w).read a' =
      if a ≤ a' ∧ a' < a + 4 then some (w.extractLsb' (8 * (a' - a)) 8) else m.read a' := by
  rw [Memory.writeWord, Memory.read_writeBytes, bytesOfWord_length]
  split
  · rename_i h
    obtain ⟨k, rfl⟩ : ∃ k, a' = a + k := ⟨a' - a, by omega⟩
    rw [show a + k - a = k by omega]
    obtain rfl | rfl | rfl | rfl : k = 0 ∨ k = 1 ∨ k = 2 ∨ k = 3 := by omega
    all_goals rfl
  · rfl

theorem Memory.readWord_writeWord_same (m : Memory) (a : Nat) (w : Word) :
    (m.writeWord a w).readWord a = some w := by
  refine Memory.readWord_eq_some.2
    ⟨_, _, _, _, ?_, ?_, ?_, ?_, (wordOfBytes_bytesOfWord w).symm⟩
  all_goals
    rw [Memory.read_writeWord, if_pos (by omega)]
    simp

theorem Memory.readWord_writeWord_other (m : Memory) {a a' : Nat} (w : Word)
    (h : a' + 4 ≤ a ∨ a + 4 ≤ a') : (m.writeWord a w).readWord a' = m.readWord a' :=
  Memory.readWord_congr fun k hk => by rw [Memory.read_writeWord, if_neg (by omega)]

theorem Memory.wf_writeWord {m : Memory} (a : Nat) (w : Word) (h : m.wf) : (m.writeWord a w).wf :=
  Memory.wf_writeBytes _ a h

theorem Memory.mem_writeWord {m : Memory} {a : Nat} {w : Word} {c : Host.Cell}
    (h : c ∈ m.writeWord a w) : (a ≤ c.1 ∧ c.1 < a + 4) ∨ c ∈ m :=
  Memory.mem_writeBytes h

end Sys2Proof.Machine
end

