-- ==== Sys2Proof/Laws/Codec.lean ====
section
/-! SUPPORT. What the codec's transfers read and write: one lemma each for success, failure and the
canonical form of the memory (43_sample_codec.md R251-R259). -/

namespace Sys2Proof.Machine

theorem compress_length (x : Word) : (compress x).length = 3 := rfl
theorem expand_length (x : Word) : (expand x).length = 4 := rfl

/-! ### Packing -/

theorem packFrom_succ (rec : Word → List Byte) (len n e : Nat) (m : Memory) :
    packFrom rec len (n + 1) e m =
      (m.readWord (sramAddr e)).bind fun x =>
        packFrom rec len n (e + 1) (m.writeBytes (wramAddr (len * e)) (rec x)) := by
  rw [packFrom]; cases m.readWord (sramAddr e) <;> rfl

/-- A record written in the wire RAM changes no SRAM entry. -/
theorem readWord_sram_writeBytes_wram (m : Memory) (e b : Nat) (bs : List Byte) (he : e < 1024) :
    (m.writeBytes (wramAddr b) bs).readWord (sramAddr e) = m.readWord (sramAddr e) :=
  Memory.readWord_congr fun k hk => by
    rw [Memory.read_writeBytes_other]; left; unfold sramAddr wramAddr; omega

/-- What a successful pack leaves: the record of each entry, and every other byte as before. -/
theorem packFrom_eq_some {rec : Word → List Byte} {len : Nat} (hlen : ∀ x, (rec x).length = len)
    {n e : Nat} {m m' : Memory} (hn : e + n ≤ 1024) (h : packFrom rec len n e m = some m') :
    (∀ e', e ≤ e' → e' < e + n → ∃ x, m.readWord (sramAddr e') = some x ∧
      ∀ k, k < len → m'.read (wramAddr (len * e') + k) = (rec x)[k]?) ∧
    (∀ a, a < wramAddr (len * e) ∨ wramAddr (len * (e + n)) ≤ a → m'.read a = m.read a) := by
  induction n generalizing e m with
  | zero =>
    obtain rfl : m = m' := Option.some.inj h
    exact ⟨fun e' h1 h2 => absurd h2 (by omega), fun a _ => rfl⟩
  | succ n ih =>
    rw [packFrom_succ] at h
    obtain ⟨x, hx, h⟩ := Option.bind_eq_some_iff.1 h
    obtain ⟨h1, h2⟩ := ih (by omega) h
    have hmul : len * (e + 1) = len * e + len := Nat.mul_succ _ _
    refine ⟨fun e' hle hlt => ?_, fun a ha => ?_⟩
    · rcases Nat.eq_or_lt_of_le hle with rfl | hlt'
      · refine ⟨x, hx, fun k hk => ?_⟩
        rw [h2 _ (.inl (by rw [hmul]; unfold wramAddr; omega)), Memory.read_writeBytes, hlen,
          if_pos (by omega), Nat.add_sub_cancel_left]
      · obtain ⟨y, hy, hk⟩ := h1 e' hlt' (by omega)
        exact ⟨y, by rwa [readWord_sram_writeBytes_wram _ _ _ _ (by omega)] at hy, hk⟩
    · have hmul2 : len * (e + (n + 1)) = len * e + len * n + len := by ring
      have hmul3 : len * (e + 1 + n) = len * e + len * n + len := by ring
      rw [h2 a (by rw [hmul, hmul3]; rw [hmul2] at ha; unfold wramAddr at *; omega),
        Memory.read_writeBytes_other]
      rw [hlen]; rw [hmul2] at ha; unfold wramAddr at *
      have := Nat.zero_le (len * n)
      omega

/-- A pack fails exactly when an entry it reads is unwritten. -/
theorem packFrom_eq_none {rec : Word → List Byte} {len n e : Nat} {m : Memory}
    (hn : e + n ≤ 1024) :
    packFrom rec len n e m = none ↔
      ∃ e', e ≤ e' ∧ e' < e + n ∧ m.readWord (sramAddr e') = none := by
  induction n generalizing e m with
  | zero =>
    simp only [packFrom, reduceCtorEq, false_iff]
    rintro ⟨e', h1, h2, -⟩; omega
  | succ n ih =>
    rw [packFrom_succ]
    cases hx : m.readWord (sramAddr e) with
    | none => simp only [Option.bind_none, true_iff]; exact ⟨e, by omega, by omega, hx⟩
    | some x =>
      simp only [Option.bind_some]
      rw [ih (by omega)]
      constructor
      · rintro ⟨e', h1, h2, h3⟩
        exact ⟨e', by omega, by omega, by
          rwa [readWord_sram_writeBytes_wram _ _ _ _ (by omega)] at h3⟩
      · rintro ⟨e', h1, h2, h3⟩
        refine ⟨e', ?_, by omega, by rwa [readWord_sram_writeBytes_wram _ _ _ _ (by omega)]⟩
        rcases Nat.eq_or_lt_of_le h1 with rfl | h
        · rw [hx] at h3; simp at h3
        · omega

theorem packFrom_wf {rec : Word → List Byte} {len n e : Nat} {m m' : Memory} (hm : m.wf)
    (h : packFrom rec len n e m = some m') : m'.wf := by
  induction n generalizing e m with
  | zero => obtain rfl : m = m' := Option.some.inj h; exact hm
  | succ n ih =>
    rw [packFrom_succ] at h
    obtain ⟨x, -, h⟩ := Option.bind_eq_some_iff.1 h
    exact ih (Memory.wf_writeBytes _ _ hm) h

/-- The offsets listed after a pack: those before it, and those of the records. -/
theorem packFrom_mem {rec : Word → List Byte} {len : Nat} (hlen : ∀ x, (rec x).length = len)
    {n e : Nat} {m m' : Memory} (h : packFrom rec len n e m = some m') {c : Host.Cell}
    (hc : c ∈ m') :
    (wramAddr (len * e) ≤ c.1 ∧ c.1 < wramAddr (len * (e + n))) ∨ c ∈ m := by
  induction n generalizing e m with
  | zero => obtain rfl : m = m' := Option.some.inj h; exact .inr hc
  | succ n ih =>
    rw [packFrom_succ] at h
    obtain ⟨x, -, h⟩ := Option.bind_eq_some_iff.1 h
    have hmul : len * (e + 1) = len * e + len := Nat.mul_succ _ _
    have hmul2 : len * (e + (n + 1)) = len * e + len * n + len := by ring
    have hmul3 : len * (e + 1 + n) = len * e + len * n + len := by ring
    have := Nat.zero_le (len * n)
    rcases ih h with h | h
    · left; rw [hmul, hmul3] at h; rw [hmul2]; unfold wramAddr at *; omega
    · rcases Memory.mem_writeBytes h with h | h
      · left; rw [hlen] at h; rw [hmul2]; unfold wramAddr at *; omega
      · exact .inr h

/-! ### Unpacking -/

/-- The entry a record read from the wire RAM decodes to. -/
def recordAt (m : Memory) (len e : Nat) : Option Word :=
  (m.readBytes (wramAddr (len * e)) len).bind entryOfBytes

theorem unpackFrom_succ (len n e : Nat) (m : Memory) :
    unpackFrom len (n + 1) e m =
      (recordAt m len e).bind fun x => unpackFrom len n (e + 1) (m.writeWord (sramAddr e) x) := by
  rw [unpackFrom, recordAt]
  cases (m.readBytes (wramAddr (len * e)) len).bind entryOfBytes <;> rfl

theorem readBytes_congr {m m' : Memory} {a n : Nat}
    (h : ∀ k, k < n → m'.read (a + k) = m.read (a + k)) : m'.readBytes a n = m.readBytes a n := by
  cases hm : m.readBytes a n with
  | none =>
    obtain ⟨k, hk, hr⟩ := Memory.readBytes_eq_none.1 hm
    exact Memory.readBytes_eq_none.2 ⟨k, hk, by rw [h k hk]; exact hr⟩
  | some bs =>
    obtain ⟨hl, hr⟩ := Memory.readBytes_eq_some.1 hm
    exact Memory.readBytes_eq_some.2 ⟨hl, fun k hk => by rw [h k hk]; exact hr k hk⟩

/-- An entry written in the sample RAM changes no wire record. -/
theorem recordAt_writeWord_sram (m : Memory) (len e e' : Nat) (x : Word) (he : e < 1024) :
    recordAt (m.writeWord (sramAddr e) x) len e' = recordAt m len e' := by
  unfold recordAt
  rw [readBytes_congr fun k hk => ?_]
  rw [Memory.read_writeWord, if_neg (by unfold sramAddr wramAddr; omega)]

/-- A record of 3 or 4 written bytes decodes. -/
theorem recordAt_eq_none {m : Memory} {len e : Nat} (hlen : len = 3 ∨ len = 4) :
    recordAt m len e = none ↔ ∃ k, k < len ∧ m.read (wramAddr (len * e) + k) = none := by
  rw [← Memory.readBytes_eq_none, recordAt, Option.bind_eq_none_iff]
  constructor
  · intro h
    cases hb : m.readBytes (wramAddr (len * e)) len with
    | none => rfl
    | some bs =>
      have hl := (Memory.readBytes_eq_some.1 hb).1
      have hno := h bs hb
      rcases hlen with rfl | rfl
      · obtain ⟨b0, b1, b2, rfl⟩ := List.length_eq_three.1 hl
        simp [entryOfBytes] at hno
      · obtain ⟨b0, b1, b2, b3, rfl⟩ := List.length_eq_four.1 hl
        simp [entryOfBytes] at hno
  · intro h bs hb; rw [h] at hb; simp at hb

/-- What a successful unpack leaves: each record's entry, and every other byte as before. -/
theorem unpackFrom_eq_some {len n e : Nat} {m m' : Memory} (hn : e + n ≤ 1024)
    (h : unpackFrom len n e m = some m') :
    (∀ e', e ≤ e' → e' < e + n → ∃ x, recordAt m len e' = some x ∧
      ∀ k, k < 4 → m'.read (sramAddr e' + k) = some (x.extractLsb' (8 * k) 8)) ∧
    (∀ a, a < sramAddr e ∨ sramAddr (e + n) ≤ a → m'.read a = m.read a) := by
  induction n generalizing e m with
  | zero =>
    obtain rfl : m = m' := Option.some.inj h
    exact ⟨fun e' h1 h2 => absurd h2 (by omega), fun a _ => rfl⟩
  | succ n ih =>
    rw [unpackFrom_succ] at h
    obtain ⟨x, hx, h⟩ := Option.bind_eq_some_iff.1 h
    obtain ⟨h1, h2⟩ := ih (by omega) h
    refine ⟨fun e' hle hlt => ?_, fun a ha => ?_⟩
    · rcases Nat.eq_or_lt_of_le hle with rfl | hlt'
      · refine ⟨x, hx, fun k hk => ?_⟩
        rw [h2 _ (.inl (by unfold sramAddr; omega)), Memory.read_writeWord, if_pos (by omega),
          Nat.add_sub_cancel_left]
      · obtain ⟨y, hy, hk⟩ := h1 e' hlt' (by omega)
        exact ⟨y, by rwa [recordAt_writeWord_sram _ _ _ _ _ (by omega)] at hy, hk⟩
    · rw [h2 a (by unfold sramAddr at *; omega), Memory.read_writeWord,
        if_neg (by unfold sramAddr at *; omega)]

/-- An unpack fails exactly when a record it reads does not decode. -/
theorem unpackFrom_eq_none {len n e : Nat} {m : Memory} (hn : e + n ≤ 1024) :
    unpackFrom len n e m = none ↔ ∃ e', e ≤ e' ∧ e' < e + n ∧ recordAt m len e' = none := by
  induction n generalizing e m with
  | zero =>
    simp only [unpackFrom, reduceCtorEq, false_iff]
    rintro ⟨e', h1, h2, -⟩; omega
  | succ n ih =>
    rw [unpackFrom_succ]
    cases hx : recordAt m len e with
    | none => simp only [Option.bind_none, true_iff]; exact ⟨e, by omega, by omega, hx⟩
    | some x =>
      simp only [Option.bind_some]
      rw [ih (by omega)]
      constructor
      · rintro ⟨e', h1, h2, h3⟩
        exact ⟨e', by omega, by omega, by
          rwa [recordAt_writeWord_sram _ _ _ _ _ (by omega)] at h3⟩
      · rintro ⟨e', h1, h2, h3⟩
        refine ⟨e', ?_, by omega, by rwa [recordAt_writeWord_sram _ _ _ _ _ (by omega)]⟩
        rcases Nat.eq_or_lt_of_le h1 with rfl | h
        · rw [hx] at h3; simp at h3
        · omega

theorem unpackFrom_wf {len n e : Nat} {m m' : Memory} (hm : m.wf)
    (h : unpackFrom len n e m = some m') : m'.wf := by
  induction n generalizing e m with
  | zero => obtain rfl : m = m' := Option.some.inj h; exact hm
  | succ n ih =>
    rw [unpackFrom_succ] at h
    obtain ⟨x, -, h⟩ := Option.bind_eq_some_iff.1 h
    exact ih (Memory.wf_writeWord _ _ hm) h

/-- The offsets listed after an unpack: those before it, and those of the entries. -/
theorem unpackFrom_mem {len n e : Nat} {m m' : Memory} (h : unpackFrom len n e m = some m')
    {c : Host.Cell} (hc : c ∈ m') :
    (sramAddr e ≤ c.1 ∧ c.1 < sramAddr (e + n)) ∨ c ∈ m := by
  induction n generalizing e m with
  | zero => obtain rfl : m = m' := Option.some.inj h; exact .inr hc
  | succ n ih =>
    rw [unpackFrom_succ] at h
    obtain ⟨x, -, h⟩ := Option.bind_eq_some_iff.1 h
    rcases ih h with h | h
    · left; unfold sramAddr at *; omega
    · rcases Memory.mem_writeWord h with h | h
      · left; unfold sramAddr at *; omega
      · exact .inr h

/-! ### The command -/

/-- Everything a codec command can do: reject its count, stop on an unwritten read, or finish with the
transfer's memory (43_sample_codec.md R252). -/
theorem codec_cases (nsamp : Nat) (mimo : Bool) (f : Nat → Memory → Option Memory) (s : State) :
    (s.params.sampleEntries < channels mimo * nsamp ∧
      codec nsamp mimo f s = .next (s.finish .invalidArgument .countRange)) ∨
    (channels mimo * nsamp ≤ s.params.sampleEntries ∧ f (channels mimo * nsamp) s.mem = none ∧
      codec nsamp mimo f s = .fault .unwrittenRead) ∨
    (channels mimo * nsamp ≤ s.params.sampleEntries ∧ ∃ m, f (channels mimo * nsamp) s.mem = some m ∧
      codec nsamp mimo f s = .next ({ s with mem := m }.finish .ok .none)) := by
  unfold codec
  by_cases h : s.params.sampleEntries < channels mimo * nsamp
  · left; exact ⟨h, if_pos h⟩
  · right
    rw [if_neg h]
    have hle : channels mimo * nsamp ≤ s.params.sampleEntries := Nat.le_of_not_lt h
    cases hf : f (channels mimo * nsamp) s.mem with
    | none => exact .inl ⟨hle, rfl, rfl⟩
    | some m => exact .inr ⟨hle, m, rfl, rfl⟩

end Sys2Proof.Machine
end

