-- ==== Sys2Proof/Laws/Decode.lean ====
section
/-! SUPPORT. What each format's word holds bit by bit, its fields read back, and the decoder by rows
of the opcode map. -/

namespace Sys2Proof

/-! ### The bits of a format -/

theorem getLsbD_formatN (op : BitVec 8) (i : Nat) :
    (formatN op).getLsbD i = if i < 8 then op.getLsbD i else false := by
  unfold formatN; erw [BitVec.getLsbD_append]; simp

theorem getLsbD_formatA (op : BitVec 8) (a : RegAddr) (i : Nat) :
    (formatA op a).getLsbD i =
      if i < 8 then op.getLsbD i else if i - 8 < 16 then a.getLsbD (i - 8) else false := by
  unfold formatA; erw [BitVec.getLsbD_append, BitVec.getLsbD_append]; simp

theorem getLsbD_formatB (op : BitVec 8) (c : BitVec 7) (i : Nat) :
    (formatB op c).getLsbD i =
      if i < 8 then op.getLsbD i else if i - 8 < 7 then c.getLsbD (i - 8) else false := by
  unfold formatB; erw [BitVec.getLsbD_append, BitVec.getLsbD_append]; simp

theorem getLsbD_formatP (op : BitVec 8) (p : BitVec 5) (q : BitVec 4) (i : Nat) :
    (formatP op p q).getLsbD i =
      if i < 8 then op.getLsbD i else if i - 8 < 5 then p.getLsbD (i - 8)
      else if i - 13 < 4 then q.getLsbD (i - 13) else false := by
  unfold formatP
  erw [BitVec.getLsbD_append, BitVec.getLsbD_append, BitVec.getLsbD_append]
  simp [Nat.sub_sub]

theorem getLsbD_formatS (op : BitVec 8) (m : Bool) (n : BitVec 16) (i : Nat) :
    (formatS op m n).getLsbD i =
      if i < 8 then op.getLsbD i else if i - 8 < 1 then m
      else if i - 9 < 7 then false else n.getLsbD (i - 16) := by
  unfold formatS
  erw [BitVec.getLsbD_append, BitVec.getLsbD_append, BitVec.getLsbD_append]
  by_cases h : i - 8 < 1
  · have h8 : i - 8 = 0 := by omega
    simp [h8]
  · simp [h, Nat.sub_sub]

/-! ### The fields of a format -/

theorem opField_formatN (op : BitVec 8) : opField (formatN op) = op := by
  apply BitVec.eq_of_getLsbD_eq; intro i hi; simp [opField, getLsbD_formatN, hi]

theorem opField_formatA (op : BitVec 8) (a : RegAddr) : opField (formatA op a) = op := by
  apply BitVec.eq_of_getLsbD_eq; intro i hi; simp [opField, getLsbD_formatA, hi]

theorem opField_formatB (op : BitVec 8) (c : BitVec 7) : opField (formatB op c) = op := by
  apply BitVec.eq_of_getLsbD_eq; intro i hi; simp [opField, getLsbD_formatB, hi]

theorem opField_formatP (op : BitVec 8) (p : BitVec 5) (q : BitVec 4) :
    opField (formatP op p q) = op := by
  apply BitVec.eq_of_getLsbD_eq; intro i hi; simp [opField, getLsbD_formatP, hi]

theorem opField_formatS (op : BitVec 8) (m : Bool) (n : BitVec 16) :
    opField (formatS op m n) = op := by
  apply BitVec.eq_of_getLsbD_eq; intro i hi; simp [opField, getLsbD_formatS, hi]

theorem addrField_formatA (op : BitVec 8) (a : RegAddr) : addrField (formatA op a) = a := by
  apply BitVec.eq_of_getLsbD_eq; intro i hi; simp [addrField, getLsbD_formatA, hi]

theorem countField_formatB (op : BitVec 8) (c : BitVec 7) : countField (formatB op c) = c := by
  apply BitVec.eq_of_getLsbD_eq; intro i hi; simp [countField, getLsbD_formatB, hi]

theorem pllField_formatP (op : BitVec 8) (p : BitVec 5) (q : BitVec 4) :
    pllField (formatP op p q) = p := by
  apply BitVec.eq_of_getLsbD_eq; intro i hi; simp [pllField, getLsbD_formatP, hi]

theorem selField_formatP (op : BitVec 8) (p : BitVec 5) (q : BitVec 4) :
    selField (formatP op p q) = q := by
  apply BitVec.eq_of_getLsbD_eq; intro i hi
  simp [selField, getLsbD_formatP, hi, show ¬ 13 + i < 8 by omega, show ¬ 13 + i - 8 < 5 by omega]

theorem mimoField_formatS (op : BitVec 8) (m : Bool) (n : BitVec 16) :
    mimoField (formatS op m n) = BitVec.ofBool m := by
  apply BitVec.eq_of_getLsbD_eq; intro i hi
  obtain rfl : i = 0 := by omega
  rw [mimoField, BitVec.getLsbD_extractLsb', getLsbD_formatS]
  simp

theorem nsampField_formatS (op : BitVec 8) (m : Bool) (n : BitVec 16) :
    nsampField (formatS op m n) = n := by
  apply BitVec.eq_of_getLsbD_eq; intro i hi
  simp [nsampField, getLsbD_formatS, hi, show ¬ 16 + i < 8 by omega,
    show ¬ 16 + i - 8 < 1 by omega, show ¬ 16 + i - 9 < 7 by omega]

/-! ### The must-be-zero bits -/

theorem formatN_and_mask (op : BitVec 8) : formatN op &&& 0xFFFFFFFF = op.setWidth 32 := by
  apply BitVec.eq_of_getLsbD_eq; intro i hi
  rw [BitVec.getLsbD_and, getLsbD_formatN]
  interval_cases i <;> simp

theorem formatA_and_mask (op : BitVec 8) (a : RegAddr) :
    formatA op a &&& 0xFF0000FF = op.setWidth 32 := by
  apply BitVec.eq_of_getLsbD_eq; intro i hi
  rw [BitVec.getLsbD_and, getLsbD_formatA]
  interval_cases i <;> simp

theorem formatB_and_mask (op : BitVec 8) (c : BitVec 7) :
    formatB op c &&& 0xFFFF80FF = op.setWidth 32 := by
  apply BitVec.eq_of_getLsbD_eq; intro i hi
  rw [BitVec.getLsbD_and, getLsbD_formatB]
  interval_cases i <;> simp

theorem formatP_and_mask (op : BitVec 8) (p : BitVec 5) (q : BitVec 4) :
    formatP op p q &&& 0xFFFE00FF = op.setWidth 32 := by
  apply BitVec.eq_of_getLsbD_eq; intro i hi
  rw [BitVec.getLsbD_and, getLsbD_formatP]
  interval_cases i <;> simp

theorem formatS_and_mask (op : BitVec 8) (m : Bool) (n : BitVec 16) :
    formatS op m n &&& 0x0000FEFF = op.setWidth 32 := by
  apply BitVec.eq_of_getLsbD_eq; intro i hi
  rw [BitVec.getLsbD_and, getLsbD_formatS]
  interval_cases i <;> simp

/-! ### The decoder -/

/-- The decoder on a word whose opcode selects row `r` and command `i`. -/
theorem decode_of_row {w : Word} {r : OpcodeRow} {i : Instr}
    (hr : opcodeMap.find? (fun r => r.op == opField w) = some r)
    (hi : operandsOf (opField w) w = some i) :
    decode w = if w &&& r.mask = r.pattern then .instr i else .reservedBits := by
  unfold decode; rw [hr, hi]

/-- No two rows of the opcode map select the same word (30_encoding.md R107). -/
theorem opcodeMap_exclusive :
    opcodeMap.Pairwise fun r r' => r.op ≠ r'.op ∧ r.pattern &&& 0xFF ≠ r'.pattern &&& 0xFF := by
  decide

/-- Every row's mask fixes the whole opcode field, and its pattern is the opcode
(30_encoding.md R107). -/
theorem opcodeMap_fixes_op :
    ∀ r ∈ opcodeMap, r.mask &&& 0xFF = 0xFF ∧ r.pattern = r.op.setWidth 32 := by
  decide

/-- The opcodes with operands are those of the map (30_encoding.md R107, R109). -/
theorem operandsOf_isSome (op : BitVec 8) (w : Word) :
    (operandsOf op w).isSome = opcodeMap.any fun r => r.op == op := by
  unfold operandsOf
  split <;> first | rfl | skip
  rename_i h0 h1 h2 h3 h4 h5 h6 h7 h8 h9 h10
  symm
  simp only [opcodeMap, List.any_cons, List.any_nil, Option.isSome_none, Bool.or_eq_false_iff,
    beq_eq_false_iff_ne, Bool.or_false]
  refine ⟨?_, ?_, ?_, ?_, ?_, ?_, ?_, ?_, ?_, ?_, ?_⟩ <;> exact fun h => by simp_all

end Sys2Proof
end

