-- ==== Sys2Proof/Laws/Host.lean ====
section
/-! SUPPORT. What a host access can do, said once (20_memory.md R60-R64, 10_state.md R42-R44). -/

namespace Sys2Proof.Machine

/-- The offset of a mapped word (10_state.md section 1). -/
def Loc.offset : Loc → Nat
  | .cmd => 0x000
  | .stat => 0x004
  | .fin => 0x008
  | .ctrlShadow => 0x00C
  | .phaseMdeg => 0x010
  | .argPoll => 0x014
  | .rdata => 0x018
  | .resNm => 0x01C
  | .pollcnt => 0x020
  | .resSteps => 0x024
  | .resC i => 0x040 + 4 * i
  | .outFreq j => 0x100 + 8 * j
  | .outCfg j => 0x104 + 8 * j
  | .batch k => 0x200 + 4 * k
  | .sram e => 0x1000 + 4 * e
  | .wram w => 0x2000 + 4 * w

theorem layoutAt_offset (l : Loc) : layoutAt l.offset = some l := by
  cases l
  all_goals
    simp only [Loc.offset]
    unfold layoutAt
    repeat (first | rw [if_neg (by omega)] | rw [if_pos (by omega)])
  all_goals
    congr 2
    apply Fin.ext
    simp only [Fin.ofNat]
    omega

/-- The layout puts each word at its offset, and nowhere else. -/
theorem layoutAt_eq_some {off : Nat} {l : Loc} : layoutAt off = some l ↔ off = l.offset := by
  constructor
  · intro h
    cases l <;>
    · simp only [layoutAt, ite_eq_iff, Option.some.injEq, reduceCtorEq, and_false, false_or, and_true,
        or_false, Loc.resC.injEq, Loc.outFreq.injEq, Loc.outCfg.injEq, Loc.batch.injEq,
        Loc.sram.injEq, Loc.wram.injEq, Fin.ext_iff, Fin.ofNat] at h
      simp only [Loc.offset]
      omega
  · rintro rfl; exact layoutAt_offset l

/-- The offsets the layout leaves empty. -/
theorem layoutAt_eq_none {off : Nat} :
    layoutAt off = none ↔ ¬ (off % 4 = 0 ∧
      (off < 0x28 ∨ (0x40 ≤ off ∧ off < 0x80) ∨ (0x100 ≤ off ∧ off < 0x180) ∨
        (0x200 ≤ off ∧ off < 0x300) ∨ (0x1000 ≤ off ∧ off < 0x3000))) := by
  simp only [layoutAt, ite_eq_iff, reduceCtorEq, and_false, false_or, and_true, or_false]
  omega

/-- Each word that exists is mapped at its offset, and nowhere else. -/
theorem locAt_eq_some {p : Params} {off : Nat} {l : Loc} :
    locAt p off = some l ↔ off = l.offset ∧ l.present p = true := by
  unfold locAt
  rw [Option.filter_eq_some_iff, layoutAt_eq_some]

/-- The offsets that hold no word. -/
theorem locAt_eq_none {p : Params} {off : Nat} :
    locAt p off = none ↔ ¬ (off % 4 = 0 ∧
      (off < 0x28 ∨ (0x40 ≤ off ∧ off < 0x80 ∧ off < 0x40 + 4 * p.outCount) ∨
        (0x100 ≤ off ∧ off < 0x180 ∧ off < 0x100 + 8 * p.outCount) ∨
        (0x200 ≤ off ∧ off < 0x300 ∧ off < 0x200 + 4 * p.batchMax) ∨
        (0x1000 ≤ off ∧ off < 0x2000 ∧ off < 0x1000 + 4 * p.sampleEntries) ∨
        (0x2000 ≤ off ∧ off < 0x3000 ∧ off + 4 ≤ 0x2000 + p.wireBytes))) := by
  cases h : layoutAt off with
  | none =>
    have := layoutAt_eq_none.1 h
    simp only [locAt, h, Option.filter_none, true_iff]
    omega
  | some l =>
    have ho := layoutAt_eq_some.1 h
    subst ho
    have hn : locAt p l.offset = none ↔ ¬ l.present p = true := by
      simp only [locAt, h, Option.filter_some]
      split <;> simp_all
    rw [hn, not_iff_not]
    cases l <;> simp only [Loc.offset, Loc.present, decide_eq_true_eq, true_iff] <;>
      constructor <;> intros <;> first | trivial | omega

theorem locate_eq_some {p : Params} {addr bytes off : Nat} {l : Loc}
    (h : locate p addr bytes = some (off, l)) :
    addr = p.hostBase + off ∧ bytes = 4 ∧ locAt p off = some l := by
  unfold locate at h
  split at h
  · cases h
  · obtain ⟨l', h1, h2⟩ := Option.map_eq_some_iff.1 h
    obtain ⟨rfl, rfl⟩ := Prod.mk.inj h2
    exact ⟨by omega, by omega, h1⟩

theorem locate_eq_none {p : Params} {addr bytes : Nat} :
    locate p addr bytes = none ↔ addr < p.hostBase ∨ bytes ≠ 4 ∨
      locAt p (addr - p.hostBase) = none := by
  unfold locate
  split
  · simp only [true_iff]; tauto
  · simp only [Option.map_eq_none_iff]
    constructor
    · intro h; exact .inr (.inr h)
    · rintro (h | h | h)
      · omega
      · omega
      · exact h

theorem locate_base_add (p : Params) (off : Nat) {l : Loc} (h : locAt p off = some l) :
    locate p (p.hostBase + off) 4 = some (off, l) := by
  unfold locate
  rw [if_neg (by omega), Nat.add_sub_cancel_left, h]; rfl

/-- The word of RES_NM as a number (10_state.md R33). -/
theorem ResNm.word_toNat (r : ResNm) :
    r.word.toNat = r.n.toNat + 2 ^ 8 * r.m.toNat + 2 ^ 16 * r.score.toNat := by
  unfold ResNm.word
  rw [BitVec.toNat_append, BitVec.toNat_append, BitVec.toNat_append,
    ← Nat.shiftLeft_add_eq_or_of_lt r.n.isLt, Nat.shiftLeft_eq,
    ← Nat.shiftLeft_add_eq_or_of_lt r.m.isLt, Nat.shiftLeft_eq,
    ← Nat.shiftLeft_add_eq_or_of_lt r.score.isLt, Nat.shiftLeft_eq]
  simp; omega

/-- The word of RES_STEPS as a number (10_state.md R35). -/
theorem ResSteps.word_toNat (r : ResSteps) :
    r.word.toNat = r.mag.toNat + 2 ^ 16 * r.updn.toNat := by
  unfold ResSteps.word
  rw [BitVec.toNat_append, BitVec.toNat_append,
    ← Nat.shiftLeft_add_eq_or_of_lt r.mag.isLt, Nat.shiftLeft_eq,
    ← Nat.shiftLeft_add_eq_or_of_lt (BitVec.ofBool r.updn).isLt, Nat.shiftLeft_eq]
  cases r.updn <;> simp; omega

/-- A read has three outcomes: a draw while BUSY, the word, or UnwrittenRead (R44, R49). -/
theorem hostRead_cases (off : Nat) (l : Loc) (s : State) :
    (s.stat.busy = true ∧ liveWhileBusy l = false ∧
      hostRead off l s = .next (s.popDraw.returnWord off s.draw.word)) ∨
    ((s.stat.busy = false ∨ liveWhileBusy l = true) ∧
      ((∃ w, readLoc s l = some w ∧ hostRead off l s = .next (s.returnWord off w)) ∨
        (readLoc s l = none ∧ hostRead off l s = .fault .unwrittenRead))) := by
  unfold hostRead
  cases hb : s.stat.busy <;> cases hl : liveWhileBusy l <;> simp only [Bool.not_true, Bool.not_false,
    Bool.and_true, Bool.and_false, Bool.and_self, if_true, if_false, Bool.false_eq_true] <;>
    cases hr : readLoc s l <;> simp

/-- A write has three outcomes (R43, R22). -/
theorem hostWrite_cases (l : Loc) (w : Word) (s : State) :
    (s.stat.busy = true ∧ l ≠ .stat ∧
      hostWrite l w s = { s with stat := { s.stat with ovr := true } }) ∨
    ((s.stat.busy = false ∨ l = .stat) ∧ hostWrite l w s = writeLoc s w l) := by
  unfold hostWrite
  cases hb : s.stat.busy <;> by_cases hl : l = .stat <;> simp [hl]

/-- A host access has three outcomes: a bus error, a read or a write of a mapped word (R61). -/
theorem hostAccess_cases (a : HostAccess) (s : State) :
    (locate s.params a.addr a.bytes = none ∧ hostAccess a s = .fault .hostBusError) ∨
    (∃ off l, locate s.params a.addr a.bytes = some (off, l) ∧
      ((a.op = .read ∧ hostAccess a s = hostRead off l s) ∨
        (∃ w, a.op = .write w ∧ hostAccess a s = .next (hostWrite l w s)))) := by
  unfold hostAccess
  cases h : locate s.params a.addr a.bytes with
  | none => exact .inl ⟨rfl, rfl⟩
  | some x =>
    obtain ⟨off, l⟩ := x
    refine .inr ⟨off, l, rfl, ?_⟩
    cases ho : a.op with
    | read => exact .inl ⟨rfl, rfl⟩
    | write w => exact .inr ⟨w, rfl, rfl⟩

end Sys2Proof.Machine
end

