-- ==== Sys2Proof/Laws/PerInstr.lean ====
section
/-! SUPPORT. Statements about every command as syntax, one lemma per constructor of Instr. -/

namespace Sys2Proof.Laws.EncodesInItsRow

/-- The row of the opcode map a command is encoded in (30_encoding.md R107). -/
def rowOf : Instr → OpcodeRow
  | .nop => ⟨0x00, 0xFFFFFFFF, 0x00000000⟩
  | .regRead _ => ⟨0x01, 0xFF0000FF, 0x00000001⟩
  | .regWrite _ => ⟨0x02, 0xFFFF80FF, 0x00000002⟩
  | .poll _ => ⟨0x03, 0xFF0000FF, 0x00000003⟩
  | .pllConfig _ _ => ⟨0x10, 0xFFFE00FF, 0x00000010⟩
  | .phaseFixed _ _ => ⟨0x11, 0xFFFE00FF, 0x00000011⟩
  | .phaseSearch _ _ => ⟨0x12, 0xFFFE00FF, 0x00000012⟩
  | .pack12 _ _ => ⟨0x20, 0x0000FEFF, 0x00000020⟩
  | .unpack12 _ _ => ⟨0x21, 0x0000FEFF, 0x00000021⟩
  | .pack16 _ _ => ⟨0x22, 0x0000FEFF, 0x00000022⟩
  | .unpack16 _ _ => ⟨0x23, 0x0000FEFF, 0x00000023⟩

/-- The command's row is in the opcode map, its encoding matches the row, and the encoding's opcode
field is the row's (30_encoding.md R107, R108). -/
def Statement (i : Instr) : Prop :=
  rowOf i ∈ opcodeMap ∧ encode i &&& (rowOf i).mask = (rowOf i).pattern ∧
    opField (encode i) = (rowOf i).op

theorem nop : Statement .nop := ⟨by decide, by decide, by decide⟩

theorem regRead (addr : RegAddr) : Statement (.regRead addr) :=
  ⟨by simp [rowOf, opcodeMap], formatA_and_mask _ _, opField_formatA _ _⟩

theorem regWrite (count : Nat) : Statement (.regWrite count) :=
  ⟨by simp [rowOf, opcodeMap], formatB_and_mask _ _, opField_formatB _ _⟩

theorem poll (addr : RegAddr) : Statement (.poll addr) :=
  ⟨by simp [rowOf, opcodeMap], formatA_and_mask _ _, opField_formatA _ _⟩

theorem pllConfig (pll nout : Nat) : Statement (.pllConfig pll nout) :=
  ⟨by simp [rowOf, opcodeMap], formatP_and_mask _ _ _, opField_formatP _ _ _⟩

theorem phaseFixed (pll : Nat) (o : Fin 16) : Statement (.phaseFixed pll o) :=
  ⟨by simp [rowOf, opcodeMap], formatP_and_mask _ _ _, opField_formatP _ _ _⟩

theorem phaseSearch (pll : Nat) (o : Fin 16) : Statement (.phaseSearch pll o) :=
  ⟨by simp [rowOf, opcodeMap], formatP_and_mask _ _ _, opField_formatP _ _ _⟩

theorem pack12 (nsamp : Nat) (mimo : Bool) : Statement (.pack12 nsamp mimo) :=
  ⟨by simp [rowOf, opcodeMap], formatS_and_mask _ _ _, opField_formatS _ _ _⟩

theorem unpack12 (nsamp : Nat) (mimo : Bool) : Statement (.unpack12 nsamp mimo) :=
  ⟨by simp [rowOf, opcodeMap], formatS_and_mask _ _ _, opField_formatS _ _ _⟩

theorem pack16 (nsamp : Nat) (mimo : Bool) : Statement (.pack16 nsamp mimo) :=
  ⟨by simp [rowOf, opcodeMap], formatS_and_mask _ _ _, opField_formatS _ _ _⟩

theorem unpack16 (nsamp : Nat) (mimo : Bool) : Statement (.unpack16 nsamp mimo) :=
  ⟨by simp [rowOf, opcodeMap], formatS_and_mask _ _ _, opField_formatS _ _ _⟩

end Sys2Proof.Laws.EncodesInItsRow
end

