-- ==== Sys2Proof/Laws/Phase.lean ====
section
/-! SUPPORT. What the DECODE steps of the phase commands can do, said once (42_phase.md). -/

namespace Sys2Proof.Machine

/-- The shared checks: a PLL index out of range comes before a divider not configured (R222). -/
theorem phaseValidate_cases (p : Params) (pll c : Nat) :
    (p.pllCount ≤ pll ∧ phaseValidate p pll c = some .pllIndex) ∨
    (pll < p.pllCount ∧ c = 0 ∧ phaseValidate p pll c = some .notConfigured) ∨
    (pll < p.pllCount ∧ c ≠ 0 ∧ phaseValidate p pll c = none) := by
  unfold phaseValidate
  by_cases h : p.pllCount ≤ pll
  · exact .inl ⟨h, if_pos h⟩
  · by_cases hc : c = 0
    · exact .inr (.inl ⟨by omega, hc, by rw [if_neg h, if_pos hc]⟩)
    · exact .inr (.inr ⟨by omega, hc, by rw [if_neg h, if_neg hc]⟩)

/-- PHASE_FIXED's DECODE step rejects, or starts its sequence (R222, R225). -/
theorem phaseFixedDecode_cases (pll : Nat) (o : Fin 16) (s : State) :
    (∃ d, d ≠ .none ∧ phaseFixedDecode pll o s = s.finish .invalidArgument d) ∨
    (pll < s.params.pllCount ∧ s.divider o ≠ 0 ∧
      (fixedSteps s.params s.phase (s.divider o)).natAbs ≤ s.params.phaseStepsMax ∧
      phaseFixedDecode pll o s = phaseStart pll o (fixedSteps s.params s.phase (s.divider o))
        (direction (fixedSteps s.params s.phase (s.divider o))) false predPll s) := by
  unfold phaseFixedDecode
  rcases phaseValidate_cases s.params pll (s.divider o) with ⟨-, e⟩ | ⟨-, -, e⟩ | ⟨h1, h2, e⟩ <;>
    rw [e]
  · exact .inl ⟨_, by simp, rfl⟩
  · exact .inl ⟨_, by simp, rfl⟩
  · by_cases hs : s.params.phaseStepsMax < (fixedSteps s.params s.phase (s.divider o)).natAbs
    · exact .inl ⟨_, by simp, if_pos hs⟩
    · exact .inr ⟨h1, h2, by omega, if_neg hs⟩

/-- PHASE_SEARCH's DECODE step rejects, or starts its sequence (R222, R230). -/
theorem phaseSearchDecode_cases (pll : Nat) (o : Fin 16) (s : State) :
    (∃ d, d ≠ .none ∧ phaseSearchDecode pll o s = s.finish .invalidArgument d) ∨
    (pll < s.params.pllCount ∧ s.divider o ≠ 0 ∧
      phaseSearchDecode pll o s =
        phaseStart pll o (searchSteps (s.divider o)) true true predSearch s) := by
  unfold phaseSearchDecode
  rcases phaseValidate_cases s.params pll (s.divider o) with ⟨-, e⟩ | ⟨-, -, e⟩ | ⟨h1, h2, e⟩ <;>
    rw [e]
  · exact .inl ⟨_, by simp, rfl⟩
  · exact .inl ⟨_, by simp, rfl⟩
  · exact .inr ⟨h1, h2, rfl⟩

/-- A phase base word has both start bits 0 (R223). -/
theorem phaseBase_start (p : Params) (shadow : BitVec 16) (pll : Nat) (o : Fin 16)
    (updn mode : Bool) : phaseBase p shadow pll o updn mode &&& 3 = 0 := by
  unfold phaseBase
  apply BitVec.eq_of_getLsbD_eq
  intro i hi
  have : i = 0 ∨ i = 1 ∨ 2 ≤ i := by omega
  rcases this with rfl | rfl | h
  · simp
  · simp
  · have h3 : (3#16).getLsbD i = false := by
      interval_cases i <;> decide
    simp [h3]

end Sys2Proof.Machine
end

