-- ==== Sys2Proof/Laws/Pll.lean ====
section
/-! SUPPORT. What each part of the PLL computation returns, said once (41_pll_synthesizer.md). -/

namespace Sys2Proof.Machine

/-! ### Candidates (R175, R176) -/

theorem mem_multiples {lo hi f v : Nat} (hf : 0 < f) :
    v ∈ multiples lo hi f ↔ lo ≤ v ∧ v ≤ hi ∧ ∃ q, 1 ≤ q ∧ v = q * f := by
  unfold multiples
  rw [if_neg (by omega)]
  simp only [List.mem_map, List.mem_range'_1]
  have hc : ∀ q, (lo + f - 1) / f ≤ q ↔ lo ≤ q * f := by
    intro q
    rw [← Nat.lt_succ_iff, Nat.div_lt_iff_lt_mul hf, Nat.succ_mul]
    omega
  constructor
  · rintro ⟨q, ⟨h1, h2⟩, rfl⟩
    have hq : q ≤ hi / f := by omega
    refine ⟨(hc q).1 (by omega), (Nat.le_div_iff_mul_le hf).1 hq, q, by omega, rfl⟩
  · rintro ⟨h1, h2, q, hq, rfl⟩
    have h3 := (hc q).2 h1
    have h4 := (Nat.le_div_iff_mul_le hf).2 h2
    exact ⟨q, ⟨by omega, by omega⟩, rfl⟩

theorem mem_insertOnce {v w : Nat} {l : List Nat} : w ∈ insertOnce v l ↔ w = v ∨ w ∈ l := by
  induction l with
  | nil => simp [insertOnce]
  | cons x l ih =>
    rw [insertOnce]
    split
    · simp
    · split
      · subst x; simp
      · simp [ih]; tauto

theorem insertOnce_sorted {v : Nat} {l : List Nat} (h : l.Pairwise (· < ·)) :
    (insertOnce v l).Pairwise (· < ·) := by
  induction l with
  | nil => simp [insertOnce]
  | cons x l ih =>
    rw [List.pairwise_cons] at h
    rw [insertOnce]
    split
    · rw [List.pairwise_cons, List.pairwise_cons]
      refine ⟨fun y hy => ?_, h⟩
      rcases List.mem_cons.1 hy with rfl | hy
      · assumption
      · exact Nat.lt_trans ‹_› (h.1 y hy)
    · split
      · exact List.pairwise_cons.2 h
      · rw [List.pairwise_cons]
        refine ⟨fun y hy => ?_, ih h.2⟩
        rcases mem_insertOnce.1 hy with rfl | hy
        · omega
        · exact h.1 y hy

theorem candidates_sorted (p : Params) (fs : List Nat) :
    (candidates p fs).Pairwise (· < ·) := by
  unfold candidates
  generalize fs.flatMap (multiples p.vcoMin p.vcoMax) = l
  induction l with
  | nil => exact List.Pairwise.nil
  | cons v l ih => exact insertOnce_sorted ih

theorem mem_candidates {p : Params} {fs : List Nat} {v : Nat} :
    v ∈ candidates p fs ↔ ∃ f ∈ fs, v ∈ multiples p.vcoMin p.vcoMax f := by
  rw [← List.mem_flatMap]
  unfold candidates
  generalize fs.flatMap (multiples p.vcoMin p.vcoMax) = l
  induction l with
  | nil => simp
  | cons x l ih => simp [mem_insertOnce, ih]

/-! ### The best score (R178, R179) -/

theorem le_foldr_max {l : List Nat} {x : Nat} (h : x ∈ l) : x ≤ l.foldr max 0 := by
  induction l with
  | nil => cases h
  | cons y l ih =>
    rcases List.mem_cons.1 h with rfl | h
    · exact le_max_left _ _
    · exact le_trans (ih h) (le_max_right _ _)

theorem foldr_max_mem {l : List Nat} (h : l ≠ []) : l.foldr max 0 ∈ l := by
  induction l with
  | nil => exact absurd rfl h
  | cons y l ih =>
    rw [List.foldr_cons]
    rcases l with _ | ⟨z, l⟩
    · simp
    · rcases le_total y ((z :: l).foldr max 0) with hle | hle
      · rw [max_eq_right hle]; exact .tail _ (ih (by simp))
      · rw [max_eq_left hle]; exact .head _

theorem score_le_bestScore {fs cand : List Nat} {v : Nat} (h : v ∈ cand) :
    score fs v ≤ bestScore fs cand := le_foldr_max (List.mem_map_of_mem h)

theorem bestScore_attained {fs cand : List Nat} (h : cand ≠ []) :
    ∃ v ∈ cand, score fs v = bestScore fs cand := by
  have := foldr_max_mem (l := cand.map (score fs)) (by simpa using h)
  obtain ⟨v, hv, he⟩ := List.mem_map.1 this
  exact ⟨v, hv, he⟩

/-- A top candidate is a candidate that no other outscores. -/
theorem mem_topCandidates {fs cand : List Nat} {v : Nat} :
    v ∈ topCandidates fs cand ↔ v ∈ cand ∧ ∀ w ∈ cand, score fs w ≤ score fs v := by
  unfold topCandidates
  rw [List.mem_filter, decide_eq_true_eq]
  constructor
  · rintro ⟨hv, he⟩
    exact ⟨hv, fun w hw => he ▸ score_le_bestScore hw⟩
  · rintro ⟨hv, hm⟩
    obtain ⟨w, hw, he⟩ := bestScore_attained (fs := fs) (List.ne_nil_of_mem hv)
    exact ⟨hv, le_antisymm (score_le_bestScore hv) (he ▸ hm w hw)⟩

theorem topCandidates_sorted {fs cand : List Nat} (h : cand.Pairwise (· < ·)) :
    (topCandidates fs cand).Pairwise (· < ·) := h.filter _

/-! ### The N/M search (R181) -/

/-- The loop goes on from n: neither of its two exits is taken there. -/
def SearchGoesOn (p : Params) (fin v n : Nat) : Prop :=
  p.fFloor * n < fin ∧ rnd (v * (n + 1)) fin ≤ p.nmMax

theorem searchLoop_spec (p : Params) (fin v : Nat) (fuel n : Nat)
    (hfuel : fin ≤ p.fFloor * (n + fuel)) :
    n ≤ searchLoop p fin v fuel n ∧
      (∀ k, n ≤ k → k < searchLoop p fin v fuel n → SearchGoesOn p fin v k) ∧
      ¬ SearchGoesOn p fin v (searchLoop p fin v fuel n) := by
  induction fuel generalizing n with
  | zero =>
    refine ⟨le_refl _, fun k h1 h2 => absurd h2 (by simp only [searchLoop]; omega), ?_⟩
    rintro ⟨h, -⟩
    simp only [searchLoop, Nat.add_zero] at h hfuel
    omega
  | succ fuel ih =>
    rw [searchLoop]
    split
    · split
      · exact ⟨le_refl _, fun k h1 h2 => by omega, fun h => by have := h.2; omega⟩
      · obtain ⟨h1, h2, h3⟩ := ih (n + 1) (by rwa [show n + 1 + fuel = n + (fuel + 1) by omega])
        refine ⟨by omega, fun k hk hk' => ?_, h3⟩
        rcases Nat.eq_or_lt_of_le hk with rfl | hk
        · exact ⟨‹_›, by omega⟩
        · exact h2 k hk hk'
    · exact ⟨le_refl _, fun k h1 h2 => by omega, fun h => by have := h.1; omega⟩

/-- The N of the search: the first one from 1 up at which the loop does not go on. -/
theorem searchN_spec (p : Params) (fin v : Nat) (hp : 0 < p.fFloor) :
    1 ≤ searchN p fin v ∧ (∀ k, 1 ≤ k → k < searchN p fin v → SearchGoesOn p fin v k) ∧
      ¬ SearchGoesOn p fin v (searchN p fin v) := by
  refine searchLoop_spec p fin v _ 1 ?_
  have := Nat.lt_mul_div_succ fin hp
  have h2 : p.fFloor * (fin / p.fFloor + 1) ≤ p.fFloor * (1 + (fin / p.fFloor + 1)) :=
    Nat.mul_le_mul_left _ (by omega)
  omega

/-! ### The selection (R182-R184) -/

/-- One visit: an invalid candidate is skipped, a valid one is kept if it is the first or replaces the
selected one. -/
theorem visit_cases (p : Params) (fin : Nat) (sel : Option Choice) (v : Nat) :
    ((choiceOf p fin v).valid p = false ∧ visit p fin sel v = sel) ∨
    ((choiceOf p fin v).valid p = true ∧
      ((visit p fin sel v = some (choiceOf p fin v) ∧
          (sel = none ∨ ∃ b, sel = some b ∧ replaces p fin (choiceOf p fin v) b = true)) ∨
        (∃ b, sel = some b ∧ replaces p fin (choiceOf p fin v) b = false ∧
          visit p fin sel v = some b))) := by
  unfold visit
  cases hv : (choiceOf p fin v).valid p with
  | false => exact .inl ⟨rfl, by simp [hv]⟩
  | true =>
    refine .inr ⟨rfl, ?_⟩
    cases sel with
    | none => exact .inl ⟨by simp [hv], .inl rfl⟩
    | some b =>
      cases hr : replaces p fin (choiceOf p fin v) b with
      | true => exact .inl ⟨by simp [hv, hr], .inr ⟨b, rfl, hr⟩⟩
      | false => exact .inr ⟨b, rfl, hr, by simp [hv, hr]⟩

/-- What a fold of `visit` over candidates keeps: the selected choice is the start or a valid visited
candidate. -/
theorem foldl_visit_some {p : Params} {fin : Nat} {l : List Nat} {c0 : Option Choice} {c : Choice}
    (h : l.foldl (visit p fin) c0 = some c) :
    c0 = some c ∨ (c.valid p = true ∧ ∃ v ∈ l, c = choiceOf p fin v) := by
  induction l generalizing c0 with
  | nil => exact .inl h
  | cons v l ih =>
    rcases ih h with h | ⟨hv, w, hw, rfl⟩
    · rcases visit_cases p fin c0 v with ⟨-, e⟩ | ⟨hv, ⟨e, -⟩ | ⟨b, hb, -, e⟩⟩
      · exact .inl (e ▸ h)
      · obtain rfl := Option.some.inj (e.symm.trans h)
        exact .inr ⟨hv, v, .head _, rfl⟩
      · obtain rfl := Option.some.inj (e.symm.trans h)
        exact .inl hb
    · exact .inr ⟨hv, w, .tail _ hw, rfl⟩

theorem foldl_visit_isSome {p : Params} {fin : Nat} {l : List Nat} {b : Choice} :
    ∃ c, l.foldl (visit p fin) (some b) = some c := by
  induction l generalizing b with
  | nil => exact ⟨b, rfl⟩
  | cons v l ih =>
    rw [List.foldl_cons]
    rcases visit_cases p fin (some b) v with ⟨-, e⟩ | ⟨-, ⟨e, -⟩ | ⟨b', -, -, e⟩⟩ <;>
      rw [e] <;> exact ih

/-- `b` stands before `c` in the order of the selection: less deviation, or as much and the side
TIE_RULE prefers. -/
def Precedes (p : Params) (fin : Nat) (b c : Choice) : Prop :=
  b.dev fin * c.n < c.dev fin * b.n ∨
    (b.dev fin * c.n = c.dev fin * b.n ∧
      match p.tieRule with
      | .first => b.v ≤ c.v
      | .last => c.v ≤ b.v)

theorem Precedes.refl (p : Params) (fin : Nat) (c : Choice) : Precedes p fin c c := by
  refine .inr ⟨rfl, ?_⟩
  cases p.tieRule <;> exact le_refl _

theorem Precedes.trans {p : Params} {fin : Nat} {a b c : Choice} (hb : 0 < b.n)
    (ha : 0 < a.n) (hc : 0 < c.n)
    (h1 : Precedes p fin a b) (h2 : Precedes p fin b c) : Precedes p fin a c := by
  have key : ∀ x y z : Nat, x * b.n ≤ y * a.n → y * c.n ≤ z * b.n →
      x * c.n ≤ z * a.n ∧ ((x * b.n < y * a.n ∨ y * c.n < z * b.n) → x * c.n < z * a.n) := by
    intro x y z e1 e2
    have i1 : x * c.n * b.n ≤ y * a.n * c.n := by
      rw [Nat.mul_right_comm]; exact Nat.mul_le_mul_right _ e1
    have i2 : y * c.n * a.n ≤ z * b.n * a.n := Nat.mul_le_mul_right _ e2
    have i3 : y * a.n * c.n = y * c.n * a.n := Nat.mul_right_comm _ _ _
    have i4 : z * b.n * a.n = z * a.n * b.n := Nat.mul_right_comm _ _ _
    refine ⟨Nat.le_of_mul_le_mul_right (by omega : x * c.n * b.n ≤ z * a.n * b.n) hb,
      fun h => Nat.lt_of_mul_lt_mul_right (a := b.n) ?_⟩
    rcases h with h | h
    · have : x * c.n * b.n < y * a.n * c.n := by
        rw [Nat.mul_right_comm]; exact Nat.mul_lt_mul_of_pos_right h hc
      omega
    · have : y * c.n * a.n < z * b.n * a.n := Nat.mul_lt_mul_of_pos_right h ha
      omega
  have k := key (a.dev fin) (b.dev fin) (c.dev fin)
  rcases h1 with h1 | ⟨e1, t1⟩
  · rcases h2 with h2 | ⟨e2, t2⟩
    · exact .inl ((k h1.le h2.le).2 (.inl h1))
    · exact .inl ((k h1.le e2.le).2 (.inl h1))
  · rcases h2 with h2 | ⟨e2, t2⟩
    · exact .inl ((k e1.le h2.le).2 (.inr h2))
    · have k' := key (a.dev fin) (b.dev fin) (c.dev fin) e1.le e2.le
      rcases Nat.eq_or_lt_of_le k'.1 with e | l
      · refine .inr ⟨e, ?_⟩
        cases h : p.tieRule with
        | first => rw [h] at t1 t2; exact le_trans t1 t2
        | last => rw [h] at t1 t2; exact le_trans t2 t1
      · exact .inl l

/-- A candidate that replaces, or does not replace, a choice of a lower or equal candidate stands on the
side of it the order says. -/
theorem replaces_precedes {p : Params} {fin : Nat} {c b : Choice} (hv : b.v ≤ c.v) :
    (replaces p fin c b = true → Precedes p fin c b) ∧
      (replaces p fin c b = false → Precedes p fin b c) := by
  unfold replaces Precedes
  cases p.tieRule <;> simp only [decide_eq_true_eq, decide_eq_false_iff_not] <;> omega

/-- The selection of an ascending list precedes the choice of every valid candidate of it. -/
theorem foldl_visit_precedes {p : Params} {fin : Nat} (hp : 0 < p.fFloor) {l : List Nat}
    (hl : l.Pairwise (· < ·)) {c0 : Option Choice} {c : Choice}
    (h0 : ∀ b, c0 = some b → 0 < b.n ∧ ∀ v ∈ l, b.v ≤ v)
    (h : l.foldl (visit p fin) c0 = some c) :
    (∀ b, c0 = some b → Precedes p fin c b) ∧
      ∀ v ∈ l, (choiceOf p fin v).valid p = true → Precedes p fin c (choiceOf p fin v) := by
  induction l generalizing c0 with
  | nil =>
    refine ⟨fun b hb => ?_, fun v hv => absurd hv (by simp)⟩
    obtain rfl := Option.some.inj (hb.symm.trans h)
    exact .refl _ _ _
  | cons v l ih =>
    rw [List.pairwise_cons] at hl
    have npos : ∀ w, 0 < (choiceOf p fin w).n := fun w => (searchN_spec p fin w hp).1
    have cpos : 0 < c.n := by
      rcases foldl_visit_some h with e | ⟨-, w, -, rfl⟩
      · exact (h0 c e).1
      · exact npos w
    rcases visit_cases p fin c0 v with ⟨hf, e⟩ | ⟨ht, ⟨e, hs⟩ | ⟨b, hb, hr, e⟩⟩
    · rw [List.foldl_cons, e] at h
      obtain ⟨k1, k2⟩ := ih hl.2 (fun b hb => ⟨(h0 b hb).1, fun w hw => (h0 b hb).2 w (.tail _ hw)⟩) h
      refine ⟨k1, fun w hw hv => ?_⟩
      rcases List.mem_cons.1 hw with rfl | hw
      · rw [hf] at hv; cases hv
      · exact k2 w hw hv
    · rw [List.foldl_cons, e] at h
      obtain ⟨k1, k2⟩ := ih hl.2 (fun b hb => by
        obtain rfl := Option.some.inj hb
        exact ⟨npos v, fun w hw => (hl.1 w hw).le⟩) h
      have k3 := k1 _ rfl
      refine ⟨fun b hb => ?_, fun w hw hv => ?_⟩
      · rcases hs with hn | ⟨b', hb', hr⟩
        · rw [hn] at hb; cases hb
        · obtain rfl := Option.some.inj (hb'.symm.trans hb)
          exact k3.trans (npos v) cpos (h0 _ hb).1
            ((replaces_precedes ((h0 _ hb).2 v (.head _))).1 hr)
      · rcases List.mem_cons.1 hw with rfl | hw
        · exact k3
        · exact k2 w hw hv
    · rw [List.foldl_cons, e] at h
      obtain ⟨k1, k2⟩ := ih hl.2 (fun b' hb' => by
        obtain rfl := Option.some.inj hb'
        exact ⟨(h0 b hb).1, fun w hw => (h0 b hb).2 w (.tail _ hw)⟩) h
      have k3 := k1 _ rfl
      refine ⟨fun b' hb' => by obtain rfl := Option.some.inj (hb.symm.trans hb'); exact k3,
        fun w hw hv => ?_⟩
      rcases List.mem_cons.1 hw with rfl | hw
      · exact k3.trans (h0 b hb).1 cpos (npos w)
          ((replaces_precedes ((h0 b hb).2 w (.head _))).2 hr)
      · exact k2 w hw hv

theorem selectNM_precedes {p : Params} {fin : Nat} (hp : 0 < p.fFloor) {top : List Nat}
    (hl : top.Pairwise (· < ·)) {c : Choice} (h : selectNM p fin top = some c) :
    ∀ v ∈ top, (choiceOf p fin v).valid p = true → Precedes p fin c (choiceOf p fin v) :=
  (foldl_visit_precedes hp hl (fun b hb => by cases hb) h).2

theorem selectNM_eq_none {p : Params} {fin : Nat} {top : List Nat} :
    selectNM p fin top = none ↔ ∀ v ∈ top, (choiceOf p fin v).valid p = false := by
  unfold selectNM
  induction top with
  | nil => simp
  | cons v l ih =>
    rw [List.foldl_cons]
    cases hv : (choiceOf p fin v).valid p with
    | false =>
      rw [show visit p fin none v = none by simp [visit, hv], ih]
      simp [hv]
    | true =>
      rw [show visit p fin none v = some (choiceOf p fin v) by simp [visit, hv]]
      obtain ⟨c, hc⟩ := foldl_visit_isSome (p := p) (fin := fin) (l := l)
        (b := choiceOf p fin v)
      rw [hc]
      simp [hv]

theorem selectNM_valid {p : Params} {fin : Nat} {top : List Nat} {c : Choice}
    (h : selectNM p fin top = some c) :
    c.valid p = true ∧ ∃ v ∈ top, c = choiceOf p fin v := by
  rcases foldl_visit_some h with h | h
  · cases h
  · exact h

/-! ### Validation (R171-R173) -/

theorem checkEntries_some {fl : Nat} {es : List OutEntry} {seen : List (Fin 16)} {d : Detail}
    (h : checkEntries fl es seen = some d) : d = .foutLow ∨ d = .dupIndex := by
  induction es generalizing seen with
  | nil => cases h
  | cons e es ih =>
    rw [checkEntries] at h
    split at h
    · exact .inl (Option.some.inj h).symm
    · split at h
      · exact .inr (Option.some.inj h).symm
      · exact ih h

theorem pllValidate_some {p : Params} {pll fin : Nat} {es : List OutEntry} {d : Detail}
    (h : pllValidate p pll fin es = some d) : d ≠ .none := by
  unfold pllValidate at h
  split at h
  · obtain rfl := Option.some.inj h; simp
  · split at h
    · obtain rfl := Option.some.inj h; simp
    · rcases checkEntries_some h with rfl | rfl <;> simp

/-! ### The whole computation -/

/-- A computation that fails names a check. -/
theorem pllCompute_error {p : Params} {pll fin : Nat} {es : List OutEntry} {d : Detail}
    (h : pllCompute p pll fin es = .error d) : d ≠ .none := by
  unfold pllCompute at h
  split at h
  · obtain rfl := Except.error.inj h
    exact pllValidate_some ‹_›
  · simp only at h
    split at h
    · obtain rfl := Except.error.inj h; simp
    · split at h
      · obtain rfl := Except.error.inj h; simp
      · split at h
        · obtain rfl := Except.error.inj h; simp
        · split at h
          · obtain rfl := Except.error.inj h; simp
          · cases h

/-- A computation that succeeds: its arguments pass, its pair is selected, Fvco is in range and no
divider is 0. -/
theorem pllCompute_ok {p : Params} {pll fin : Nat} {es : List OutEntry} {r : PllResult}
    (h : pllCompute p pll fin es = .ok r) :
    pllValidate p pll fin es = none ∧ candidates p (activeFreqs es) ≠ [] ∧
    selectNM p fin (topCandidates (activeFreqs es) (candidates p (activeFreqs es))) = some r.sel ∧
    fvcoInRange p fin r.sel = true ∧ (∀ e ∈ es, dividerOf fin r.sel e ≠ 0) ∧
    r.best = bestScore (activeFreqs es) (candidates p (activeFreqs es)) ∧
    r.outs = es.map fun e => (e, dividerOf fin r.sel e) := by
  unfold pllCompute at h
  split at h
  · cases h
  · simp only at h
    split at h
    · cases h
    · split at h
      · cases h
      · split at h
        · cases h
        · split at h
          · cases h
          · obtain rfl := Except.ok.inj h
            rename_i _ hn hc _ _ hs hf hz
            refine ⟨hn, hc, hs, by simpa using hf, fun e he hd => hz ?_, rfl, rfl⟩
            exact List.any_eq_true.2 ⟨e, he, by simpa using hd⟩

/-- PLL_CONFIG's DECODE step rejects, or writes its results and moves to BATCH. -/
theorem pllDecode_cases (pll nout : Nat) (s : State) :
    (∃ d, d ≠ .none ∧ pllDecode pll nout s = s.finish .invalidArgument d) ∨
    (∃ r, pllCompute s.params pll s.finHz (s.outList nout) = .ok r ∧
      pllDecode pll nout s =
        { s with resNm := pllResNm r, resC := pllResC r.outs s.resC }.toBatch
          (pllBatch s.params.regmap (pllBase s.ctrlShadow pll) r) (pllBase s.ctrlShadow pll)
          predPll) := by
  unfold pllDecode
  cases h : pllCompute s.params pll s.finHz (s.outList nout) with
  | error d => exact .inl ⟨d, pllCompute_error h, rfl⟩
  | ok r => exact .inr ⟨r, rfl, rfl⟩

/-- The base word of PLL_CONFIG has both start bits 0 (R190). -/
theorem pllBase_start (shadow : BitVec 16) (pll : Nat) : pllBase shadow pll &&& 3 = 0 := by
  unfold pllBase
  apply BitVec.eq_of_getLsbD_eq
  intro i hi
  have : i = 0 ∨ i = 1 ∨ 2 ≤ i := by omega
  rcases this with rfl | rfl | h
  · simp
  · simp
  · have h3 : (3#16).getLsbD i = false := by
      interval_cases i <;> decide
    simp [h3]

/-! ### The batch (R189-R191) -/

/-- RES_C entries of outputs that are not listed keep their values (R188). -/
theorem pllResC_other {outs : List (OutEntry × Nat)} {v : Vector (BitVec 9) 16} {i : Fin 16}
    (h : ∀ x ∈ outs, x.1.idx ≠ i) : (pllResC outs v)[i] = v[i] := by
  unfold pllResC
  induction outs generalizing v with
  | nil => rfl
  | cons x outs ih =>
    rw [List.foldl_cons, ih fun y hy => h y (.tail _ hy)]
    have := h x (.head _)
    simp only [Fin.getElem_fin]
    rw [Vector.getElem_set_ne]
    intro hc
    exact this (Fin.ext hc)

/-- The RES_C entry of a listed output, its index listed once, is its divider (R188). -/
theorem pllResC_listed {outs : List (OutEntry × Nat)} {v : Vector (BitVec 9) 16}
    {x : OutEntry × Nat} (hx : x ∈ outs) (hd : outs.Pairwise fun x y => x.1.idx ≠ y.1.idx) :
    (pllResC outs v)[x.1.idx] = BitVec.ofNat 9 x.2 := by
  induction outs generalizing v with
  | nil => cases hx
  | cons y outs ih =>
    rw [List.pairwise_cons] at hd
    rcases List.mem_cons.1 hx with rfl | hx
    · have : pllResC (x :: outs) v = pllResC outs (v.set x.1.idx (BitVec.ofNat 9 x.2)) := rfl
      rw [this, pllResC_other fun z hz => (hd.1 z hz).symm]
      simp
    · exact ih hx hd.2

end Sys2Proof.Machine
end

