-- ==== Sys2Proof/Laws/Stages.lean ====
section
/-! SUPPORT. Everything each shared stage can do, said once (40_register_protocol.md R130-R146), and
what a batch's events are (20_memory.md R77). -/

namespace Sys2Proof.Machine

/-! ### The port -/

/-- A port of the default width carries addresses and values unchanged (20_memory.md R70). -/
theorem Params.portAddr_of_eq {p : Params} (h : p.regAddrWidth = 16) (a : RegAddr) :
    p.portAddr a = a := by
  unfold Params.portAddr
  rw [h, Nat.mod_eq_of_lt a.isLt, BitVec.ofNat_toNat, BitVec.setWidth_eq]

theorem Params.portData_of_eq {p : Params} (h : p.regDataWidth = 16) (v : RegData) :
    p.portData v = v := by
  unfold Params.portData
  rw [h, Nat.mod_eq_of_lt v.isLt, BitVec.ofNat_toNat, BitVec.setWidth_eq]

theorem Params.portList_of_eq {p : Params} (ha : p.regAddrWidth = 16) (hd : p.regDataWidth = 16)
    (l : List (RegAddr × RegData)) : p.portList l = l := by
  unfold Params.portList
  simp [Params.portAddr_of_eq ha, Params.portData_of_eq hd]

@[simp] theorem Params.portList_length (p : Params) (l : List (RegAddr × RegData)) :
    (p.portList l).length = l.length := List.length_map _

/-- An operand of the default width is the register's number (10_state.md R28, R37). -/
theorem Params.hz_of_eq {p : Params} (h : p.fWidth = 32) (w : Word) : p.hz w = w.toNat := by
  unfold Params.hz
  rw [h, Nat.mod_eq_of_lt w.isLt]

@[simp] theorem Params.portDraw_fails (p : Params) (d : Draw) : (p.portDraw d).fails = d.fails := rfl
@[simp] theorem Params.portDraw_value (p : Params) (d : Draw) :
    (p.portDraw d).value = p.portData d.value := rfl
@[simp] theorem Params.portDraw_applied (p : Params) (d : Draw) :
    (p.portDraw d).applied = d.applied := rfl
@[simp] theorem Params.portDraw_word (p : Params) (d : Draw) : (p.portDraw d).word = d.word := rfl

/-! ### Draws and events -/

theorem State.draw_of_cons {s : State} {d : Draw} {ds : List Draw} (h : s.draws = d :: ds) :
    s.draw = s.params.portDraw d := by
  unfold State.draw; rw [h]

theorem appliedPairs_sublist (l : List (RegAddr × RegData)) (b : List Bool) :
    (appliedPairs l b).Sublist l := by
  induction l generalizing b with
  | nil => simp [appliedPairs]
  | cons p l ih =>
    cases b with
    | nil => simp [appliedPairs]
    | cons x b =>
      have h : appliedPairs (p :: l) (x :: b) =
          if x then p :: appliedPairs l b else appliedPairs l b := by
        unfold appliedPairs; cases x <;> simp
      rw [h]
      cases x
      · simpa using (ih b).cons p
      · simpa using (ih b).cons_cons p

theorem readEvents_ok {a : RegAddr} {d : Draw} (h : d.fails = false) :
    readEvents a d = [.read a d.value] := by simp [readEvents, h]

theorem readEvents_fail {a : RegAddr} {d : Draw} (h : d.fails = true) :
    readEvents a d = [.readFail a] := by simp [readEvents, h]

theorem batchEvents_ok {l : List (RegAddr × RegData)} {d : Draw} (h : d.fails = false) :
    batchEvents l d = writeEvents l := by simp [batchEvents, h]

theorem batchEvents_fail {l : List (RegAddr × RegData)} {d : Draw} (h : d.fails = true) :
    batchEvents l d = writeEvents (appliedPairs l d.applied) ++ [.batchFail l.length] := by
  simp [batchEvents, h]

/-! ### The stages -/

/-- The BATCH step has three outcomes (R131, R132). -/
theorem batchStage_cases (s : State) :
    (s.draw.fails = true ∧ batchStage s = (s.tWrite s.lBatch).leaveTo .ioerr .finish) ∨
    (s.draw.fails = false ∧ s.params.busyPollCap = true ∧
      batchStage s = { s.tWrite s.lBatch with stage := .poll }) ∨
    (s.draw.fails = false ∧ s.params.busyPollCap = false ∧
      batchStage s = (s.tWrite s.lBatch).leaveTo .done .clear) := by
  unfold batchStage
  cases s.draw.fails <;> cases s.params.busyPollCap <;> simp

/-- The state after the read of a poll step, before its verdict. -/
def State.polled (s : State) (a : RegAddr) : State :=
  { s.tRead a with pollcnt := s.pollcnt + 1 }

@[simp] theorem State.polled_params (s : State) (a : RegAddr) :
    (s.polled a).params = s.params := rfl
@[simp] theorem State.polled_cmd (s : State) (a : RegAddr) : (s.polled a).cmd = s.cmd := rfl
@[simp] theorem State.polled_stat (s : State) (a : RegAddr) : (s.polled a).stat = s.stat := rfl
@[simp] theorem State.polled_fin (s : State) (a : RegAddr) : (s.polled a).fin = s.fin := rfl
@[simp] theorem State.polled_ctrlShadow (s : State) (a : RegAddr) :
    (s.polled a).ctrlShadow = s.ctrlShadow := rfl
@[simp] theorem State.polled_phaseMdeg (s : State) (a : RegAddr) :
    (s.polled a).phaseMdeg = s.phaseMdeg := rfl
@[simp] theorem State.polled_argPoll (s : State) (a : RegAddr) :
    (s.polled a).argPoll = s.argPoll := rfl
@[simp] theorem State.polled_rdata (s : State) (a : RegAddr) : (s.polled a).rdata = s.rdata := rfl
@[simp] theorem State.polled_resNm (s : State) (a : RegAddr) : (s.polled a).resNm = s.resNm := rfl
@[simp] theorem State.polled_pollcnt (s : State) (a : RegAddr) :
    (s.polled a).pollcnt = s.pollcnt + 1 := rfl
@[simp] theorem State.polled_resSteps (s : State) (a : RegAddr) :
    (s.polled a).resSteps = s.resSteps := rfl
@[simp] theorem State.polled_resC (s : State) (a : RegAddr) : (s.polled a).resC = s.resC := rfl
@[simp] theorem State.polled_outFreq (s : State) (a : RegAddr) :
    (s.polled a).outFreq = s.outFreq := rfl
@[simp] theorem State.polled_outCfg (s : State) (a : RegAddr) :
    (s.polled a).outCfg = s.outCfg := rfl
@[simp] theorem State.polled_batch (s : State) (a : RegAddr) : (s.polled a).batch = s.batch := rfl
@[simp] theorem State.polled_mem (s : State) (a : RegAddr) : (s.polled a).mem = s.mem := rfl
@[simp] theorem State.polled_seq (s : State) (a : RegAddr) : (s.polled a).seq = s.seq := rfl
@[simp] theorem State.polled_stage (s : State) (a : RegAddr) : (s.polled a).stage = s.stage := rfl
@[simp] theorem State.polled_term (s : State) (a : RegAddr) : (s.polled a).term = s.term := rfl
@[simp] theorem State.polled_lBatch (s : State) (a : RegAddr) :
    (s.polled a).lBatch = s.lBatch := rfl
@[simp] theorem State.polled_lBase (s : State) (a : RegAddr) : (s.polled a).lBase = s.lBase := rfl
@[simp] theorem State.polled_lSteps (s : State) (a : RegAddr) :
    (s.polled a).lSteps = s.lSteps := rfl
@[simp] theorem State.polled_lPred (s : State) (a : RegAddr) : (s.polled a).lPred = s.lPred := rfl
@[simp] theorem State.polled_history (s : State) (a : RegAddr) :
    (s.polled a).history = s.history ++ readEvents (s.params.portAddr a) s.draw := rfl
@[simp] theorem State.polled_inputs (s : State) (a : RegAddr) :
    (s.polled a).inputs = s.inputs := rfl
@[simp] theorem State.polled_draws (s : State) (a : RegAddr) :
    (s.polled a).draws = s.draws.tail := rfl
@[simp] theorem State.polled_drawCount (s : State) (a : RegAddr) :
    (s.polled a).drawCount = s.drawCount + 1 := rfl
@[simp] theorem State.polled_hostReads (s : State) (a : RegAddr) :
    (s.polled a).hostReads = s.hostReads := rfl

/-- A poll step has four outcomes (R140). -/
theorem pollStage_cases (a : RegAddr) (exit : Stage) (s : State) :
    (s.pollcnt.toNat = s.params.pollLimit ∧ pollStage a exit s = s.leaveTo .timeout exit) ∨
    (s.pollcnt.toNat ≠ s.params.pollLimit ∧ s.draw.fails = true ∧
      pollStage a exit s = (s.polled a).leaveTo .ioerr .finish) ∨
    (s.pollcnt.toNat ≠ s.params.pollLimit ∧ s.draw.fails = false ∧ ∃ o,
      pollVerdict s.lPred s.params.pollLimit (s.pollcnt + 1).toNat s.draw.value = some o ∧
      pollStage a exit s = (s.polled a).leaveTo o exit) ∨
    (s.pollcnt.toNat ≠ s.params.pollLimit ∧ s.draw.fails = false ∧
      pollVerdict s.lPred s.params.pollLimit (s.pollcnt + 1).toNat s.draw.value = none ∧
      pollStage a exit s = s.polled a) := by
  unfold pollStage
  by_cases h : s.pollcnt.toNat = s.params.pollLimit
  · exact .inl ⟨h, if_pos h⟩
  · rw [if_neg h]
    cases hf : s.draw.fails with
    | true => exact .inr (.inl ⟨h, rfl, by simp [State.polled]⟩)
    | false =>
      cases hv : pollVerdict s.lPred s.params.pollLimit (s.pollcnt + 1).toNat s.draw.value with
      | some o => exact .inr (.inr (.inl ⟨h, rfl, o, rfl, by
        simp only [Bool.false_eq_true, if_false]
        rw [hv]; rfl⟩))
      | none => exact .inr (.inr (.inr ⟨h, rfl, rfl, by
        simp only [Bool.false_eq_true, if_false]
        rw [hv]; rfl⟩))

/-- A verdict of a poll step, and when there is none (R140-R142). -/
theorem pollVerdict_eq_some {p : Pred} {limit k : Nat} {v : RegData} {o : Term} :
    pollVerdict p limit k v = some o ↔
      (p.err v ≠ 0 ∧ o = .hwerr (p.err v)) ∨ (p.err v = 0 ∧ p.done v = true ∧ o = .done) ∨
      (p.err v = 0 ∧ p.done v = false ∧ k = limit ∧ o = .timeout) := by
  unfold pollVerdict
  generalize p.err v = e
  rcases eq_or_ne e 0 with rfl | h
  · cases p.done v <;> by_cases hk : k = limit <;> simp [hk, eq_comm]
  · rw [if_pos h]
    simp only [h, false_and, or_false, ne_eq, not_false_eq_true, true_and, Option.some.injEq,
      eq_comm]

theorem pollVerdict_eq_none {p : Pred} {limit k : Nat} {v : RegData} :
    pollVerdict p limit k v = none ↔ p.err v = 0 ∧ p.done v = false ∧ k ≠ limit := by
  unfold pollVerdict
  generalize p.err v = e
  rcases eq_or_ne e 0 with rfl | h
  · cases p.done v <;> by_cases hk : k = limit <;> simp [hk]
  · rw [if_pos h]
    simp only [h, false_and, reduceCtorEq]

/-- The CLEAR step has two outcomes (R143). -/
theorem clearStage_cases (s : State) :
    (s.draw.fails = true ∧ clearStage s =
      { s.tWrite [(s.params.regmap.ctrl, s.lBase)] with
        stage := .finish, stat := { s.stat with clrFail := true } }) ∨
    (s.draw.fails = false ∧ clearStage s =
      { s.tWrite [(s.params.regmap.ctrl, s.lBase)] with stage := .finish }) := by
  unfold clearStage
  cases s.draw.fails <;> simp

/-- FINISH writes STAT by the pending outcome and idles (R144). -/
theorem finishTerm_cases (s : State) :
    (s.term = .done ∧ finishTerm s = s.finish .ok .none) ∨
    (s.term = .timeout ∧ finishTerm s = s.finish .timeout .none) ∨
    (∃ e, s.term = .hwerr e ∧ finishTerm s =
      { s with stat := { s.stat with errcode := e } }.finish .hardwareError .none) ∨
    (s.term = .ioerr ∧ finishTerm s = s.finish .ioError .none) := by
  unfold finishTerm
  cases s.term <;> simp

end Sys2Proof.Machine
end

