-- ==== Sys2Proof/Laws/Step.lean ====
section
/-! SUPPORT. What one step can be (10_state.md R46, R47), and the stages of each command. -/

namespace Sys2Proof.Machine

/-- The four kinds of step. -/
theorem step_cases (s : State) :
    (s.inputs = [] ∧ step s = sequencerTurn s) ∨
    (∃ rest, s.inputs = .turn :: rest ∧ step s = sequencerTurn s.popInput) ∨
    (∃ a rest, s.inputs = .host a :: rest ∧ step s = hostAccess a s.popInput) ∨
    (∃ b rest, s.inputs = .reset b :: rest ∧ step s = .next (resetStep b s.popInput)) := by
  unfold step move
  cases h : s.inputs with
  | nil => exact .inl ⟨rfl, rfl⟩
  | cons x rest =>
    cases x with
    | turn => exact .inr (.inl ⟨rest, rfl, rfl⟩)
    | host a => exact .inr (.inr (.inl ⟨a, rest, rfl, rfl⟩))
    | reset b => exact .inr (.inr (.inr ⟨b, rest, rfl, rfl⟩))

/-- The sequencer's turn: idle, an illegal word, or a step of the command. -/
theorem sequencerTurn_cases (s : State) :
    (s.seq = .idle ∧ sequencerTurn s = .next s) ∨
    (s.seq = .exec ∧ decode s.cmd = .unknownOpcode ∧
      sequencerTurn s = .next (s.finish .illegalCommand .unknownOpcode)) ∨
    (s.seq = .exec ∧ decode s.cmd = .reservedBits ∧
      sequencerTurn s = .next (s.finish .illegalCommand .reservedBits)) ∨
    (s.seq = .exec ∧ ∃ i, decode s.cmd = .instr i ∧ sequencerTurn s = exec i s) := by
  unfold sequencerTurn
  cases h : s.seq with
  | idle => exact .inl ⟨rfl, rfl⟩
  | exec =>
    cases hd : decode s.cmd with
    | unknownOpcode => exact .inr (.inl ⟨rfl, rfl, rfl⟩)
    | reservedBits => exact .inr (.inr (.inl ⟨rfl, rfl, rfl⟩))
    | instr i => exact .inr (.inr (.inr ⟨rfl, i, rfl, rfl⟩))

/-- Reset leaves the reset state, but for the history of a transaction it cuts short
(70_reset_and_hazards.md R311, R312). -/
theorem resetStep_cases (b : Bool) (s : State) :
    resetStep b s = s.resetBlock ∨
      ∃ t, s.transaction = some t ∧
        resetStep b s = { s.popDraw.resetBlock with history := abortEvents t s.draw } := by
  unfold resetStep
  cases b <;> cases h : s.transaction <;> simp

/-- A transaction is in flight exactly in the stages that perform one. -/
theorem transaction_eq_none {s : State} : s.transaction = none ↔ ¬ InTransaction s := by
  unfold State.transaction InTransaction
  cases hs : s.seq with
  | idle => simp
  | exec =>
    cases hd : decode s.cmd with
    | unknownOpcode => simp
    | reservedBits => simp
    | instr i => cases hst : s.stage <;> cases i <;> simp [hasStage]

/-! ### One step, by the next move listed -/

theorem step_nil {s : State} (h : s.inputs = []) : step s = sequencerTurn s := by
  unfold step move; rw [h]

theorem step_turn {s : State} {rest : List Input} (h : s.inputs = .turn :: rest) :
    step s = sequencerTurn { s with inputs := rest } := by
  unfold step move State.popInput; rw [h]; rfl

theorem step_host {s : State} {a : HostAccess} {rest : List Input}
    (h : s.inputs = .host a :: rest) : step s = hostAccess a { s with inputs := rest } := by
  unfold step move State.popInput; rw [h]; rfl

theorem step_reset {s : State} {b : Bool} {rest : List Input} (h : s.inputs = .reset b :: rest) :
    step s = .next (resetStep b { s with inputs := rest }) := by
  unfold step move State.popInput; rw [h]; rfl

/-- A host write of a mapped word. -/
theorem step_hostWrite {s : State} {off : Nat} {w : Word} {rest : List Input} {l : Loc}
    (h : s.inputs = .host ⟨s.params.hostBase + off, 4, .write w⟩ :: rest)
    (hl : locAt s.params off = some l) : step s = .next (hostWrite l w { s with inputs := rest }) := by
  rw [step_host h]
  unfold hostAccess
  rw [show ({ s with inputs := rest } : State).params = s.params from rfl,
    locate_base_add _ _ hl]

/-- A host read of a mapped word. -/
theorem step_hostRead {s : State} {off : Nat} {rest : List Input} {l : Loc}
    (h : s.inputs = .host ⟨s.params.hostBase + off, 4, .read⟩ :: rest)
    (hl : locAt s.params off = some l) : step s = hostRead off l { s with inputs := rest } := by
  rw [step_host h]
  unfold hostAccess
  rw [show ({ s with inputs := rest } : State).params = s.params from rfl,
    locate_base_add _ _ hl]

/-- The sequencer's turn on a command. -/
theorem sequencerTurn_instr {s : State} {i : Instr} (hs : s.seq = .exec)
    (hd : decode s.cmd = .instr i) : sequencerTurn s = exec i s := by
  unfold sequencerTurn; rw [hs, hd]

/-! ### Runs -/

theorem run_succ_of (M : Host.Core) (k : Nat) {s t : M.State} (h : M.step s = .next t) :
    M.run (k + 1) s = M.run k t := by
  rw [Host.Core.run, h]

theorem run_fault_of (M : Host.Core) (k : Nat) {s : M.State} {f : M.Fault}
    (h : M.step s = .fault f) : M.run (k + 1) s = .fault f := by
  rw [Host.Core.run, h]

theorem core_run_fault (k : Nat) {s : State} {f : Fault} (h : step s = .fault f) :
    core.run (k + 1) s = .fault f := run_fault_of core k h

theorem core_run_succ (k : Nat) {s t : State} (h : step s = .next t) :
    core.run (k + 1) s = core.run k t := run_succ_of core k h

/-! ### The stages of the configuration commands -/

/-- A configuration command has every stage. -/
theorem hasStage_of_isConfig {i : Instr} (h : isConfig i = true) (st : Stage) :
    hasStage i st = true := by
  cases i <;> first | rfl | cases h

/-- After DECODE the three configuration commands do the same (40_register_protocol.md R130). -/
theorem exec_of_isConfig {i : Instr} (h : isConfig i = true) (s : State) :
    ∃ dec : State → State, exec i s = .next (configStages dec s) := by
  cases i <;> first | exact ⟨_, rfl⟩ | cases h

end Sys2Proof.Machine
end

