-- ==== Sys2Proof/Tests/Slice0.lean ====
section
/-! SUPPORT. Tests. Expected values come from spec/ (the vectors of 95_test_vectors.md, named by their
V- number, or the rule named); each witness shows a concrete state and operands that meet every
hypothesis of one obligation, clause by clause where it has clauses. -/

namespace Sys2Proof.Tests

open Sys2Proof.Machine

/-! ### Helpers -/

/-- The next state of a step, if it has one. -/
def nextOf : Machine.Step → Option State
  | .next t => some t
  | .fault _ => none
  | .refused _ => none

/-- The fault of a step, if it is one. -/
def faultOf : Machine.Step → Option Fault
  | .next _ => none
  | .fault f => some f
  | .refused _ => none

/-- One value of the next state. -/
def after (x : Machine.Step) {α : Type} (f : State → α) : Option α := (nextOf x).map f

/-- The state in which command `i` runs at stage `st`. -/
def running (i : Instr) (st : Stage) : State :=
  { State.reset with
    cmd := encode i
    stat := ⟨true, .ok, false, false, .none, 0⟩
    seq := .exec
    stage := st }

/-- A transaction answered OK, a read of it giving `v`. -/
def okDraw (v : RegData) : Draw := ⟨false, v, [], 0⟩

/-- A transaction answered IOERR, a batch having applied the pairs `applied` says. -/
def failDraw (applied : List Bool) : Draw := ⟨true, 0, applied, 0⟩

/-- The output table with its first entries `es` as (index, frequency, bypass). -/
def withOutputs (s : State) (fin : Word) (f0 f1 : Word) (c0 c1 : BitVec 5) : State :=
  { s with
    fin := fin
    outFreq := (s.outFreq.set 0 f0).set 1 f1
    outCfg := (s.outCfg.set 0 c0).set 1 c1 }

/-! ### Well-formedness: each check refuses an ill-formed command -/

theorem test_wf_count : (Instr.regWrite 128).wellFormed = false := by decide
theorem test_wf_pll_config : (Instr.pllConfig 32 1).wellFormed = false := by decide
theorem test_wf_nout_low : (Instr.pllConfig 0 0).wellFormed = false := by decide
theorem test_wf_nout_high : (Instr.pllConfig 0 17).wellFormed = false := by decide
theorem test_wf_pll_fixed : (Instr.phaseFixed 32 0).wellFormed = false := by decide
theorem test_wf_pll_search : (Instr.phaseSearch 32 0).wellFormed = false := by decide
theorem test_wf_nsamp_pack12 : (Instr.pack12 65536 false).wellFormed = false := by decide
theorem test_wf_nsamp_unpack12 : (Instr.unpack12 65536 false).wellFormed = false := by decide
theorem test_wf_nsamp_pack16 : (Instr.pack16 65536 false).wellFormed = false := by decide
theorem test_wf_nsamp_unpack16 : (Instr.unpack16 65536 true).wellFormed = false := by decide
theorem test_wf_accepts :
    [Instr.nop, .regRead 0xFFFF, .regWrite 127, .poll 0, .pllConfig 31 16, .phaseFixed 31 15,
      .phaseSearch 0 0, .pack12 65535 true, .unpack12 0 false, .pack16 65535 false,
      .unpack16 65535 true].all Instr.wellFormed = true := by decide

/-! ### Decoding: a word of every command, its bits written out from the formats of
30_encoding.md R101-R105 (leftmost bit 31), and the vectors V-EN -/

theorem test_decode_nop :
    decode 0b00000000000000000000000000000000 = .instr .nop := by decide
-- 31..24 zero, 23..8 ADDR = 0x0021, 7..0 OP = 0x01 (V-EN-3)
theorem test_decode_regRead :
    decode 0b00000000_0000000000100001_00000001 = .instr (.regRead 0x0021) := by decide
-- 31..15 zero, 14..8 COUNT = 3, 7..0 OP = 0x02 (V-EN-5)
theorem test_decode_regWrite :
    decode 0b00000000000000000_0000011_00000010 = .instr (.regWrite 3) := by decide
-- ADDR = 0x8001, OP = 0x03
theorem test_decode_poll :
    decode 0b00000000_1000000000000001_00000011 = .instr (.poll 0x8001) := by decide
-- 31..17 zero, 16..13 SEL = 1, 12..8 PLL = 3, 7..0 OP = 0x10 (V-EN-9)
theorem test_decode_pllConfig :
    decode 0b000000000000000_0001_00011_00010000 = .instr (.pllConfig 3 2) := by decide
-- SEL = 15, PLL = 15, OP = 0x11 (V-EN-14)
theorem test_decode_phaseFixed :
    decode 0b000000000000000_1111_01111_00010001 = .instr (.phaseFixed 15 15) := by decide
-- SEL = 15, PLL = 2, OP = 0x12 (V-EN-15)
theorem test_decode_phaseSearch :
    decode 0b000000000000000_1111_00010_00010010 = .instr (.phaseSearch 2 15) := by decide
-- 31..16 NSAMP = 2, 15..9 zero, 8 MIMO = 1, 7..0 OP = 0x20 (V-EN-16)
theorem test_decode_pack12 :
    decode 0b0000000000000010_0000000_1_00100000 = .instr (.pack12 2 true) := by decide
-- NSAMP = 1024, MIMO = 1, OP = 0x21 (V-EN-19)
theorem test_decode_unpack12 :
    decode 0b0000010000000000_0000000_1_00100001 = .instr (.unpack12 1024 true) := by decide
-- NSAMP = 512, MIMO = 1, OP = 0x22 (V-EN-21)
theorem test_decode_pack16 :
    decode 0b0000001000000000_0000000_1_00100010 = .instr (.pack16 512 true) := by decide
-- NSAMP = 65535, MIMO = 0, OP = 0x23
theorem test_decode_unpack16 :
    decode 0b1111111111111111_0000000_0_00100011 = .instr (.unpack16 65535 false) := by decide
-- V-EN-2, 4, 7, 12, 17: a must-be-zero bit of each format is 1
theorem test_decode_reserved :
    [0x00000200, 0x01000001, 0x00008002, 0x00020010, 0x00000220].map decode =
      List.replicate 5 .reservedBits := by decide
-- V-EN-22 to V-EN-26
theorem test_decode_unknown :
    [0x00000004, 0x00000013, 0x00000024, 0x000000FF, 0xFFFFFF04].map decode =
      List.replicate 5 .unknownOpcode := by decide
theorem test_decodeTableWord_short : decodeTableWord 8 0x11 = some (.phaseFixed 0 0) := by decide
theorem test_decodeTableWord_long : decodeTableWord 40 0x11 = none := by decide

/-! ### One step of each command -/

-- V-RP-1: STAT reads 0 after a NOP
theorem test_nop_stat :
    after (step (State.reset.withFetchWord 32 0x00000000)) (fun t => t.stat.word) = some 0 := by
  decide
-- V-RP-2, V-RP-3
theorem test_regRead_ok :
    after (exec (.regRead 0x0021) { running (.regRead 0x0021) .decode with
      draws := [okDraw 0x0081] }) (fun t => (t.rdata, t.stat.word, t.history)) =
      some (0x0081, 0, [.read 0x0021 0x0081]) := by decide
theorem test_regRead_fails :
    after (exec (.regRead 0x1234) { running (.regRead 0x1234) .decode with
      rdata := 0x81
      draws := [failDraw []] }) (fun t => (t.rdata, t.stat.word, t.history)) =
      some (0x0081, 4, [.readFail 0x1234]) := by decide
-- V-RP-6, V-RP-9
theorem test_regWrite_zero :
    after (exec (.regWrite 0) (running (.regWrite 0) .decode)) (fun t => t.stat.word) =
      some 0x00000B02 := by decide
theorem test_regWrite_fails :
    after (exec (.regWrite 2) { running (.regWrite 2) .batch with
      lBatch := [(0x0026, 0x0003), (0x0023, 0x0001)]
      draws := [failDraw [true]] }) (fun t => (t.history, t.stage, t.term)) =
      some ([.write 0x0026 0x0003, .batchFail 2], .finish, .ioerr) := by decide
-- V-RP-18; V-RP-11: the error field comes before the done bit
theorem test_poll_reserved :
    after (exec (.poll 0x0021) { running (.poll 0x0021) .decode with argPoll := 0x00002000 })
      (fun t => t.stat.word) = some 0x00000C02 := by decide
theorem test_poll_error_first :
    after (exec (.poll 0x0021) { running (.poll 0x0021) .poll with
      lPred := predOfArg 0x00000970
      draws := [okDraw 0x0181] }) (fun t => (t.term, t.stage, t.pollcnt)) =
      some (.hwerr 3, .finish, 1) := by decide
-- V-PLL-4: RES_NM, RES_C[0] and the batch; V-PLL-13: DUP_INDEX
theorem test_pllConfig_batch :
    after (exec (.pllConfig 0 1)
      (withOutputs (running (.pllConfig 0 1) .decode) 5000000 650000000 0 0 0))
      (fun t => (t.resNm.word, t.resC[0], t.lBatch)) =
      some (0x00018201, 1, [(0x0026, 0x0003), (0x002A, 0x0100), (0x002B, 0x4141),
        (0x002E, 0x0100), (0x0027, 0x5557), (0x0028, 0x5555), (0x0023, 0x0001)]) := by
  set_option maxRecDepth 100000 in decide
theorem test_pllConfig_dup :
    after (exec (.pllConfig 0 2)
      (withOutputs (running (.pllConfig 0 2) .decode) 30720000 30720000 61440000 0 0))
      (fun t => t.stat.word) = some 0x00000402 := by decide
-- V-PH-2: -45 degrees at C = 20 is -19 steps; V-PH-8: NOT_CONFIGURED
theorem test_phaseFixed_negative :
    after (exec (.phaseFixed 0 1) { running (.phaseFixed 0 1) .decode with
      phaseMdeg := 0xFFFF5038
      resC := State.reset.resC.set 1 20 }) (fun t => (t.resSteps.word, t.lBatch)) =
      some (0x00000013, [(0x0023, 0x0300), (0x0024, 0x0013), (0x0023, 0x0302)]) := by decide
theorem test_phaseFixed_not_configured :
    after (exec (.phaseFixed 0 5) (running (.phaseFixed 0 5) .decode)) (fun t => t.stat.word) =
      some 0x00000D02 := by decide
-- V-PH-6b; V-PH-11's status word
theorem test_phaseSearch_batch :
    after (exec (.phaseSearch 3 2) { running (.phaseSearch 3 2) .decode with
      ctrlShadow := 0xE31C
      resC := State.reset.resC.set 2 42 }) (fun t => (t.resSteps.word, t.lBatch)) =
      some (0x0001014F, [(0x0023, 0xE41C), (0x0024, 0x014F), (0x0023, 0xE41E)]) := by decide
theorem test_phaseSearch_error :
    after (exec (.phaseSearch 0 1) { running (.phaseSearch 0 1) .poll with
      lPred := predSearch
      draws := [okDraw 0x0008] }) (fun t => (t.term, t.stage)) = some (.hwerr 1, .clear) := by
  decide
-- V-CD-3, V-CD-19
theorem test_pack12_record :
    after (exec (.pack12 1 false) { running (.pack12 1 false) .decode with
      mem := Memory.writeWord [] 0x1000 0xF80007FF }) (fun t => t.mem.readBytes 0x2000 3) =
      some (some [0xFF, 0x07, 0x80]) := by decide
theorem test_pack12_unwritten :
    faultOf (exec (.pack12 1 false) (running (.pack12 1 false) .decode)) =
      some .unwrittenRead := by decide
-- V-CD-11
theorem test_unpack12_entry :
    after (exec (.unpack12 1 false) { running (.unpack12 1 false) .decode with
      mem := Memory.writeBytes [] 0x2000 [0x34, 0x12, 0xAB] }) (fun t => t.mem.readWord 0x1000) =
      some (some 0xFAB10234) := by decide
-- V-CD-5
theorem test_pack16_record :
    after (exec (.pack16 1 false) { running (.pack16 1 false) .decode with
      mem := Memory.writeWord [] 0x1000 0x04560123 }) (fun t => t.mem.readBytes 0x2000 4) =
      some (some [0x30, 0x12, 0x60, 0x45]) := by decide
-- V-CD-13: bits 3:0 of a wire word are ignored
theorem test_unpack16_entry :
    after (exec (.unpack16 1 false) { running (.unpack16 1 false) .decode with
      mem := Memory.writeBytes [] 0x2000 [0x0A, 0x00, 0x05, 0xFF] })
      (fun t => t.mem.readWord 0x1000) = some (some 0xFFF00000) := by decide
-- V-EN-26 and V-EN-2: the STAT word of an illegal command
theorem test_illegal_stat :
    (after (step (State.reset.withFetchWord 32 0xFFFFFF04)) (fun t => t.stat.word),
      after (step (State.reset.withFetchWord 32 0x00000200)) (fun t => t.stat.word)) =
      (some 0x0000090A, some 0x00000A0A) := by decide

/-! ### Witnesses: for each obligation with hypotheses, a state and operands that meet them all -/

/-- A host access at window offset `off` (HOST_BASE is 0 here). -/
def sw (off : Nat) (w : Word) : Input := .host ⟨off, 4, .write w⟩
def lw (off : Nat) : Input := .host ⟨off, 4, .read⟩

/-- Whether a single host access at `off` is a bus error. -/
def busError (bytes : Nat) (off : Nat) : Bool :=
  faultOf (step { State.reset with inputs := [.host ⟨off, bytes, .write 0⟩] }) =
    some .hostBusError

theorem test_witness_DecodeOfEncodeIsIdentity :
    [Instr.regWrite 0, .regWrite 127, .pllConfig 31 16, .pllConfig 0 1, .phaseFixed 31 15,
      .pack12 65535 true].all Instr.wellFormed = true := by decide
theorem test_witness_EncodeOfDecodeIsIdentity : decode 0x0001FF10 = .instr (.pllConfig 31 16) := by
  decide
theorem test_witness_IllegalWordsFinishAtOnce :
    let s := { running .nop .decode with cmd := 0xFFFFFF04 }
    let u := { running .nop .decode with cmd := 0x00000100 }
    let v := { s with inputs := [.turn, lw 4] }
    (s.inputs = [] ∧ s.seq = .exec ∧ decode s.cmd = .unknownOpcode) ∧
      (u.inputs = [] ∧ u.seq = .exec ∧ decode u.cmd = .reservedBits) ∧
      (v.inputs = .turn :: [lw 4] ∧ v.seq = .exec ∧ decode v.cmd = .unknownOpcode) := by decide
theorem test_witness_StepRunsTheDecodedCommand :
    let s := running (.poll 0x0021) .poll
    let u := { s with inputs := [.turn, lw 4] }
    (s.seq = .exec ∧ decode s.cmd = .instr (.poll 0x0021) ∧ s.inputs = []) ∧
      (u.seq = .exec ∧ decode u.cmd = .instr (.poll 0x0021) ∧ u.inputs = .turn :: [lw 4]) := by
  decide
theorem test_witness_PlacedWordIsRunByTheNextStep :
    decodeTableWord 32 0x0001E212 = some (.phaseSearch 2 15) := by decide
theorem test_witness_IdleBlockDoesNothing :
    (State.reset.inputs = [] ∧ State.reset.seq = .idle) ∧
      ({ State.reset with inputs := [.turn, .turn] } : State).inputs = .turn :: [.turn] := by decide
theorem test_witness_ResetEndsACommand_batch :
    let s := { running (.regWrite 1) .batch with inputs := [.reset true] }
    s.inputs = .reset true :: [] ∧ s.seq = .exec ∧ decode s.cmd = .instr (.regWrite 1) ∧
      s.stage = .batch ∧ hasStage (.regWrite 1) .batch = true := by decide
theorem test_witness_ResetEndsACommand_clear :
    let s := { running (.phaseFixed 0 1) .clear with inputs := [.reset true] }
    s.inputs = .reset true :: [] ∧ s.seq = .exec ∧ decode s.cmd = .instr (.phaseFixed 0 1) ∧
      s.stage = .clear ∧ isConfig (.phaseFixed 0 1) = true := by decide
theorem test_witness_ResetEndsACommand_status :
    let s := { running (.pllConfig 0 1) .poll with inputs := [.reset true] }
    s.inputs = .reset true :: [] ∧ s.seq = .exec ∧ decode s.cmd = .instr (.pllConfig 0 1) ∧
      s.stage = .poll ∧ isConfig (.pllConfig 0 1) = true := by decide
theorem test_witness_ResetEndsACommand_poll :
    let s := { running (.poll 0x0021) .poll with inputs := [.reset true] }
    s.inputs = .reset true :: [] ∧ s.seq = .exec ∧ decode s.cmd = .instr (.poll 0x0021) ∧
      s.stage = .poll := by decide
theorem test_witness_ResetEndsACommand_read :
    let s := { running (.regRead 0x0021) .decode with inputs := [.reset true] }
    s.inputs = .reset true :: [] ∧ s.seq = .exec ∧ decode s.cmd = .instr (.regRead 0x0021) ∧
      s.stage = .decode := by decide
theorem test_witness_ResetEndsACommand_quiet :
    let s := { running (.poll 0x0021) .poll with inputs := [.reset false] }
    let u := { State.reset with inputs := [.reset true] }
    let v := { running (.phaseFixed 0 1) .finish with inputs := [.reset true] }
    s.inputs = .reset false :: [] ∧ (u.inputs = .reset true :: [] ∧ ¬ InTransaction u) ∧
      (v.inputs = .reset true :: [] ∧ ¬ InTransaction v) :=
  ⟨rfl, ⟨rfl, transaction_eq_none.1 (by decide)⟩, rfl, transaction_eq_none.1 (by decide)⟩
theorem test_witness_ResetEndsACommand_inTransaction : InTransaction (running (.regWrite 1) .batch) :=
  ⟨rfl, .regWrite 1, by decide, .inl ⟨rfl, rfl⟩⟩
-- the ends of every mapped range (10_state.md section 1), a misaligned and a narrow access
theorem test_witness_BusErrorExactly :
    ([0x0, 0x24, 0x40, 0x7C, 0x100, 0x17C, 0x200, 0x2FC, 0x1000, 0x2FFC].map (busError 4) =
      List.replicate 10 false) ∧
    ([0x28, 0x3C, 0x80, 0xFC, 0x180, 0x1FC, 0x300, 0xFFC, 0x3000, 0x2].map (busError 4) =
      List.replicate 10 true) ∧ busError 2 0 = true := by decide

/-- Parameters in range with every width and size of 00_scope.md R7 below its default. -/
def smallParams : Params :=
  { Config.defaults with
    fWidth := 24, outCount := 8, regAddrWidth := 8, regDataWidth := 12, batchMax := 4
    sampleEntries := 16, wireBytes := 64 }

theorem test_witness_BusErrorExactly_params : smallParams.Ok ∧ State.reset.params.Ok := by
  constructor <;> constructor <;> decide

-- R7: the last entry of each smaller table and RAM, and the word after it
theorem test_sizes_below_the_defaults :
    [0x5C, 0x13C, 0x20C, 0x103C, 0x203C].map (fun off => (locAt smallParams off).isSome) =
      List.replicate 5 true ∧
    [0x60, 0x140, 0x210, 0x1040, 0x2040].map (fun off => (locAt smallParams off).isSome) =
      List.replicate 5 false := by decide
-- R7: an operand and a transaction keep the low bits of their widths
theorem test_widths_below_the_defaults :
    smallParams.hz 0xFF000001 = 1 ∧ smallParams.portAddr 0x1234 = 0x34 ∧
      smallParams.portData 0xF234 = 0x234 := by decide
theorem test_witness_WriteOfCmdAcceptsACommand :
    let s := { State.reset with inputs := [sw 0 0x2310] }
    s.inputs = .host ⟨s.params.hostBase, 4, .write 0x2310⟩ :: [] ∧ s.stat.busy = false := by decide
theorem test_witness_HostCannotDisturbARunningCommand :
    let s := { running .nop .decode with inputs := [sw 0x2FFC 1] }
    s.inputs = .host ⟨s.params.hostBase + 0x2FFC, 4, .write 1⟩ :: [] ∧ s.stat.busy = true ∧
      locAt s.params 0x2FFC = some (.wram 1023) ∧ after (step s) (fun t => t.stat.ovr) = some true := by
  decide
theorem test_witness_WriteOfStatClearsOnlyOvr :
    let s := { State.reset with inputs := [sw 4 0x10] }
    s.inputs = .host ⟨s.params.hostBase + 4, 4, .write 0x10⟩ :: [] := by decide
theorem test_witness_ReadWhileBusy :
    [(0, Loc.cmd), (4, .stat), (0x20, .pollcnt), (0x18, .rdata), (0x1000, .sram 0)].all (fun x =>
      let s := { running .nop .decode with inputs := [lw x.1] }
      decide (s.inputs = .host ⟨s.params.hostBase + x.1, 4, .read⟩ :: [] ∧
        locAt s.params x.1 = some x.2 ∧ s.stat.busy = true)) = true := by decide
-- a RAM word with its last byte unwritten; a written RAM word; a register
theorem test_witness_IdleReadHasNoEffect :
    let s := { State.reset with
      mem := Memory.writeBytes [] 0x2000 [1, 2, 3, 4, 5, 6, 7], inputs := [lw 0x2004] }
    let u := { s with inputs := [lw 0x2000] }
    let v := { s with inputs := [lw 0x7C] }
    (s.inputs = .host ⟨s.params.hostBase + 0x2004, 4, .read⟩ :: [] ∧
      locAt s.params 0x2004 = some (.wram 1) ∧ s.stat.busy = false ∧ s.mem.read (0x2004 + 3) = none) ∧
    (u.inputs = .host ⟨u.params.hostBase + 0x2000, 4, .read⟩ :: [] ∧
      locAt u.params 0x2000 = some (.wram 0) ∧ u.mem.read 0x2000 = some 1 ∧ u.mem.read 0x2001 = some 2 ∧
      u.mem.read 0x2002 = some 3 ∧ u.mem.read 0x2003 = some 4) ∧
    (v.inputs = .host ⟨v.params.hostBase + 0x7C, 4, .read⟩ :: [] ∧
      locAt v.params 0x7C = some (.resC 15)) := by decide
-- every register and the ends of every table are mapped; RES_NM and RES_STEPS read as R33 and R35 say
theorem test_witness_IdleReadHasNoEffect_registers :
    let s := { State.reset with resNm := ⟨1, 240, 2⟩, resSteps := ⟨0x14F, true⟩ }
    [0x000, 0x004, 0x008, 0x00C, 0x010, 0x014, 0x018, 0x01C, 0x020, 0x024, 0x040, 0x040 + 4 * 15,
      0x100, 0x100 + 8 * 15, 0x104, 0x104 + 8 * 15, 0x200, 0x200 + 4 * 63].all
        (fun off => (locAt s.params off).isSome) = true ∧
    after (step { s with inputs := [lw 0x1C] }) (fun t => t.hostReads) = some [(0x1C, 0x2F001)] ∧
    after (step { s with inputs := [lw 0x24] }) (fun t => t.hostReads) =
      some [(0x24, 0x1014F)] := by decide
theorem test_witness_WrittenRegistersReadBack :
    ((0x17C : Nat) = 0x104 + 8 * 15 ∧ (0x2FC : Nat) = 0x200 + 4 * 63) ∧
    (15 < State.reset.params.outCount ∧ 63 < State.reset.params.batchMax) ∧
    [0x08, 0x0C, 0x10, 0x14, 0x100, 0x178, 0x104, 0x17C, 0x200, 0x2FC].all (fun off =>
      let s := { State.reset with inputs := [sw off 0xFFFFFFFF, lw off] }
      decide (s.stat.busy = false ∧ s.inputs =
        [.host ⟨s.params.hostBase + off, 4, .write 0xFFFFFFFF⟩,
          .host ⟨s.params.hostBase + off, 4, .read⟩])) = true := by decide
theorem test_witness_ReadOnlyRegistersIgnoreWrites :
    (0x7C : Nat) = 0x40 + 4 * 15 ∧ 15 < State.reset.params.outCount ∧
    [0x18, 0x1C, 0x20, 0x24, 0x40, 0x7C].all (fun off =>
      let s := { State.reset with inputs := [sw off 1] }
      decide (s.stat.busy = false ∧
        s.inputs = .host ⟨s.params.hostBase + off, 4, .write 1⟩ :: [])) = true := by decide
theorem test_witness_HostWriteOfRamWritesFourBytes :
    [0x1000, 0x1FFC, 0x2000, 0x2FFC].all (fun off =>
      let s := { State.reset with inputs := [sw off 1] }
      decide (((0x1000 ≤ off ∧ off < 0x2000 ∧ off < 0x1000 + 4 * s.params.sampleEntries) ∨
          (0x2000 ≤ off ∧ off < 0x3000 ∧ off + 4 ≤ 0x2000 + s.params.wireBytes)) ∧
        off % 4 = 0 ∧ s.stat.busy = false ∧
        s.inputs = .host ⟨s.params.hostBase + off, 4, .write 1⟩ :: [])) = true := by decide

theorem test_witness_RegReadReturnsTheRegister :
    (okDraw 0x0081).fails = false ∧ (failDraw []).fails = true := by decide
-- counts 0, 1, 64, 65
theorem test_witness_RegWriteTakesItsBatch :
    let s := running (.regWrite 1) .decode
    s.params.Ok ∧ s.stage = .decode ∧
      ((0 : Nat) = 0 ∨ s.params.batchMax < 0) ∧ ((65 : Nat) = 0 ∨ s.params.batchMax < 65) ∧
      (1 ≤ 1 ∧ 1 ≤ s.params.batchMax) ∧ (1 ≤ 64 ∧ 64 ≤ s.params.batchMax) :=
  ⟨by constructor <;> decide, by decide⟩
theorem test_witness_BatchStepWritesInOrder :
    [Instr.regWrite 1, .pllConfig 0 1, .phaseFixed 0 1, .phaseSearch 0 1].all (fun i =>
      decide ((running i .batch).stage = .batch) && hasStage i .batch) = true := by decide
-- ARG_POLL of V-RP-10, V-RP-16, V-RP-17, V-RP-18
theorem test_witness_PollChecksItsPredicate :
    (running (.poll 0) .decode).stage = .decode ∧
    (¬ (0x970 / 2 ^ 13 ≠ 0 ∨ 16 < 0x970 / 2 ^ 8 % 2 ^ 5 ∨
      16 < 0x970 / 2 ^ 4 % 2 ^ 4 + 0x970 / 2 ^ 8 % 2 ^ 5)) ∧
    16 < 0x1170 / 2 ^ 8 % 2 ^ 5 ∧ 16 < 0x980 / 2 ^ 4 % 2 ^ 4 + 0x980 / 2 ^ 8 % 2 ^ 5 ∧
    0x2000 / 2 ^ 13 ≠ 0 := by decide
-- the last read of a loop (POLLCNT = 300), for each outcome of a read
theorem test_witness_PollStepReadsStatusOnce :
    [okDraw 0x0181, okDraw 0x0001, okDraw 0x0000, failDraw []].all (fun d =>
      let s := { running (.phaseFixed 0 1) .poll with
        lPred := predPll, pollcnt := 300, draws := [d] }
      decide (isConfig (.phaseFixed 0 1) = true ∧ s.stage = .poll ∧
        s.pollcnt.toNat < s.params.pollLimit ∧ s.params.pollLimit ≤ 65535 ∧
        s.lPred.errLsb.toNat + s.lPred.errWidth.toNat ≤ 16 ∧ s.draw = d)) = true ∧
    (300 + 1 = State.reset.params.pollLimit ∧ 299 + 1 < State.reset.params.pollLimit) := by
  decide
theorem test_witness_ClearStepIsBestEffort :
    [Instr.pllConfig 0 1, .phaseFixed 0 1, .phaseSearch 0 1].all (fun i =>
      isConfig i && decide ((running i .clear).stage = .clear)) = true := by decide
theorem test_witness_FinishStepReportsTheOutcome :
    [Term.done, .timeout, .hwerr 3, .ioerr].all (fun t =>
      let s := { running (.poll 0) .finish with term := t }
      hasStage (.poll 0) .finish && decide (s.stage = .finish ∧ s.term = t)) = true := by decide
theorem test_witness_ConfigurationSequenceSucceeds :
    let s := { running (.phaseFixed 0 1) .batch with
      lPred := predPll, draws := [okDraw 0, okDraw 1, okDraw 0] }
    isConfig (.phaseFixed 0 1) = true ∧ decode s.cmd = .instr (.phaseFixed 0 1) ∧
      s.seq = .exec ∧ s.stage = .batch ∧ s.inputs = [] ∧ s.params.busyPollCap = true ∧
      1 ≤ s.params.pollLimit ∧ s.pollcnt = 0 ∧
      s.draws = okDraw 0 :: okDraw 1 :: okDraw 0 :: [] ∧ (okDraw 0).fails = false ∧
      s.lPred.err (okDraw 1).value = 0 ∧ s.lPred.done (okDraw 1).value = true := by decide

/-! #### PLL_CONFIG -/

/-- One output of 1 200 000 000 Hz from FIN = 5 000 000: the only candidate is the frequency itself,
with N = 1, M = 240, C = 1. -/
def oneOutput : State := withOutputs (running (.pllConfig 0 1) .decode) 5000000 1200000000 0 0 0

theorem test_witness_params : State.reset.params.Ok := by constructor <;> decide

-- R142: the waits of a loop of POLL_LIMIT reads add up to POLL_TIMEOUT
theorem test_poll_limit :
    (Config.defaults.pollLimit - 1) * Config.defaults.pollIntervalMs =
      Config.defaults.pollTimeoutMs := by decide

theorem test_witness_defaults :
    { State.reset.params with hostBase := 0 } = Config.defaults := by decide

/-- The arguments of a state whose one listed output is not bypassed and not below F_FLOOR. -/
theorem argsOk_one {s : State} (h : 0 < s.params.pllCount)
    (hf : s.params.fFloor ≤ s.finHz) (he : s.params.fFloor ≤ (s.entry 0).freq) :
    PllArgsOk s 0 1 :=
  ⟨h, hf, le_refl _, by decide, fun j hj => by
    obtain rfl : j = 0 := Fin.ext (by simpa using hj)
    exact ⟨.inr he, fun i hi => absurd hi (by simp)⟩⟩

/-- With one output above VCO_MAX / 2 the only candidate is its frequency. -/
theorem candidate_one {s : State} {w : Nat} (h2 : s.params.vcoMax < 2 * (s.entry 0).freq)
    (hw : IsCandidate s 1 w) : w = (s.entry 0).freq := by
  obtain ⟨-, hle, j, ⟨hj, -⟩, q, hq, rfl⟩ := hw
  obtain rfl : j = 0 := Fin.ext (by simpa using hj)
  have : q = 1 := by
    by_contra hne
    have : 2 * (s.entry 0).freq ≤ q * (s.entry 0).freq := Nat.mul_le_mul_right _ (by omega)
    omega
  rw [this, Nat.one_mul]

/-- A candidate alone, whose search stops at N = 1 with a valid pair, is the selection. -/
theorem selected_one {s : State} {v : Nat} (hv : IsCandidate s 1 v)
    (hone : ∀ w, IsCandidate s 1 w → w = v)
    (hstop : s.finHz ≤ s.params.fFloor * 1 ∨ s.params.nmMax < rnd (v * (1 + 1)) s.finHz)
    (hvalid : ValidPair s.params 1 (rnd (v * 1) s.finHz)) :
    IsSelected s 1 v 1 (rnd (v * 1) s.finHz) := by
  refine ⟨⟨hv, fun w hw => by rw [hone w hw]⟩, ⟨le_refl _, rfl, fun k h1 h2 => by omega, hstop⟩,
    hvalid, fun v' n' m' ht hp _ => .inr ?_⟩
  obtain rfl := hone v' ht.1
  obtain ⟨h1, rfl, hgo, -⟩ := hp
  have hn : n' = 1 := by
    by_contra hne
    obtain ⟨ha, hb⟩ := hgo 1 (le_refl _) (by omega)
    rcases hstop with h | h <;> omega
  subst hn
  refine ⟨rfl, ?_⟩
  cases s.params.tieRule <;> exact le_refl _

theorem test_witness_oneOutput_selected :
    PllArgsOk oneOutput 0 1 ∧ IsSelected oneOutput 1 1200000000 1 240 := by
  refine ⟨argsOk_one (by decide) (by decide) (by decide), ?_⟩
  exact selected_one (s := oneOutput) (v := 1200000000)
    ⟨by decide, by decide, 0, ⟨by decide, by decide⟩, 1, le_refl _, by decide⟩
    (fun w hw => candidate_one (by decide) hw) (by decide) (by unfold ValidPair; decide)

theorem test_witness_PllConfigCommitsTheSelectedPair :
    oneOutput.params.Ok ∧ oneOutput.stage = .decode ∧
      oneOutput.params.vcoMin * 1 ≤ oneOutput.finHz * 240 ∧
      oneOutput.finHz * 240 ≤ oneOutput.params.vcoMax * 1 ∧
      ∀ j : Fin 16, j.val < 1 → dividerAt oneOutput 1 240 j ≠ 0 :=
  ⟨test_witness_params, by decide, by decide, by decide, by decide⟩

-- V-PLL-10, V-PLL-11, V-PLL-12, V-PLL-13
theorem test_witness_PllConfigChecksItsArguments :
    let s := withOutputs (running (.pllConfig 0 2) .decode) 30720000 30720000 61440000 0 0
    let u := withOutputs (running (.pllConfig 0 2) .decode) 30720000 30720000 4999999 0 1
    let f := withOutputs (running (.pllConfig 0 1) .decode) 4999999 0 0 0 0
    (s.params.pllCount ≤ 16 ∧ s.stage = .decode) ∧
    (f.stage = .decode ∧ 0 < f.params.pllCount ∧ f.finHz < f.params.fFloor) ∧
    (u.stage = .decode ∧ u.params.fFloor ≤ u.finHz ∧
      (∀ i : Fin 16, i < 1 → (((u.entry i).byp = true ∨ u.params.fFloor ≤ (u.entry i).freq) ∧
        ∀ k : Fin 16, k < i → (u.entry k).idx ≠ (u.entry i).idx)) ∧
      (u.entry 1).byp = false ∧ (u.entry 1).freq < u.params.fFloor) ∧
    (s.params.fFloor ≤ s.finHz ∧
      (∀ i : Fin 16, i < 1 → (((s.entry i).byp = true ∨ s.params.fFloor ≤ (s.entry i).freq) ∧
        ∀ k : Fin 16, k < i → (s.entry k).idx ≠ (s.entry i).idx)) ∧
      ¬ ((s.entry 1).byp = false ∧ (s.entry 1).freq < s.params.fFloor) ∧
      ∃ i : Fin 16, i < 1 ∧ (s.entry i).idx = (s.entry 1).idx) := by decide

theorem test_witness_SearchReturnsTheLoopPair :
    State.reset.params.Ok ∧ 0 < 30720000 := ⟨test_witness_params, by decide⟩

-- V-PLL-14: the one output bypassed
theorem test_witness_PllConfigRejects_noCandidate :
    let s := withOutputs (running (.pllConfig 0 1) .decode) 30720000 100000000 0 0x10 0
    PllArgsOk s 0 1 ∧ s.stage = .decode ∧ ¬ ∃ v, IsCandidate s 1 v := by
  refine ⟨argsOk_one (by decide) (by decide) (by decide), by decide, ?_⟩
  rintro ⟨v, -, -, j, ⟨hj, hb⟩, -⟩
  obtain rfl : j = 0 := Fin.ext (by simpa using hj)
  revert hb; decide

-- V-PLL-15: M = 256 at N = 1
theorem test_witness_PllConfigRejects_noValidNm :
    let s := withOutputs (running (.pllConfig 0 1) .decode) 5000000 1280000000 0 0 0
    PllArgsOk s 0 1 ∧ s.stage = .decode ∧ (∃ v, IsCandidate s 1 v) ∧
      ¬ ∃ v n m, IsSelected s 1 v n m := by
  refine ⟨argsOk_one (by decide) (by decide) (by decide), by decide,
    ⟨1280000000, by decide, by decide, 0, ⟨by decide, by decide⟩, 1, le_refl _, by decide⟩, ?_⟩
  rintro ⟨v, n, m, ⟨hv, -⟩, ⟨h1, rfl, hgo, -⟩, hvalid, -⟩
  obtain rfl := candidate_one (by decide) hv
  have hn : n = 1 := by
    by_contra hne
    exact absurd (hgo 1 (le_refl _) (by omega)).1 (by decide)
  subst hn
  exact absurd hvalid.2.2.2 (by decide)

-- V-PLL-17: N = 1, M = 217, Fvco = 1 302 000 000
theorem test_witness_PllConfigRejects_fvco :
    let s := withOutputs (running (.pllConfig 0 1) .decode) 6000000 1300000000 0 0 0
    PllArgsOk s 0 1 ∧ s.stage = .decode ∧ IsSelected s 1 1300000000 1 217 ∧
      s.params.vcoMax * 1 < s.finHz * 217 := by
  refine ⟨argsOk_one (by decide) (by decide) (by decide), by decide, ?_, by decide⟩
  exact selected_one (v := 1300000000)
    ⟨by decide, by decide, 0, ⟨by decide, by decide⟩, 1, le_refl _, by decide⟩
    (fun w hw => candidate_one (by decide) hw) (by decide) (by unfold ValidPair; decide)

/-- The state of oneOutput with a second output of 3 000 000 000 Hz, above VCO_MAX (as in V-PLL-18). -/
def twoOutputs : State :=
  withOutputs (running (.pllConfig 0 2) .decode) 5000000 1200000000 3000000000 0 1

theorem test_witness_PllConfigRejects_cZero :
    PllArgsOk twoOutputs 0 2 ∧ twoOutputs.stage = .decode ∧
      IsSelected twoOutputs 2 1200000000 1 240 ∧
      ¬ (twoOutputs.finHz * 240 < twoOutputs.params.vcoMin * 1 ∨
        twoOutputs.params.vcoMax * 1 < twoOutputs.finHz * 240) ∧
      ∃ j : Fin 16, j.val < 2 ∧ dividerAt twoOutputs 1 240 j = 0 := by
  have hone : ∀ w, IsCandidate twoOutputs 2 w → w = 1200000000 := by
    rintro w ⟨-, hle, j, ⟨hj, -⟩, q, hq, rfl⟩
    have hmax : twoOutputs.params.vcoMax = 1300000000 := by decide
    have h0 : (twoOutputs.entry 0).freq = 1200000000 := by decide
    have h1 : (twoOutputs.entry 1).freq = 3000000000 := by decide
    have hj2 : j = 0 ∨ j = 1 := by
      rcases (by omega : j.val = 0 ∨ j.val = 1) with h | h
      · exact .inl (Fin.ext h)
      · exact .inr (Fin.ext h)
    rcases hj2 with rfl | rfl
    · rw [h0] at hle ⊢; rw [hmax] at hle; omega
    · rw [h1, hmax] at hle; omega
  refine ⟨by unfold PllArgsOk EntryOk; decide, by decide, ?_, by decide, 1, by decide, by decide⟩
  refine ⟨⟨⟨by decide, by decide, 0, ⟨by decide, by decide⟩, 1, le_refl _, by decide⟩,
      fun w hw => by rw [hone w hw]⟩,
    ⟨le_refl _, by decide, fun k h1 h2 => by omega, by decide⟩,
    by unfold ValidPair; decide,
    fun v' n' m' ht hp _ => .inr ?_⟩
  obtain rfl := hone v' ht.1
  obtain ⟨h1, rfl, hgo, -⟩ := hp
  have hn : n' = 1 := by
    by_contra hne
    exact absurd (hgo 1 (le_refl _) (by omega)).1 (by decide)
  subst hn
  exact ⟨rfl, le_refl _⟩

theorem test_witness_PllConfigReachingBatchIsInRange :
    { oneOutput.params with hostBase := 0 } = Config.defaults ∧ oneOutput.stage = .decode ∧
      after (exec (.pllConfig 0 1) oneOutput) (fun t => t.stage) = some .batch := by
  set_option maxRecDepth 100000 in decide

/-! #### The phase commands and the codec -/

theorem test_witness_RoundIsNearestHalfUp : 0 < 2 := by decide
theorem test_witness_SplitHoldsHalfCounters : 510 ≤ 510 := by decide
theorem test_witness_PhaseCommandsCheckTheirArguments :
    let s := running (.phaseFixed 0 5) .decode
    s.stage = .decode ∧ s.params.pllCount ≤ 16 ∧ (15 < s.params.pllCount ∧ s.resC[5] = 0) := by
  decide
-- V-PH-5b and V-PH-5d: within and beyond PHASE_STEPS_MAX
theorem test_witness_PhaseFixedBuildsItsBatch :
    let s := { running (.phaseFixed 15 15) .decode with
      phaseMdeg := 360000, resC := State.reset.resC.set 15 260 }
    let u := { s with phaseMdeg := 2147483647 }
    s.stage = .decode ∧ 15 < s.params.pllCount ∧ s.resC[15] ≠ 0 ∧
      after (exec (.phaseFixed 15 15) s) (fun t => t.resSteps.word) = some 0x00010820 ∧
      after (exec (.phaseFixed 15 15) u) (fun t => t.stat.word) = some 0x00000E02 := by decide
theorem test_witness_PhaseSearchBuildsItsBatch :
    let s := { running (.phaseSearch 15 15) .decode with resC := State.reset.resC.set 15 260 }
    s.stage = .decode ∧ 15 < s.params.pllCount ∧ s.resC[15] ≠ 0 := by decide
theorem test_witness_CodecChecksItsCapacity :
    State.reset.params.sampleEntries < channels true * 513 ∧
      ¬ State.reset.params.sampleEntries < channels true * 512 ∧ (0 : Nat) = 0 := by decide

/-- SRAM entry 0 holds the in-range pair (2047, -2048) of V-CD-3, WRAM bytes 0..3 the bytes of
V-CD-13. -/
def codecState : State :=
  { running (.pack12 1 false) .decode with
    mem := Memory.writeBytes (Memory.writeWord [] 0x1000 0xF80007FF) 0x2000
      [0x0A, 0x00, 0x05, 0xFF] }

theorem test_witness_Pack12WritesCompressedRecords :
    codecState.params.Ok ∧ channels false * 1 ≤ codecState.params.sampleEntries ∧ SramWritten codecState (channels false * 1) ∧
      codecState.mem.readWord (0x1000 + 4 * 0) = some 0xF80007FF := by
  refine ⟨test_witness_params, by decide, fun e he => ⟨0xF80007FF, ?_⟩, by decide⟩
  obtain rfl : e = 0 := by simp [channels] at he; omega
  decide
theorem test_witness_Pack16WritesWireWords :
    codecState.params.Ok ∧ channels false * 1 ≤ codecState.params.sampleEntries ∧ SramWritten codecState (channels false * 1) :=
  ⟨test_witness_params, by decide, test_witness_Pack12WritesCompressedRecords.2.2.1⟩
theorem test_witness_Unpack16IgnoresLowBits :
    codecState.params.Ok ∧ channels false * 1 ≤ codecState.params.sampleEntries ∧ WramWritten codecState (4 * (channels false * 1)) ∧
      codecState.mem.readWord (0x2000 + 4 * 0) = some 0xFF05000A := by
  refine ⟨test_witness_params, by decide, fun b hb => ?_, by decide⟩
  have hb : b < 4 := hb
  have : ∀ b : Fin 4, (codecState.mem.read (0x2000 + b)).isSome = true := by decide
  exact Option.isSome_iff_exists.1 (this ⟨b, hb⟩)
theorem test_witness_Unpack12WritesSignExtendedPairs :
    codecState.params.Ok ∧ channels false * 1 ≤ codecState.params.sampleEntries ∧ WramWritten codecState (3 * (channels false * 1)) ∧
      codecState.mem.read 0x2000 = some 0x0A ∧ codecState.mem.read 0x2001 = some 0x00 ∧
      codecState.mem.read 0x2002 = some 0x05 :=
  ⟨test_witness_params, by decide, fun b hb => test_witness_Unpack16IgnoresLowBits.2.2.1 b (Nat.lt_trans hb (by decide)),
    by decide, by decide, by decide⟩
theorem test_witness_UnpackThenPackRestoresBytes :
    codecState.params.Ok ∧ channels false * 1 ≤ codecState.params.sampleEntries ∧ WramWritten codecState (3 * (channels false * 1)) :=
  ⟨test_witness_params, by decide, test_witness_Unpack12WritesSignExtendedPairs.2.2.1⟩
theorem test_witness_CodecStopsOnlyOnUnwrittenReads :
    State.reset.params.Ok ∧ channels true * 512 ≤ State.reset.params.sampleEntries ∧ ¬ SramWritten State.reset (channels true * 512) := by
  refine ⟨test_witness_params, by decide, fun h => ?_⟩
  obtain ⟨x, hx⟩ := h 0 (by simp [channels])
  simp [State.reset, Memory.readWord, Memory.readBytes, Memory.read] at hx
theorem test_witness_PackThenUnpackRestoresSamples :
    codecState.params.Ok ∧ channels false * 1 ≤ codecState.params.sampleEntries ∧ ∀ e, e < channels false * 1 →
      ∃ x, codecState.mem.readWord (0x1000 + 4 * e) = some x ∧ TwelveBit x := by
  refine ⟨test_witness_params, by decide, fun e he => ⟨0xF80007FF, ?_, by unfold TwelveBit; decide⟩⟩
  obtain rfl : e = 0 := by simp [channels] at he; omega
  decide

/-! #### The whole machine -/

/-- A fixed phase command at the last read of its poll loop. -/
def pollingState : State :=
  { running (.phaseFixed 0 1) .poll with
    lPred := predPll
    lBase := 0x2300
    pollcnt := 300
    draws := [okDraw 0] }

theorem test_witness_inv : Inv pollingState := by
  refine ⟨by decide, fun _ => by
      rw [StageFits, show decode pollingState.cmd = .instr (.phaseFixed 0 1) by decide]; rfl,
    by decide, by decide, by decide,
    by decide, by decide, by decide, by decide, by decide, fun _ _ _ => by decide,
    List.Pairwise.nil, fun c hc => ?_, fun e k _ _ => rfl⟩
  exact absurd hc (by simp [pollingState, running, State.reset])

theorem test_witness_EveryStepKeepsTheInvariant :
    pollingState.params.Ok ∧ Inv pollingState ∧ ∃ t, step pollingState = .next t :=
  ⟨test_witness_params, test_witness_inv, _, rfl⟩
theorem test_witness_EveryStepKeepsReportsInRange :
    { oneOutput.params with hostBase := 0 } = Config.defaults ∧ ReportsInRange oneOutput ∧
      ∃ t, step oneOutput = .next t :=
  ⟨by decide, ⟨by decide, .inl (by decide)⟩, _, rfl⟩
theorem test_witness_EveryCommandEnds :
    pollingState.params.Ok ∧ Inv pollingState ∧ pollingState.seq = .exec ∧
      pollingState.inputs = [] :=
  ⟨test_witness_params, test_witness_inv, by decide, by decide⟩
theorem test_witness_HistoryIsAppendedAndNeverRead :
    (∀ b, pollingState.inputs.head? ≠ some (.reset b)) ∧ ∃ t, step pollingState = .next t :=
  ⟨by decide, _, rfl⟩
-- a REG_READ that changes RDATA; a host write that changes CTRL_SHADOW
theorem test_witness_ResultRegistersHaveOneWriter :
    let s := { running (.regRead 0x0021) .decode with draws := [okDraw 0x0081] }
    let u := { State.reset with inputs := [sw 0x0C 5] }
    ((∀ b, s.inputs.head? ≠ some (.reset b)) ∧ after (step s) (fun t => t.rdata) = some 0x0081 ∧
      s.rdata = 0) ∧
    ((∀ b, u.inputs.head? ≠ some (.reset b)) ∧ after (step u) (fun t => t.ctrlShadow) = some 5 ∧
      u.ctrlShadow = 0) := by decide
-- a status read raises POLLCNT, acceptance clears it
theorem test_witness_ResultRegistersHaveOneWriter_pollcnt :
    after (step pollingState) (fun t => t.pollcnt) = some 301 ∧
    after (step { State.reset with pollcnt := 3, inputs := [sw 0 0] }) (fun t => t.pollcnt) =
      some 0 := by decide
theorem test_witness_RejectionsWriteOnlyStat :
    let s := running (.regWrite 65) .decode
    Inv s ∧ s.seq = .exec ∧ s.inputs = [] ∧
      after (step s) (fun t => t.stat.result) = some .invalidArgument := by
  refine ⟨?_, by decide⟩
  refine ⟨by decide, fun _ => by
      rw [StageFits, show decode (running (.regWrite 65) .decode).cmd = .instr (.regWrite 65) by
        decide]; rfl,
    by decide, by decide, by decide,
    by decide, by decide, by decide, by decide, by decide, fun _ h => absurd rfl h,
    List.Pairwise.nil, fun c hc => ?_, fun e k _ _ => rfl⟩
  exact absurd hc (by simp [running, State.reset])
theorem test_witness_StartBitIsArmedLast :
    oneOutput.params.Ok ∧ isConfig (.pllConfig 0 1) = true ∧ oneOutput.stage = .decode ∧
      after (exec (.pllConfig 0 1) oneOutput) (fun t => t.stage) = some .batch :=
  ⟨test_witness_params, by decide, by decide, test_witness_PllConfigReachingBatchIsInRange.2.2⟩
theorem test_witness_OvrIsSticky :
    let s := { State.reset with
      stat := ⟨false, .ok, true, false, .none, 0⟩, inputs := [sw 4 0x10] }
    s.stat.ovr = true ∧ after (step s) (fun t => t.stat.ovr) = some false := by decide
theorem test_witness_ParametersNeverChange : ∃ t, step pollingState = .next t := ⟨_, rfl⟩

end Sys2Proof.Tests
end

section
/-! The arithmetic of 00_scope.md R10 and R12. -/

namespace Sys2Proof.Machine

/-- `rnd a b` is the quotient of `2 * a + b` by `2 * b` (00_scope.md R10), so `2 * a + b` lies in its
half-open interval of width `2 * b`. -/
theorem rnd_bounds (a : Nat) {b : Nat} (hb : 0 < b) :
    2 * b * rnd a b ≤ 2 * a + b ∧ 2 * a + b < 2 * b * (rnd a b + 1) :=
  ⟨Nat.mul_div_le _ _, Nat.lt_mul_div_succ _ (by omega)⟩

/-- Settles O32: the two bounds of `rnd_bounds`, divided by `2 * b`. -/
theorem roundIsNearestHalfUp : Obligations.RoundIsNearestHalfUp := by
  intro a b hb
  obtain ⟨hlo, hhi⟩ := rnd_bounds a hb
  have hb' : (0 : Rat) < b := by exact_mod_cast hb
  have hlo' : (2 * b * rnd a b : Rat) ≤ 2 * a + b := by exact_mod_cast hlo
  have hhi' : (2 * a + b : Rat) < 2 * b * (rnd a b + 1) := by exact_mod_cast hhi
  constructor
  · rw [le_div_iff₀ hb']; linarith
  · rw [div_lt_iff₀ hb']; linarith

/-- The half-counters' word as a number, each taken modulo its 8 bits (00_scope.md R12). -/
theorem splitHalves_toNat (n : Nat) :
    (splitHalves n).toNat = 256 * (halfHi n % 256) + halfLo n % 256 := by
  unfold splitHalves
  rw [BitVec.toNat_append, ← Nat.shiftLeft_add_eq_or_of_lt (BitVec.isLt _), Nat.shiftLeft_eq,
    BitVec.toNat_ofNat, BitVec.toNat_ofNat, Nat.mul_comm]

/-- Settles O33: up to 510 both halves are at most 255, so neither is cut to its 8 bits. -/
theorem splitHoldsHalfCounters : Obligations.SplitHoldsHalfCounters := by
  intro n hn
  have hhi : halfHi n < 256 := by unfold halfHi; omega
  have hlo : halfLo n < 256 := by unfold halfLo; omega
  refine ⟨?_, by omega⟩
  rw [splitHalves_toNat, Nat.mod_eq_of_lt hhi, Nat.mod_eq_of_lt hlo, halfHi, halfLo]

end Sys2Proof.Machine
end

section
/-! The parameters of 00_scope.md R7 through each part of a step. -/

namespace Sys2Proof.Machine

/-! ### The shared stages -/

@[simp] theorem batchStage_params (s : State) : (batchStage s).params = s.params := by
  rcases batchStage_cases s with ⟨-, e⟩ | ⟨-, -, e⟩ | ⟨-, -, e⟩ <;> simp [e]

@[simp] theorem pollStage_params (a : RegAddr) (exit : Stage) (s : State) :
    (pollStage a exit s).params = s.params := by
  rcases pollStage_cases a exit s with ⟨-, e⟩ | ⟨-, -, e⟩ | ⟨-, -, _, -, e⟩ | ⟨-, -, -, e⟩ <;> simp [e]

@[simp] theorem clearStage_params (s : State) : (clearStage s).params = s.params := by
  rcases clearStage_cases s with ⟨-, e⟩ | ⟨-, e⟩ <;> simp [e]

@[simp] theorem finishTerm_params (s : State) : (finishTerm s).params = s.params := by
  rcases finishTerm_cases s with ⟨-, e⟩ | ⟨-, e⟩ | ⟨_, -, e⟩ | ⟨-, e⟩ <;> simp [e]

/-- A configuration sequence keeps the parameters when its DECODE step does. -/
theorem configStages_params {dec : State → State} {s : State} (h : (dec s).params = s.params) :
    (configStages dec s).params = s.params := by
  unfold configStages
  cases s.stage with
  | decode => exact h
  | batch => exact batchStage_params s
  | poll => exact pollStage_params _ _ s
  | clear => exact clearStage_params s
  | finish => exact finishTerm_params _

/-! ### The commands -/

@[simp] theorem pllDecode_params (pll nout : Nat) (s : State) :
    (pllDecode pll nout s).params = s.params := by
  rcases pllDecode_cases pll nout s with ⟨_, -, e⟩ | ⟨_, -, e⟩ <;> simp [e]

@[simp] theorem phaseStart_params (pll : Nat) (o : Fin 16) (steps : Int) (updn mode : Bool)
    (pred : Pred) (s : State) : (phaseStart pll o steps updn mode pred s).params = s.params := rfl

@[simp] theorem phaseFixedDecode_params (pll : Nat) (o : Fin 16) (s : State) :
    (phaseFixedDecode pll o s).params = s.params := by
  rcases phaseFixedDecode_cases pll o s with ⟨_, -, e⟩ | ⟨-, -, -, e⟩ <;> simp [e]

@[simp] theorem phaseSearchDecode_params (pll : Nat) (o : Fin 16) (s : State) :
    (phaseSearchDecode pll o s).params = s.params := by
  rcases phaseSearchDecode_cases pll o s with ⟨_, -, e⟩ | ⟨-, -, e⟩ <;> simp [e]

@[simp] theorem regWriteDecode_params (count : Nat) (s : State) :
    (regWriteDecode count s).params = s.params := by
  unfold regWriteDecode; split <;> simp

@[simp] theorem regWriteBatch_params (s : State) : (regWriteBatch s).params = s.params := rfl

@[simp] theorem pollDecode_params (s : State) : (pollDecode s).params = s.params := by
  unfold pollDecode; split <;> simp

theorem codec_params {nsamp : Nat} {mimo : Bool} {f : Nat → Memory → Option Memory} {s t : State}
    (h : codec nsamp mimo f s = .next t) : t.params = s.params := by
  rcases codec_cases nsamp mimo f s with ⟨-, e⟩ | ⟨-, -, e⟩ | ⟨-, _, -, e⟩ <;>
    rw [e] at h <;> cases h <;> rfl

theorem execRegRead_params {addr : RegAddr} {s t : State} (h : execRegRead addr s = .next t) :
    t.params = s.params := by
  cases h; split <;> simp

theorem execRegWrite_params {count : Nat} {s t : State} (h : execRegWrite count s = .next t) :
    t.params = s.params := by
  cases h
  cases s.stage with
  | decode => exact regWriteDecode_params count s
  | batch => exact regWriteBatch_params s
  | poll => rfl
  | clear => rfl
  | finish => exact finishTerm_params s

theorem execPoll_params {addr : RegAddr} {s t : State} (h : execPoll addr s = .next t) :
    t.params = s.params := by
  cases h
  cases s.stage with
  | decode => exact pollDecode_params s
  | batch => rfl
  | poll => exact pollStage_params addr .finish s
  | clear => rfl
  | finish => exact finishTerm_params s

/-- One sequencer step of a command keeps the parameters. -/
theorem exec_params {i : Instr} {s t : State} (h : exec i s = .next t) : t.params = s.params := by
  cases i with
  | nop => cases h; rfl
  | regRead _ => exact execRegRead_params h
  | regWrite _ => exact execRegWrite_params h
  | poll _ => exact execPoll_params h
  | pllConfig _ _ => cases h; exact configStages_params (pllDecode_params _ _ s)
  | phaseFixed _ _ => cases h; exact configStages_params (phaseFixedDecode_params _ _ s)
  | phaseSearch _ _ => cases h; exact configStages_params (phaseSearchDecode_params _ _ s)
  | pack12 _ _ => rw [exec, execPack12] at h; exact codec_params h
  | unpack12 _ _ => rw [exec, execUnpack12] at h; exact codec_params h
  | pack16 _ _ => rw [exec, execPack16] at h; exact codec_params h
  | unpack16 _ _ => rw [exec, execUnpack16] at h; exact codec_params h

/-! ### The moves of a step -/

theorem sequencerTurn_params {s t : State} (h : sequencerTurn s = .next t) :
    t.params = s.params := by
  rcases sequencerTurn_cases s with ⟨-, e⟩ | ⟨-, -, e⟩ | ⟨-, -, e⟩ | ⟨-, _, -, e⟩ <;> rw [e] at h
  · cases h; rfl
  · cases h; rfl
  · cases h; rfl
  · exact exec_params h

@[simp] theorem writeLoc_params (s : State) (w : Word) (l : Loc) :
    (writeLoc s w l).params = s.params := by
  cases l <;> rfl

@[simp] theorem hostWrite_params (l : Loc) (w : Word) (s : State) :
    (hostWrite l w s).params = s.params := by
  rcases hostWrite_cases l w s with ⟨-, -, e⟩ | ⟨-, e⟩ <;> simp [e]

theorem hostRead_params {off : Nat} {l : Loc} {s t : State} (h : hostRead off l s = .next t) :
    t.params = s.params := by
  rcases hostRead_cases off l s with ⟨-, -, e⟩ | ⟨-, ⟨_, -, e⟩ | ⟨-, e⟩⟩ <;> rw [e] at h <;>
    cases h <;> rfl

theorem hostAccess_params {a : HostAccess} {s t : State} (h : hostAccess a s = .next t) :
    t.params = s.params := by
  rcases hostAccess_cases a s with ⟨-, e⟩ | ⟨off, l, -, ⟨-, e⟩ | ⟨w, -, e⟩⟩ <;> rw [e] at h
  · cases h
  · exact hostRead_params h
  · cases h; exact hostWrite_params l w s

/-- Reset does not reset the parameters (70_reset_and_hazards.md R310). -/
@[simp] theorem resetStep_params (b : Bool) (s : State) : (resetStep b s).params = s.params := by
  rcases resetStep_cases b s with e | ⟨_, -, e⟩ <;> simp [e]

/-- Settles O60, by the four kinds of step: no move of the sequencer, of the host or of reset writes
the parameters. -/
theorem parametersNeverChange : Obligations.ParametersNeverChange := by
  intro s t h
  rcases step_cases s with ⟨-, e⟩ | ⟨_, -, e⟩ | ⟨_, _, -, e⟩ | ⟨_, _, -, e⟩ <;> rw [e] at h
  · exact sequencerTurn_params h
  · exact (sequencerTurn_params h).trans s.popInput_params
  · exact (hostAccess_params h).trans s.popInput_params
  · cases h; exact resetStep_params _ _

end Sys2Proof.Machine
end

section
/-! The invariant (10_state.md R23, R25, R27, R45, 40_register_protocol.md R140-R143, 20_memory.md
R63): what it asks of the RAMs and of a running command, and that every step keeps it. -/

namespace Sys2Proof.Machine

/-! ### The RAMs -/

/-- What the invariant asks of the memory. -/
structure MemOk (m : Memory) : Prop where
  wf : m.wf
  range : ∀ c ∈ m, 0x1000 ≤ c.1 ∧ c.1 < 0x3000
  whole : ∀ e k : Nat, e < 1024 → k < 4 →
    (m.read (sramAddr e + k)).isSome = (m.read (sramAddr e)).isSome

theorem Inv.memOk {s : State} (h : Inv s) : MemOk s.mem := ⟨h.mem_wf, h.mem_range, h.sram_whole⟩

theorem memOk_nil : MemOk [] := ⟨Memory.wf_nil, nofun, fun _ _ _ _ => rfl⟩

/-- Writes past the sample RAM leave its entries as they are. -/
theorem MemOk.whole_of_read_eq {m m' : Memory} (h : MemOk m)
    (hr : ∀ a, a < 0x2000 → m'.read a = m.read a) (e k : Nat) (he : e < 1024) (hk : k < 4) :
    (m'.read (sramAddr e + k)).isSome = (m'.read (sramAddr e)).isSome := by
  rw [hr _ (by unfold sramAddr; omega), hr _ (by unfold sramAddr; omega)]
  exact h.whole e k he hk

theorem MemOk.writeWord_sram {m : Memory} (h : MemOk m) {e : Nat} (he : e < 1024) (w : Word) :
    MemOk (m.writeWord (sramAddr e) w) where
  wf := Memory.wf_writeWord _ _ h.wf
  range c hc := by
    rcases Memory.mem_writeWord hc with hc | hc
    · unfold sramAddr at hc; omega
    · exact h.range c hc
  whole e' k he' hk := by
    rw [Memory.read_writeWord, Memory.read_writeWord]
    by_cases hee : e' = e
    · rw [hee, if_pos (by omega), if_pos (by omega)]; rfl
    · rw [if_neg (by unfold sramAddr; omega), if_neg (by unfold sramAddr; omega)]
      exact h.whole e' k he' hk

theorem MemOk.writeWord_wram {m : Memory} (h : MemOk m) {v : Nat} (hv : v < 1024) (w : Word) :
    MemOk (m.writeWord (wramAddr (4 * v)) w) where
  wf := Memory.wf_writeWord _ _ h.wf
  range c hc := by
    rcases Memory.mem_writeWord hc with hc | hc
    · unfold wramAddr at hc; omega
    · exact h.range c hc
  whole := h.whole_of_read_eq fun a ha => by
    rw [Memory.read_writeWord, if_neg (by unfold wramAddr; omega)]

/-- A pack of records of at most 4 bytes stays within the wire RAM. -/
theorem MemOk.packFrom {rec : Word → List Byte} {len n : Nat} {m m' : Memory} (h : MemOk m)
    (hrec : ∀ x, (rec x).length = len) (hlen : len ≤ 4) (hn : n ≤ 1024)
    (hp : packFrom rec len n 0 m = some m') : MemOk m' where
  wf := packFrom_wf h.wf hp
  range c hc := by
    have hmul : len * (0 + n) ≤ 4 * 1024 := Nat.mul_le_mul hlen (by omega)
    rcases packFrom_mem hrec hp hc with hc | hc
    · unfold wramAddr at hc; omega
    · exact h.range c hc
  whole := h.whole_of_read_eq fun a ha =>
    (packFrom_eq_some hrec (by omega) hp).2 a (.inl (by unfold wramAddr; omega))

/-- An unpack writes its entries whole. -/
theorem MemOk.unpackFrom {len n : Nat} {m m' : Memory} (h : MemOk m) (hn : n ≤ 1024)
    (hp : unpackFrom len n 0 m = some m') : MemOk m' where
  wf := unpackFrom_wf h.wf hp
  range c hc := by
    rcases unpackFrom_mem hp hc with hc | hc
    · unfold sramAddr at hc; omega
    · exact h.range c hc
  whole e k he hk := by
    obtain ⟨hwritten, hkept⟩ := unpackFrom_eq_some (by omega) hp
    by_cases hen : e < n
    · obtain ⟨x, -, hx⟩ := hwritten e (by omega) (by omega)
      have h0 : m'.read (sramAddr e) = _ := hx 0 (by omega)
      rw [hx k hk, h0]; rfl
    · rw [hkept _ (.inr (by unfold sramAddr; omega)), hkept _ (.inr (by unfold sramAddr; omega))]
      exact h.whole e k he hk

/-! ### The fields the invariant reads -/

/-- The fields the invariant reads that a running command keeps until it ends. -/
def State.runView (s : State) : Params × Word × Bool × Result × Detail × BitVec 16 × Memory × Seq :=
  (s.params, s.cmd, s.stat.busy, s.stat.result, s.stat.detail, s.stat.errcode, s.mem, s.seq)

/-- The other fields the invariant reads. -/
def State.stageView (s : State) : Stage × BitVec 16 × Term × BitVec 16 :=
  (s.stage, s.pollcnt, s.term, s.lBase)

theorem stageFits_instr {s : State} {i : Instr} (h : decode s.cmd = .instr i) :
    StageFits s ↔ hasStage i s.stage = true := by
  unfold StageFits; rw [h]

/-- Every word has a DECODE stage (10_state.md R46). -/
theorem stageFits_of_decode {s : State} (h : s.stage = .decode) : StageFits s := by
  unfold StageFits
  rw [h]
  cases decode s.cmd with
  | instr i => cases i <;> rfl
  | unknownOpcode => rfl
  | reservedBits => rfl

/-- The invariant reads no other field. -/
theorem Inv.of_view_eq {s t : State} (h : Inv s) (hr : t.runView = s.runView)
    (hs : t.stageView = s.stageView) : Inv t := by
  simp only [State.runView, Prod.mk.injEq] at hr
  simp only [State.stageView, Prod.mk.injEq] at hs
  obtain ⟨hparams, hcmd, hbusy, hresult, hdetail, herrcode, hmem, hseq⟩ := hr
  obtain ⟨hstage, hpollcnt, hterm, hbase⟩ := hs
  have hfits : StageFits t = StageFits s := by unfold StageFits; rw [hcmd, hstage]
  constructor <;>
    simp only [hparams, hcmd, hbusy, hresult, hdetail, herrcode, hmem, hseq, hstage, hpollcnt, hterm,
      hbase, hfits]
  exacts [h.busy_iff, h.stage_fits, h.running, h.detail_iff, h.errcode_iff, h.poll_le,
    h.poll_before, h.poll_during, h.hwerr_nonzero, h.clear_term, h.base_clear, h.mem_wf,
    h.mem_range, h.sram_whole]

/-! ### A running command -/

/-- What the invariant asks of the poll count in a stage (40_register_protocol.md R140, R142). -/
def PollOk (limit : Nat) (k : BitVec 16) : Stage → Prop
  | .decode => k = 0
  | .batch => k = 0
  | .poll => k.toNat < limit
  | .clear => k.toNat ≤ limit
  | .finish => k.toNat ≤ limit

/-- What the invariant asks of the pending outcome in a stage (40_register_protocol.md R140, R143). -/
def TermOk (o : Term) : Stage → Prop
  | .decode => True
  | .batch => True
  | .poll => True
  | .clear => o ≠ .hwerr 0 ∧ o ≠ .ioerr
  | .finish => o ≠ .hwerr 0

/-- What the invariant asks of the sequencer while it runs command `i`. -/
structure RunOk (i : Instr) (s : State) : Prop where
  fits : hasStage i s.stage = true
  poll : PollOk s.params.pollLimit s.pollcnt s.stage
  term : TermOk s.term s.stage
  base : isConfig i = true → s.stage ≠ .decode → s.lBase &&& 3 = 0

theorem PollOk.le {limit : Nat} {k : BitVec 16} {st : Stage} (h : PollOk limit k st) :
    k.toNat ≤ limit := by
  cases st with
  | decode => obtain rfl : k = 0 := h; exact Nat.zero_le _
  | batch => obtain rfl : k = 0 := h; exact Nat.zero_le _
  | poll => exact Nat.le_of_lt h
  | clear => exact h
  | finish => exact h

section
variable {i : Instr} {s t : State}

theorem Inv.errcode_eq_zero (h : Inv s) (hs : s.seq = .exec) : s.stat.errcode = 0 :=
  (h.running (h.busy_iff.2 hs)).2.2

theorem Inv.hasStage_stage (h : Inv s) (hs : s.seq = .exec) (hi : decode s.cmd = .instr i) :
    hasStage i s.stage = true := (stageFits_instr hi).1 (h.stage_fits hs)

theorem Inv.base_eq_zero (h : Inv s) (hs : s.seq = .exec) (hi : decode s.cmd = .instr i)
    (hst : s.stage ≠ .decode) (hc : isConfig i = true) : s.lBase &&& 3 = 0 :=
  h.base_clear hs hst ⟨i, hi, hc⟩

/-- A running command that goes on keeps the invariant when its next stage is in order. -/
theorem Inv.advance (h : Inv s) (hi : decode s.cmd = .instr i)
    (hv : t.runView = s.runView) (ok : RunOk i t) : Inv t := by
  simp only [State.runView, Prod.mk.injEq] at hv
  obtain ⟨hparams, hcmd, hbusy, hresult, hdetail, herrcode, hmem, hseq⟩ := hv
  obtain ⟨hfits, hpoll, hterm, hbase⟩ := ok
  exact {
    busy_iff := by rw [hbusy, hseq]; exact h.busy_iff
    stage_fits := fun _ => (stageFits_instr (hcmd ▸ hi)).2 hfits
    running := by rw [hbusy, hresult, hdetail, herrcode]; exact h.running
    detail_iff := by rw [hresult, hdetail]; exact h.detail_iff
    errcode_iff := by rw [hresult, herrcode]; exact h.errcode_iff
    poll_le := hpoll.le
    poll_before := by
      rintro - (hst | hst) <;> rw [hst] at hpoll <;> exact hpoll
    poll_during := fun _ hst => by rw [hst] at hpoll; exact hpoll
    hwerr_nonzero := by
      rintro - (hst | hst) <;> rw [hst] at hterm
      · exact hterm.1
      · exact hterm
    clear_term := fun _ hst => by rw [hst] at hterm; exact hterm.2
    base_clear := by
      rintro - hst ⟨j, hj, hc⟩
      obtain rfl : i = j := Decoded.instr.inj (hi.symm.trans (hcmd ▸ hj))
      exact hbase hc hst
    mem_wf := by rw [hmem]; exact h.mem_wf
    mem_range := by rw [hmem]; exact h.mem_range
    sram_whole := by rw [hmem]; exact h.sram_whole }

/-- `finish` with a result that fits DETAIL and ERRCODE (60_exceptions.md R284, 10_state.md R25,
R27). -/
theorem inv_finish {r : Result} {d : Detail} (hle : s.pollcnt.toNat ≤ s.params.pollLimit)
    (hm : MemOk s.mem) (hd : d ≠ .none ↔ r = .invalidArgument ∨ r = .illegalCommand)
    (he : s.stat.errcode ≠ 0 ↔ r = .hardwareError) : Inv (s.finish r d) where
  busy_iff := by simp
  stage_fits := nofun
  running := nofun
  detail_iff := hd
  errcode_iff := he
  poll_le := hle
  poll_before := nofun
  poll_during := nofun
  hwerr_nonzero := nofun
  clear_term := nofun
  base_clear := nofun
  mem_wf := hm.wf
  mem_range := hm.range
  sram_whole := hm.whole

/-- A running command may end with any result but HARDWARE_ERROR, which needs an error value. -/
theorem Inv.finish (h : Inv s) (hs : s.seq = .exec) {r : Result} {d : Detail}
    (hd : d ≠ .none ↔ r = .invalidArgument ∨ r = .illegalCommand) (hr : r ≠ .hardwareError) :
    Inv (s.finish r d) :=
  inv_finish h.poll_le h.memOk hd (by simp [h.errcode_eq_zero hs, hr])

/-- A running command may be rejected under any name (60_exceptions.md R285). -/
theorem Inv.reject (h : Inv s) (hs : s.seq = .exec) {d : Detail} (hd : d ≠ .none) :
    Inv (s.finish .invalidArgument d) :=
  h.finish hs (by simp [hd]) (by simp)

end

/-! ### The stages -/

section
variable {i : Instr} {s : State}

theorem Inv.batchStage (ho : s.params.Ok) (h : Inv s) (hs : s.seq = .exec)
    (hi : decode s.cmd = .instr i) (hc : isConfig i = true) (hst : s.stage = .batch) :
    Inv (batchStage s) := by
  have hk : s.pollcnt = 0 := h.poll_before hs (.inr hst)
  have hbase : s.lBase &&& 3 = 0 := h.base_eq_zero hs hi (by simp [hst]) hc
  rcases batchStage_cases s with ⟨-, e⟩ | ⟨-, -, e⟩ | ⟨-, -, e⟩ <;> rw [e]
  · exact h.advance hi rfl ⟨hasStage_of_isConfig hc _, h.poll_le, Term.noConfusion,
      fun _ _ => hbase⟩
  · refine h.advance hi rfl ⟨hasStage_of_isConfig hc _, ?_, trivial, fun _ _ => hbase⟩
    show s.pollcnt.toNat < s.params.pollLimit
    rw [hk]; exact ho.pollLimit_pos
  · exact h.advance hi rfl ⟨hasStage_of_isConfig hc _, h.poll_le,
      ⟨Term.noConfusion, Term.noConfusion⟩, fun _ _ => hbase⟩

/-- No verdict of a poll step is IOERR or a zero error value (40_register_protocol.md R140). -/
theorem pollVerdict_ne {p : Pred} {limit k : Nat} {v : RegData} {o : Term}
    (h : pollVerdict p limit k v = some o) : o ≠ .hwerr 0 ∧ o ≠ .ioerr := by
  rcases pollVerdict_eq_some.1 h with ⟨he, rfl⟩ | ⟨-, -, rfl⟩ | ⟨-, -, -, rfl⟩
  · exact ⟨fun h0 => he (Term.hwerr.inj h0), Term.noConfusion⟩
  · exact ⟨Term.noConfusion, Term.noConfusion⟩
  · exact ⟨Term.noConfusion, Term.noConfusion⟩

/-- A poll step of a command whose loop is followed by CLEAR or FINISH. -/
theorem Inv.pollStage {exit : Stage} (ho : s.params.Ok) (h : Inv s) (hs : s.seq = .exec)
    (hi : decode s.cmd = .instr i) (hst : s.stage = .poll) (hx : exit = .clear ∨ exit = .finish)
    (hexit : hasStage i exit = true) (hfin : hasStage i .finish = true) (a : RegAddr) :
    Inv (pollStage a exit s) := by
  have hlt : s.pollcnt.toNat < s.params.pollLimit := h.poll_during hs hst
  have hlimit : s.params.pollLimit ≤ 65535 := ho.pollLimit_le
  have hk : (s.pollcnt + 1).toNat = s.pollcnt.toNat + 1 := by bv_omega
  have hbase : isConfig i = true → s.lBase &&& 3 = 0 := h.base_eq_zero hs hi (by simp [hst])
  rcases pollStage_cases a exit s with ⟨hn, -⟩ | ⟨-, -, e⟩ | ⟨-, -, o, hv, e⟩ | ⟨-, -, hv, e⟩
  · omega
  · rw [e]
    refine h.advance hi rfl ⟨hfin, ?_, Term.noConfusion, fun hc _ => hbase hc⟩
    show (s.pollcnt + 1).toNat ≤ s.params.pollLimit
    omega
  · rw [e]
    refine h.advance hi rfl ⟨hexit, ?_, ?_, fun hc _ => hbase hc⟩
    · have hle : (s.pollcnt + 1).toNat ≤ s.params.pollLimit := by omega
      rcases hx with rfl | rfl <;> exact hle
    · rcases hx with rfl | rfl
      · exact pollVerdict_ne hv
      · exact (pollVerdict_ne hv).1
  · have hne := (pollVerdict_eq_none.1 hv).2.2
    rw [e]
    refine h.advance hi rfl ⟨h.hasStage_stage hs hi, ?_, ?_, fun hc _ => hbase hc⟩
    · rw [State.polled_stage, hst]
      show (s.pollcnt + 1).toNat < s.params.pollLimit
      omega
    · rw [State.polled_stage, hst]; trivial

theorem Inv.clearStage (h : Inv s) (hs : s.seq = .exec) (hi : decode s.cmd = .instr i)
    (hc : isConfig i = true) (hst : s.stage = .clear) : Inv (clearStage s) := by
  have hbase : s.lBase &&& 3 = 0 := h.base_eq_zero hs hi (by simp [hst]) hc
  have hterm : s.term ≠ .hwerr 0 := h.hwerr_nonzero hs (.inl hst)
  rcases clearStage_cases s with ⟨-, e⟩ | ⟨-, e⟩ <;> rw [e] <;>
    exact h.advance hi rfl ⟨hasStage_of_isConfig hc _, h.poll_le, hterm, fun _ _ => hbase⟩

theorem Inv.finishTerm (h : Inv s) (hs : s.seq = .exec) (hst : s.stage = .finish) :
    Inv (finishTerm s) := by
  rcases finishTerm_cases s with ⟨-, e⟩ | ⟨-, e⟩ | ⟨x, hx, e⟩ | ⟨-, e⟩ <;> rw [e]
  · exact h.finish hs (by simp) (by simp)
  · exact h.finish hs (by simp) (by simp)
  · have hx0 : x ≠ 0 := fun h0 => h.hwerr_nonzero hs (.inr hst) (h0 ▸ hx)
    exact inv_finish h.poll_le h.memOk (by simp) ⟨fun _ => rfl, fun _ => hx0⟩
  · exact h.finish hs (by simp) (by simp)

/-- A configuration sequence keeps the invariant when its DECODE step does. -/
theorem Inv.configStages {dec : State → State} (ho : s.params.Ok) (h : Inv s) (hs : s.seq = .exec)
    (hi : decode s.cmd = .instr i) (hc : isConfig i = true) (hdec : s.stage = .decode → Inv (dec s)) :
    Inv (configStages dec s) := by
  unfold Machine.configStages
  cases hst : s.stage with
  | decode => exact hdec hst
  | batch => exact h.batchStage ho hs hi hc hst
  | poll =>
    exact h.pollStage ho hs hi hst (.inl rfl) (hasStage_of_isConfig hc _)
      (hasStage_of_isConfig hc _) _
  | clear => exact h.clearStage hs hi hc hst
  | finish => exact (h.of_view_eq rfl rfl : Inv { s with ctrlShadow := s.lBase }).finishTerm hs hst

/-! ### The DECODE steps -/

/-- The end of a configuration command's DECODE step, its base word's start bits 0. -/
theorem Inv.toBatch (h : Inv s) (hs : s.seq = .exec) (hi : decode s.cmd = .instr i)
    (hc : isConfig i = true) (hst : s.stage = .decode) {base : BitVec 16} (hb : base &&& 3 = 0)
    (l : List (RegAddr × RegData)) (pred : Pred) : Inv (s.toBatch l base pred) :=
  h.advance hi rfl
    ⟨hasStage_of_isConfig hc _, h.poll_before hs (.inl hst), trivial, fun _ _ => hb⟩

theorem Inv.phaseStart (h : Inv s) (hs : s.seq = .exec) (hi : decode s.cmd = .instr i)
    (hc : isConfig i = true) (hst : s.stage = .decode) (pll : Nat) (o : Fin 16) (steps : Int)
    (updn mode : Bool) (pred : Pred) : Inv (phaseStart pll o steps updn mode pred s) :=
  (h.of_view_eq rfl rfl : Inv { s with resSteps := _, lSteps := steps }).toBatch hs hi hc hst
    (phaseBase_start _ _ _ _ _ _) _ _

theorem Inv.pllDecode {pll nout : Nat} (h : Inv s) (hs : s.seq = .exec)
    (hi : decode s.cmd = .instr (.pllConfig pll nout)) (hst : s.stage = .decode) :
    Inv (pllDecode pll nout s) := by
  rcases pllDecode_cases pll nout s with ⟨d, hd, e⟩ | ⟨r, -, e⟩ <;> rw [e]
  · exact h.reject hs hd
  · exact (h.of_view_eq rfl rfl :
      Inv { s with resNm := pllResNm r, resC := pllResC r.outs s.resC }).toBatch hs hi rfl hst
      (pllBase_start _ _) _ _

theorem Inv.phaseFixedDecode {pll : Nat} {o : Fin 16} (h : Inv s) (hs : s.seq = .exec)
    (hi : decode s.cmd = .instr (.phaseFixed pll o)) (hst : s.stage = .decode) :
    Inv (phaseFixedDecode pll o s) := by
  rcases phaseFixedDecode_cases pll o s with ⟨d, hd, e⟩ | ⟨-, -, -, e⟩ <;> rw [e]
  · exact h.reject hs hd
  · exact h.phaseStart hs hi rfl hst _ _ _ _ _ _

theorem Inv.phaseSearchDecode {pll : Nat} {o : Fin 16} (h : Inv s) (hs : s.seq = .exec)
    (hi : decode s.cmd = .instr (.phaseSearch pll o)) (hst : s.stage = .decode) :
    Inv (phaseSearchDecode pll o s) := by
  rcases phaseSearchDecode_cases pll o s with ⟨d, hd, e⟩ | ⟨-, -, e⟩ <;> rw [e]
  · exact h.reject hs hd
  · exact h.phaseStart hs hi rfl hst _ _ _ _ _ _

/-! ### The commands -/

theorem Inv.execRegRead {addr : RegAddr} {t : State} (h : Inv s) (hs : s.seq = .exec)
    (he : execRegRead addr s = .next t) : Inv t := by
  cases he
  split
  · exact (h.of_view_eq rfl rfl : Inv (s.tRead addr)).finish hs (by simp) (by simp)
  · exact (h.of_view_eq rfl rfl : Inv { s.tRead addr with rdata := s.draw.value }).finish hs
      (by simp) (by simp)

theorem Inv.execRegWrite {count : Nat} {t : State} (h : Inv s) (hs : s.seq = .exec)
    (hi : decode s.cmd = .instr (.regWrite count)) (he : execRegWrite count s = .next t) :
    Inv t := by
  cases he
  have hfit := h.hasStage_stage hs hi
  cases hst : s.stage with
  | decode =>
    show Inv (regWriteDecode count s)
    unfold regWriteDecode
    split
    · exact h.reject hs (by simp)
    · exact h.advance hi rfl ⟨rfl, h.poll_before hs (.inl hst), trivial, nofun⟩
  | batch =>
    refine h.advance hi rfl ⟨rfl, h.poll_le, ?_, nofun⟩
    show (if s.draw.fails then Term.ioerr else .done) ≠ .hwerr 0
    split <;> simp
  | poll => rw [hst] at hfit; cases hfit
  | clear => rw [hst] at hfit; cases hfit
  | finish => exact h.finishTerm hs hst

theorem Inv.execPoll {addr : RegAddr} {t : State} (ho : s.params.Ok) (h : Inv s)
    (hs : s.seq = .exec) (hi : decode s.cmd = .instr (.poll addr))
    (he : execPoll addr s = .next t) : Inv t := by
  cases he
  have hfit := h.hasStage_stage hs hi
  cases hst : s.stage with
  | decode =>
    show Inv (pollDecode s)
    unfold pollDecode
    split
    · refine h.advance hi rfl ⟨rfl, ?_, trivial, nofun⟩
      show s.pollcnt.toNat < s.params.pollLimit
      rw [h.poll_before hs (.inl hst)]; exact ho.pollLimit_pos
    · exact h.reject hs (by simp)
  | batch => rw [hst] at hfit; cases hfit
  | poll => exact h.pollStage ho hs hi hst (.inr rfl) rfl rfl addr
  | clear => rw [hst] at hfit; cases hfit
  | finish => exact h.finishTerm hs hst

/-- A codec command keeps the invariant when its transfer keeps what is asked of the memory. -/
theorem Inv.codec {nsamp : Nat} {mimo : Bool} {f : Nat → Memory → Option Memory} {t : State}
    (ho : s.params.Ok) (h : Inv s) (hs : s.seq = .exec)
    (hf : ∀ n m', n ≤ 1024 → f n s.mem = some m' → MemOk m')
    (he : codec nsamp mimo f s = .next t) : Inv t := by
  rcases codec_cases nsamp mimo f s with ⟨-, e⟩ | ⟨-, -, e⟩ | ⟨hn, m', hm, e⟩ <;> rw [e] at he <;>
    cases he
  · exact h.reject hs (by simp)
  · exact inv_finish h.poll_le (hf _ _ (hn.trans ho.sampleEntries_le) hm) (by simp)
      (by simp [h.errcode_eq_zero hs])

/-- One sequencer step of a command keeps the invariant. -/
theorem Inv.exec {t : State} (ho : s.params.Ok) (h : Inv s) (hs : s.seq = .exec)
    (hi : decode s.cmd = .instr i) (he : exec i s = .next t) : Inv t := by
  cases i with
  | nop => cases he; exact h.finish hs (by simp) (by simp)
  | regRead _ => exact h.execRegRead hs he
  | regWrite _ => exact h.execRegWrite hs hi he
  | poll _ => exact h.execPoll ho hs hi he
  | pllConfig _ _ => cases he; exact h.configStages ho hs hi rfl fun hst => h.pllDecode hs hi hst
  | phaseFixed _ _ =>
    cases he; exact h.configStages ho hs hi rfl fun hst => h.phaseFixedDecode hs hi hst
  | phaseSearch _ _ =>
    cases he; exact h.configStages ho hs hi rfl fun hst => h.phaseSearchDecode hs hi hst
  | pack12 _ _ =>
    exact h.codec ho hs (fun _ _ hn => h.memOk.packFrom compress_length (by omega) hn) he
  | unpack12 _ _ => exact h.codec ho hs (fun _ _ hn => h.memOk.unpackFrom hn) he
  | pack16 _ _ =>
    exact h.codec ho hs (fun _ _ hn => h.memOk.packFrom expand_length (by omega) hn) he
  | unpack16 _ _ => exact h.codec ho hs (fun _ _ hn => h.memOk.unpackFrom hn) he

/-! ### The moves of a step -/

theorem Inv.sequencerTurn {t : State} (ho : s.params.Ok) (h : Inv s)
    (he : sequencerTurn s = .next t) : Inv t := by
  rcases sequencerTurn_cases s with ⟨-, e⟩ | ⟨hs, -, e⟩ | ⟨hs, -, e⟩ | ⟨hs, i, hi, e⟩ <;>
    rw [e] at he
  · cases he; exact h
  · cases he; exact h.finish hs (by simp) (by simp)
  · cases he; exact h.finish hs (by simp) (by simp)
  · exact h.exec ho hs hi he

/-- Acceptance of a command (10_state.md R46). -/
theorem Inv.accept (h : Inv s) (w : Word) : Inv (s.accept w) where
  busy_iff := by simp
  stage_fits _ := stageFits_of_decode rfl
  running := by simp
  detail_iff := by simp
  errcode_iff := by simp
  poll_le := by simp
  poll_before := by simp
  poll_during := by simp
  hwerr_nonzero := by simp
  clear_term := by simp
  base_clear := by simp
  mem_wf := h.mem_wf
  mem_range := h.mem_range
  sram_whole := h.sram_whole

/-- The memory alone may be replaced. -/
theorem Inv.setMem (h : Inv s) {m : Memory} (hm : MemOk m) : Inv { s with mem := m } :=
  ⟨h.busy_iff, h.stage_fits, h.running, h.detail_iff, h.errcode_iff, h.poll_le, h.poll_before,
    h.poll_during, h.hwerr_nonzero, h.clear_term, h.base_clear, hm.wf, hm.range, hm.whole⟩

theorem Inv.writeLoc (h : Inv s) (w : Word) (l : Loc) : Inv (writeLoc s w l) := by
  cases l with
  | cmd => exact h.accept w
  | sram e => exact h.setMem (h.memOk.writeWord_sram e.isLt w)
  | wram v => exact h.setMem (h.memOk.writeWord_wram v.isLt w)
  | stat | fin | ctrlShadow | phaseMdeg | argPoll | rdata | resNm | pollcnt | resSteps | resC _
  | outFreq _ | outCfg _ | batch _ => exact h.of_view_eq rfl rfl

theorem Inv.hostWrite (h : Inv s) (l : Loc) (w : Word) : Inv (hostWrite l w s) := by
  rcases hostWrite_cases l w s with ⟨-, -, e⟩ | ⟨-, e⟩ <;> rw [e]
  · exact h.of_view_eq rfl rfl
  · exact h.writeLoc w l

theorem Inv.hostRead {off : Nat} {l : Loc} {t : State} (h : Inv s)
    (he : hostRead off l s = .next t) : Inv t := by
  rcases hostRead_cases off l s with ⟨-, -, e⟩ | ⟨-, ⟨_, -, e⟩ | ⟨-, e⟩⟩ <;> rw [e] at he <;>
    cases he <;> exact h.of_view_eq rfl rfl

theorem Inv.hostAccess {a : HostAccess} {t : State} (h : Inv s)
    (he : hostAccess a s = .next t) : Inv t := by
  rcases hostAccess_cases a s with ⟨-, e⟩ | ⟨off, l, -, ⟨-, e⟩ | ⟨w, -, e⟩⟩ <;> rw [e] at he
  · cases he
  · exact h.hostRead he
  · cases he; exact h.hostWrite l w

/-- The invariant holds after reset, whatever the parameters are. -/
theorem inv_resetBlock (s : State) : Inv s.resetBlock where
  busy_iff := by simp [State.reset]
  stage_fits := nofun
  running := nofun
  detail_iff := by simp [State.reset]
  errcode_iff := by simp [State.reset]
  poll_le := Nat.zero_le _
  poll_before := nofun
  poll_during := nofun
  hwerr_nonzero := nofun
  clear_term := nofun
  base_clear := nofun
  mem_wf := memOk_nil.wf
  mem_range := memOk_nil.range
  sram_whole := memOk_nil.whole

theorem inv_resetStep (b : Bool) (s : State) : Inv (resetStep b s) := by
  rcases resetStep_cases b s with e | ⟨_, -, e⟩ <;> rw [e]
  · exact inv_resetBlock s
  · exact (inv_resetBlock s.popDraw).of_view_eq rfl rfl

end

/-- Settles O51, by the four kinds of step: the sequencer's turn by the stages of each command, a host
access by the word it writes, and reset, after which the invariant holds outright. -/
theorem everyStepKeepsTheInvariant : Obligations.EveryStepKeepsTheInvariant := by
  intro s t ho h he
  rcases step_cases s with ⟨-, e⟩ | ⟨_, -, e⟩ | ⟨_, _, -, e⟩ | ⟨_, _, -, e⟩ <;> rw [e] at he
  · exact h.sequencerTurn ho he
  · exact Inv.sequencerTurn (s := s.popInput) ho (h.of_view_eq rfl rfl) he
  · exact (h.of_view_eq rfl rfl : Inv s.popInput).hostAccess he
  · cases he; exact inv_resetStep _ _

end Sys2Proof.Machine
end

section
/-! The host window: what one step is when its move is a host access to a mapped word
(10_state.md R21, R22, R26, R40-R44). -/

namespace Sys2Proof.Machine

/-! ### The word at an offset -/

/-- A word that exists is mapped at its offset. -/
theorem locAt_offset (p : Params) {l : Loc} (h : l.present p = true) :
    locAt p l.offset = some l := locAt_eq_some.2 ⟨rfl, h⟩

/-- Two words do not share an offset. -/
theorem eq_of_locAt_offset {p : Params} {l l' : Loc} (h : locAt p l'.offset = some l) : l = l' :=
  Option.some.inj <|
    (layoutAt_eq_some.2 (locAt_eq_some.1 h).1).symm.trans (layoutAt_offset l')

/-! ### One step -/

section
variable {s : State} {off : Nat} {l : Loc} {w : Word} {rest : List Input}

/-- A host write while BUSY = 0, or of STAT. -/
theorem step_writeLoc (h : s.inputs = .host ⟨s.params.hostBase + off, 4, .write w⟩ :: rest)
    (hl : locAt s.params off = some l) (hb : s.stat.busy = false ∨ l = .stat) :
    step s = .next (writeLoc { s with inputs := rest } w l) := by
  rw [step_hostWrite h hl]
  rcases hostWrite_cases l w { s with inputs := rest } with ⟨hb', hl', -⟩ | ⟨-, e⟩
  · rcases hb with hb | hb
    · exact absurd (hb.symm.trans hb') Bool.false_ne_true
    · exact absurd hb hl'
  · rw [e]

/-- A host write of any other word while BUSY = 1 sets OVR (10_state.md R43). -/
theorem step_write_busy (h : s.inputs = .host ⟨s.params.hostBase + off, 4, .write w⟩ :: rest)
    (hl : locAt s.params off = some l) (hb : s.stat.busy = true) (hstat : l ≠ .stat) :
    step s = .next { s with inputs := rest, stat := { s.stat with ovr := true } } := by
  rw [step_hostWrite h hl]
  rcases hostWrite_cases l w { s with inputs := rest } with ⟨-, -, e⟩ | ⟨hb' | hl', -⟩
  · rw [e]
  · exact absurd (hb.symm.trans hb') Bool.noConfusion
  · exact absurd hl' hstat

/-- A host read while BUSY = 0, or of a word that is live while BUSY = 1. -/
theorem step_readLoc (h : s.inputs = .host ⟨s.params.hostBase + off, 4, .read⟩ :: rest)
    (hl : locAt s.params off = some l) (hb : s.stat.busy = false ∨ liveWhileBusy l = true)
    (hw : readLoc { s with inputs := rest } l = some w) :
    step s = .next { s with inputs := rest, hostReads := s.hostReads ++ [(off, w)] } := by
  rw [step_hostRead h hl]
  rcases hostRead_cases off l { s with inputs := rest } with
    ⟨hb', hl', -⟩ | ⟨-, ⟨w', hw', e⟩ | ⟨hw', -⟩⟩
  · rcases hb with hb | hb
    · exact absurd (hb.symm.trans hb') Bool.false_ne_true
    · exact absurd (hb.symm.trans hl') Bool.noConfusion
  · rw [e, Option.some.inj (hw.symm.trans hw')]; rfl
  · rw [hw] at hw'; cases hw'

/-- A host read of any other word while BUSY = 1 is a draw (10_state.md R44). -/
theorem step_read_busy (h : s.inputs = .host ⟨s.params.hostBase + off, 4, .read⟩ :: rest)
    (hl : locAt s.params off = some l) (hb : s.stat.busy = true) (hlive : liveWhileBusy l = false) :
    step s = .next { s.popDraw with
      inputs := rest, hostReads := s.hostReads ++ [(off, s.draw.word)] } := by
  rw [step_hostRead h hl]
  rcases hostRead_cases off l { s with inputs := rest } with ⟨-, -, e⟩ | ⟨hb' | hl', -⟩
  · rw [e]; rfl
  · exact absurd (hb.symm.trans hb') Bool.noConfusion
  · exact absurd (hlive.symm.trans hl') Bool.false_ne_true

end

/-! ### Writes of registers -/

/-- Settles O13: CMD is the word at offset 0, and its write while BUSY = 0 is an acceptance. -/
theorem writeOfCmdAcceptsACommand : Obligations.WriteOfCmdAcceptsACommand := by
  intro s w rest h hb
  exact step_writeLoc (off := 0) h (locAt_offset s.params (l := .cmd) rfl) (.inl hb)

/-- Settles O15: STAT is the word at offset 4, written whether or not BUSY = 1. -/
theorem writeOfStatClearsOnlyOvr : Obligations.WriteOfStatClearsOnlyOvr := by
  intro s w rest h
  rw [step_writeLoc h (locAt_offset s.params (l := .stat) rfl) (.inr rfl)]
  simp only [writeLoc, Stat.hostWrite]
  cases w.getLsbD 4 <;> simp

/-- Settles O20, by the read-only words, for each of which `writeLoc` gives the state back. -/
theorem readOnlyRegistersIgnoreWrites : Obligations.ReadOnlyRegistersIgnoreWrites := by
  rintro s off w rest (rfl | rfl | rfl | rfl | ⟨i, hi, hout, rfl⟩) hb h
  · exact step_writeLoc h (locAt_offset s.params (l := .rdata) rfl) (.inl hb)
  · exact step_writeLoc h (locAt_offset s.params (l := .resNm) rfl) (.inl hb)
  · exact step_writeLoc h (locAt_offset s.params (l := .pollcnt) rfl) (.inl hb)
  · exact step_writeLoc h (locAt_offset s.params (l := .resSteps) rfl) (.inl hb)
  · exact step_writeLoc h
      (locAt_offset s.params (l := .resC ⟨i, hi⟩) (decide_eq_true hout)) (.inl hb)

/-! ### STAT's word -/

/-- A concatenation as a number. -/
theorem toNat_append_eq_add {m n : Nat} (x : BitVec m) (y : BitVec n) :
    (x ++ y).toNat = 2 ^ n * x.toNat + y.toNat := by
  rw [BitVec.toNat_append, ← Nat.shiftLeft_add_eq_or_of_lt y.isLt, Nat.shiftLeft_eq, Nat.mul_comm]

/-- Settles O16: the number of a concatenation, field by field; the codes by evaluation. -/
theorem statWordLayout : Obligations.StatWordLayout := by
  refine ⟨fun t => ?_, by decide, by decide⟩
  simp only [Stat.word, toNat_append_eq_add, BitVec.toNat_ofBool, BitVec.toNat_ofNat]
  omega

/-! ### Accesses while BUSY = 1 -/

/-- Settles O17: the offset fixes the word, and the word says whether it is live. -/
theorem readWhileBusy : Obligations.ReadWhileBusy := by
  intro s off l rest h hl hb
  refine ⟨?_, ?_, ?_, fun h0 h4 h20 => ?_⟩
  · rintro rfl
    obtain rfl : l = .cmd := eq_of_locAt_offset hl
    exact step_readLoc h hl (.inr rfl) rfl
  · rintro rfl
    obtain rfl : l = .stat := eq_of_locAt_offset hl
    exact step_readLoc h hl (.inr rfl) rfl
  · rintro rfl
    obtain rfl : l = .pollcnt := eq_of_locAt_offset hl
    exact step_readLoc h hl (.inr rfl) rfl
  · obtain rfl : off = l.offset := (locAt_eq_some.1 hl).1
    refine step_read_busy h hl hb ?_
    cases l with
    | cmd => exact absurd rfl h0
    | stat => exact absurd rfl h4
    | pollcnt => exact absurd rfl h20
    | fin | ctrlShadow | phaseMdeg | argPoll | rdata | resNm | resSteps | resC _ | outFreq _
    | outCfg _ | batch _ | sram _ | wram _ => rfl

/-- Settles O14: a read changes the draws and the record of reads, a write of STAT or of another word
changes OVR. -/
theorem hostCannotDisturbARunningCommand : Obligations.HostCannotDisturbARunningCommand := by
  intro s a rest h hb
  refine ⟨fun t ht => ?_, ?_⟩
  · rw [step_host h] at ht
    rcases hostAccess_cases a { s with inputs := rest } with
      ⟨-, e⟩ | ⟨off, l, -, ⟨-, e⟩ | ⟨w, -, e⟩⟩ <;> rw [e] at ht
    · cases ht
    · rcases hostRead_cases off l { s with inputs := rest } with
        ⟨-, -, e⟩ | ⟨-, ⟨_, -, e⟩ | ⟨-, e⟩⟩ <;> rw [e] at ht <;> cases ht <;> rfl
    · rcases hostWrite_cases l w { s with inputs := rest } with ⟨-, -, e⟩ | ⟨hb' | rfl, e⟩ <;>
        rw [e] at ht
      · cases ht; rfl
      · exact absurd (hb.symm.trans hb') Bool.noConfusion
      · cases ht; rfl
  · rintro w off l rfl hl hoff
    refine step_write_busy h hl hb ?_
    rintro rfl
    exact hoff (locAt_eq_some.1 hl).1

/-! ### The RAMs -/

/-- Settles O21: the offset is that of an SRAM or WRAM word, whose write is one `writeWord` there. -/
theorem hostWriteOfRamWritesFourBytes : Obligations.HostWriteOfRamWritesFourBytes := by
  intro s off w rest hoff halign hb h
  have hstep : step s = .next { s with inputs := rest, mem := s.mem.writeWord off w } := by
    rcases hoff with ⟨hlo, hhi, hn⟩ | ⟨hlo, hhi, hn⟩
    · obtain ⟨e, rfl⟩ : ∃ e, off = 0x1000 + 4 * e := ⟨(off - 0x1000) / 4, by omega⟩
      have he : e < 1024 := by omega
      exact step_writeLoc h (locAt_offset s.params (l := .sram ⟨e, he⟩)
        (decide_eq_true (by show e < _; omega))) (.inl hb)
    · obtain ⟨v, rfl⟩ : ∃ v, off = 0x2000 + 4 * v := ⟨(off - 0x2000) / 4, by omega⟩
      have hv : v < 1024 := by omega
      exact step_writeLoc h (locAt_offset s.params (l := .wram ⟨v, hv⟩)
        (decide_eq_true (by show 4 * v + 4 ≤ _; omega))) (.inl hb)
  refine ⟨_, hstep, rfl, fun k hk => ?_, fun a ha => ?_⟩
  · show (s.mem.writeWord off w).read (off + k) = _
    rw [Memory.read_writeWord, if_pos (by omega), Nat.add_sub_cancel_left]
  · show (s.mem.writeWord off w).read a = _
    rw [Memory.read_writeWord, if_neg (by omega)]

/-! ### Reading back -/

/-- The words that only hold operands of commands: a host write stores their writable bits
(10_state.md R28-R31, R37-R39). -/
def Loc.isOperand : Loc → Bool
  | .fin => true
  | .ctrlShadow => true
  | .phaseMdeg => true
  | .argPoll => true
  | .outFreq _ => true
  | .outCfg _ => true
  | .batch _ => true
  | _ => false

/-- The writable bits of an operand word (10_state.md R28-R31, R37-R39). -/
def Loc.mask : Loc → Word
  | .ctrlShadow => 0x0000FFFF
  | .outCfg _ => 0x0000001F
  | _ => 0xFFFFFFFF

/-- The low `n` bits of a word are its bits under the mask of `n` ones. -/
theorem setWidth_extractLsb'_zero (w : Word) {n : Nat} (hn : n ≤ 32) :
    (w.extractLsb' 0 n).setWidth 32 = w &&& BitVec.ofNat 32 (2 ^ n - 1) := by
  apply BitVec.eq_of_toNat_eq
  have hlt : 2 ^ n - 1 < 2 ^ 32 := by
    have := Nat.pow_le_pow_right (n := 2) (by omega) hn
    have := Nat.two_pow_pos n
    omega
  have hmod : w.toNat % 2 ^ n < 2 ^ 32 := (Nat.mod_le _ _).trans_lt w.isLt
  rw [BitVec.toNat_setWidth, BitVec.extractLsb'_toNat, BitVec.toNat_and, BitVec.toNat_ofNat,
    Nat.shiftRight_zero, Nat.mod_eq_of_lt hmod, Nat.mod_eq_of_lt hlt, Nat.and_two_pow_sub_one_eq_mod]

/-- An operand reads back what was written to its writable bits. -/
theorem readLoc_writeLoc {l : Loc} (hl : l.isOperand = true) (s : State) (w : Word) :
    readLoc (writeLoc s w l) l = some (w &&& l.mask) := by
  have hfull : w &&& 0xFFFFFFFF = w := BitVec.and_allOnes
  cases l with
  | fin | phaseMdeg | argPoll => exact congrArg some hfull.symm
  | ctrlShadow => exact congrArg some (setWidth_extractLsb'_zero w (n := 16) (by omega))
  | outFreq j | batch k => simpa [readLoc, writeLoc, Loc.mask] using hfull.symm
  | outCfg j =>
    have := setWidth_extractLsb'_zero w (n := 5) (by omega)
    simpa [readLoc, writeLoc, Loc.mask] using this
  | cmd | stat | rdata | resNm | pollcnt | resSteps | resC _ | sram _ | wram _ => cases hl

section
variable {l : Loc} (s : State) (w : Word)

/-- A write of an operand word changes no other kind of state. -/
theorem writeLoc_of_isOperand (hl : l.isOperand = true) :
    (writeLoc s w l).mem = s.mem ∧ (writeLoc s w l).stat = s.stat ∧
      (writeLoc s w l).seq = s.seq ∧ (writeLoc s w l).history = s.history ∧
      (writeLoc s w l).hostReads = s.hostReads := by
  cases l with
  | fin | ctrlShadow | phaseMdeg | argPoll | outFreq _ | outCfg _ | batch _ =>
    exact ⟨rfl, rfl, rfl, rfl, rfl⟩
  | cmd | stat | rdata | resNm | pollcnt | resSteps | resC _ | sram _ | wram _ => cases hl

theorem writeLoc_fin (h : l ≠ .fin) : (writeLoc s w l).fin = s.fin := by
  cases l with
  | fin => exact absurd rfl h
  | _ => rfl

theorem writeLoc_ctrlShadow (h : l ≠ .ctrlShadow) :
    (writeLoc s w l).ctrlShadow = s.ctrlShadow := by
  cases l with
  | ctrlShadow => exact absurd rfl h
  | _ => rfl

theorem writeLoc_phaseMdeg (h : l ≠ .phaseMdeg) : (writeLoc s w l).phaseMdeg = s.phaseMdeg := by
  cases l with
  | phaseMdeg => exact absurd rfl h
  | _ => rfl

theorem writeLoc_argPoll (h : l ≠ .argPoll) : (writeLoc s w l).argPoll = s.argPoll := by
  cases l with
  | argPoll => exact absurd rfl h
  | _ => rfl

theorem writeLoc_outFreq {j : Fin 16} (h : l ≠ .outFreq j) :
    (writeLoc s w l).outFreq[j] = s.outFreq[j] := by
  cases l with
  | outFreq i => exact Vector.getElem_set_ne i.isLt _ fun hij => h (congrArg Loc.outFreq (Fin.ext hij))
  | _ => rfl

theorem writeLoc_outCfg {j : Fin 16} (h : l ≠ .outCfg j) :
    (writeLoc s w l).outCfg[j] = s.outCfg[j] := by
  cases l with
  | outCfg i => exact Vector.getElem_set_ne i.isLt _ fun hij => h (congrArg Loc.outCfg (Fin.ext hij))
  | _ => rfl

theorem writeLoc_batch {k : Fin 64} (h : l ≠ .batch k) :
    (writeLoc s w l).batch[k] = s.batch[k] := by
  cases l with
  | batch i => exact Vector.getElem_set_ne i.isLt _ fun hij => h (congrArg Loc.batch (Fin.ext hij))
  | _ => rfl

end

/-- A read does not depend on the moves to come. -/
theorem readLoc_inputs (s : State) (is : List Input) (l : Loc) :
    readLoc { s with inputs := is } l = readLoc s l := by
  cases l <;> rfl

/-- Nor does a write. -/
theorem writeLoc_inputs (s : State) (is : List Input) (w : Word) (l : Loc) :
    writeLoc { s with inputs := is } w l = { writeLoc s w l with inputs := is } := by
  cases l <;> rfl

/-- A host write of an operand word and a read of it, while BUSY = 0. -/
theorem run_write_read {s : State} {l : Loc} {w : Word} (hl : l.isOperand = true)
    (hp : l.present s.params = true) (hb : s.stat.busy = false)
    (h : s.inputs = [.host ⟨s.params.hostBase + l.offset, 4, .write w⟩,
      .host ⟨s.params.hostBase + l.offset, 4, .read⟩]) :
    core.run 2 s = .next { writeLoc s w l with
      inputs := [], hostReads := s.hostReads ++ [(l.offset, w &&& l.mask)] } := by
  obtain ⟨-, hstat, -, -, hreads⟩ := writeLoc_of_isOperand s w hl
  have hwrite : step s = .next { writeLoc s w l with
      inputs := [.host ⟨s.params.hostBase + l.offset, 4, .read⟩] } := by
    rw [step_writeLoc h (locAt_offset s.params hp) (.inl hb), writeLoc_inputs]
  have hread := step_readLoc (rest := []) (l := l) (w := w &&& l.mask)
    (s := { writeLoc s w l with inputs := [.host ⟨s.params.hostBase + l.offset, 4, .read⟩] })
    (by simp only [writeLoc_params]) (locAt_offset _ (by simpa only [writeLoc_params] using hp))
    (.inl (by rw [← hb]; exact congrArg Stat.busy hstat))
    (by rw [readLoc_inputs, readLoc_inputs, readLoc_writeLoc hl])
  rw [core_run_succ _ hwrite, core_run_succ _ hread, ← hreads]
  rfl

/-- The words of WrittenRegistersReadBack. -/
theorem exists_operand {p : Params} {off : Nat} {mask : Word}
    (h : ((off = 0x08 ∨ off = 0x10 ∨ off = 0x14) ∧ mask = 0xFFFFFFFF) ∨
      (off = 0x0C ∧ mask = 0x0000FFFF) ∨
      (∃ j, j < 16 ∧ j < p.outCount ∧ off = 0x100 + 8 * j ∧ mask = 0xFFFFFFFF) ∨
      (∃ j, j < 16 ∧ j < p.outCount ∧ off = 0x104 + 8 * j ∧ mask = 0x0000001F) ∨
      (∃ k, k < 64 ∧ k < p.batchMax ∧ off = 0x200 + 4 * k ∧ mask = 0xFFFFFFFF)) :
    ∃ l : Loc, l.isOperand = true ∧ l.present p = true ∧ l.offset = off ∧ l.mask = mask := by
  rcases h with ⟨rfl | rfl | rfl, rfl⟩ | ⟨rfl, rfl⟩ | ⟨j, hj, hp, rfl, rfl⟩ | ⟨j, hj, hp, rfl, rfl⟩ |
    ⟨k, hk, hp, rfl, rfl⟩
  · exact ⟨.fin, rfl, rfl, rfl, rfl⟩
  · exact ⟨.phaseMdeg, rfl, rfl, rfl, rfl⟩
  · exact ⟨.argPoll, rfl, rfl, rfl, rfl⟩
  · exact ⟨.ctrlShadow, rfl, rfl, rfl, rfl⟩
  · exact ⟨.outFreq ⟨j, hj⟩, rfl, decide_eq_true hp, rfl, rfl⟩
  · exact ⟨.outCfg ⟨j, hj⟩, rfl, decide_eq_true hp, rfl, rfl⟩
  · exact ⟨.batch ⟨k, hk⟩, rfl, decide_eq_true hp, rfl, rfl⟩

/-- Settles O19: the write stores the operand's writable bits and keeps every other word, and the read
returns what is stored. -/
theorem writtenRegistersReadBack : Obligations.WrittenRegistersReadBack := by
  intro s off mask w hoff hb h
  obtain ⟨l, hl, hp, rfl, rfl⟩ := exists_operand hoff
  obtain ⟨hmem, hstat, hseq, hhistory, -⟩ := writeLoc_of_isOperand s w hl
  refine ⟨_, run_write_read hl hp hb h, rfl, hmem, hstat, hseq, hhistory, fun hne => ?_,
    fun hne => ?_, fun hne => ?_, fun hne => ?_, fun j hne => ?_, fun j hne => ?_, fun k hne => ?_⟩
  · exact writeLoc_fin s w (mt (congrArg Loc.offset) hne)
  · exact writeLoc_ctrlShadow s w (mt (congrArg Loc.offset) hne)
  · exact writeLoc_phaseMdeg s w (mt (congrArg Loc.offset) hne)
  · exact writeLoc_argPoll s w (mt (congrArg Loc.offset) hne)
  · exact writeLoc_outFreq s w (mt (congrArg Loc.offset) hne)
  · exact writeLoc_outCfg s w (mt (congrArg Loc.offset) hne)
  · exact writeLoc_batch s w (mt (congrArg Loc.offset) hne)

end Sys2Proof.Machine
end

section
/-! One sequencer step of a command: how the step runs it, the CLEAR step, and when a codec command
stops (10_state.md R24, R46, R47, R49). -/

namespace Sys2Proof.Machine

/-! ### The sequencer's turn -/

/-- Settles O6: with no move listed, or a turn, the step is the sequencer's turn. -/
theorem stepRunsTheDecodedCommand : Obligations.StepRunsTheDecodedCommand := by
  intro s i rest hs hi
  constructor
  · intro h
    rw [step_nil h, sequencerTurn_instr hs hi]
  · intro h
    rw [step_turn h]
    exact sequencerTurn_instr hs hi

/-- A word the table reads a command from is decoded to it. -/
theorem decode_of_decodeTableWord {nbits w : Nat} {i : Instr}
    (h : decodeTableWord nbits w = some i) :
    decode (BitVec.ofNat 32 (w % 2 ^ nbits)) = .instr i := by
  unfold decodeTableWord at h
  split at h
  · cases hd : decode (BitVec.ofNat 32 (w % 2 ^ nbits)) with
    | instr j => rw [hd] at h; exact congrArg Decoded.instr (Option.some.inj h)
    | unknownOpcode => rw [hd] at h; cases h
    | reservedBits => rw [hd] at h; cases h
  · cases h

/-- Settles O7: the placed word is accepted, and the turn placed with it runs the command. -/
theorem placedWordIsRunByTheNextStep : Obligations.PlacedWordIsRunByTheNextStep := by
  intro s nbits w i h
  rw [step_turn (s := s.withFetchWord nbits w) (rest := s.inputs) rfl]
  exact sequencerTurn_instr rfl (decode_of_decodeTableWord h)

/-! ### The CLEAR step -/

/-- The CLEAR step of a configuration command. -/
theorem exec_clear {i : Instr} {s : State} (hi : isConfig i = true) (hst : s.stage = .clear) :
    exec i s = .next (clearStage s) := by
  obtain ⟨dec, e⟩ := exec_of_isConfig hi s
  rw [e, configStages, hst]

/-- Settles O29: the CLEAR step's batch is the one pair of CTRL and the base word. -/
theorem clearStepIsBestEffort : Obligations.ClearStepIsBestEffort := by
  intro i s hi hst
  have hexec := exec_clear hi hst
  rcases clearStage_cases s with ⟨hf, e⟩ | ⟨hf, e⟩ <;> rw [hexec, e]
  · refine ⟨fun hf' => absurd (hf.symm.trans hf') Bool.noConfusion, fun _ => ?_⟩
    have hsub := appliedPairs_sublist (s.params.portList [(s.params.regmap.ctrl, s.lBase)])
      s.draw.applied
    refine ⟨writeEvents _, hsub.map fun p : RegAddr × RegData => Event.write p.1 p.2, ?_⟩
    rw [List.append_assoc, State.tWrite, batchEvents_fail hf]
    rfl
  · refine ⟨fun _ => ?_, fun hf' => absurd (hf.symm.trans hf') Bool.noConfusion⟩
    rw [State.tWrite, batchEvents_ok hf]
    rfl

/-! ### Unwritten reads of the codec -/

/-- Within capacity a codec command faults exactly when its transfer finds an unwritten location. -/
theorem codec_fault_iff {nsamp : Nat} {mimo : Bool} {f : Nat → Memory → Option Memory} {s : State}
    (hn : channels mimo * nsamp ≤ s.params.sampleEntries) :
    codec nsamp mimo f s = .fault .unwrittenRead ↔ f (channels mimo * nsamp) s.mem = none := by
  rcases codec_cases nsamp mimo f s with ⟨hlt, -⟩ | ⟨-, hf, e⟩ | ⟨-, m, hf, e⟩
  · omega
  · simp [e, hf]
  · simp [e, hf]

theorem not_sramWritten {s : State} {n : Nat} :
    ¬ SramWritten s n ↔ ∃ e, e < n ∧ s.mem.readWord (sramAddr e) = none := by
  simp only [SramWritten, not_forall, ← Option.ne_none_iff_exists', not_not, exists_prop]
  rfl

/-- The bytes of `n` records of `len` bytes are unwritten somewhere exactly when one record is. -/
theorem not_wramWritten {s : State} {len n : Nat} (hlen : len = 3 ∨ len = 4) :
    ¬ WramWritten s (len * n) ↔ ∃ e, e < n ∧ recordAt s.mem len e = none := by
  have hpos : 0 < len := by omega
  simp only [WramWritten, not_forall, ← Option.ne_none_iff_exists', not_not, exists_prop,
    recordAt_eq_none hlen]
  constructor
  · rintro ⟨b, hb, hr⟩
    refine ⟨b / len, Nat.div_lt_of_lt_mul hb, b % len, Nat.mod_lt b hpos, ?_⟩
    rwa [wramAddr, Nat.add_assoc, Nat.div_add_mod]
  · rintro ⟨e, he, k, hk, hr⟩
    refine ⟨len * e + k, ?_, by rwa [wramAddr, Nat.add_assoc] at hr⟩
    calc len * e + k < len * e + len := by omega
      _ = len * (e + 1) := (Nat.mul_succ _ _).symm
      _ ≤ len * n := Nat.mul_le_mul_left _ he

/-- A pack stops exactly on an unwritten entry. -/
theorem codec_packFrom_fault {nsamp : Nat} {mimo : Bool} {rec : Word → List Byte} {len : Nat}
    {s : State} (ho : s.params.Ok) (hn : channels mimo * nsamp ≤ s.params.sampleEntries) :
    codec nsamp mimo (fun n => packFrom rec len n 0) s = .fault .unwrittenRead ↔
      ¬ SramWritten s (channels mimo * nsamp) := by
  have hcap := ho.sampleEntries_le
  rw [codec_fault_iff hn, packFrom_eq_none (by omega), not_sramWritten]
  simp

/-- An unpack stops exactly on an unwritten byte of its records. -/
theorem codec_unpackFrom_fault {nsamp : Nat} {mimo : Bool} {len : Nat} (hlen : len = 3 ∨ len = 4)
    {s : State} (ho : s.params.Ok) (hn : channels mimo * nsamp ≤ s.params.sampleEntries) :
    codec nsamp mimo (fun n => unpackFrom len n 0) s = .fault .unwrittenRead ↔
      ¬ WramWritten s (len * (channels mimo * nsamp)) := by
  have hcap := ho.sampleEntries_le
  rw [codec_fault_iff hn, unpackFrom_eq_none (by omega), not_wramWritten hlen]
  simp

/-- Settles O47: two packs and two unpacks, of records of 3 and of 4 bytes. -/
theorem codecStopsOnlyOnUnwrittenReads : Obligations.CodecStopsOnlyOnUnwrittenReads := by
  intro nsamp mimo s n ho hn
  exact ⟨codec_packFrom_fault ho hn, codec_packFrom_fault ho hn,
    codec_unpackFrom_fault (.inl rfl) ho hn, codec_unpackFrom_fault (.inr rfl) ho hn⟩

end Sys2Proof.Machine
end

section
/-! The result registers (10_state.md R26, R29, R32-R36): what each part of a step writes of them. -/

namespace Sys2Proof.Machine

/-- RDATA, RES_NM, RES_C, RES_STEPS, POLLCNT, CTRL_SHADOW and STAT.OVR. -/
def State.results (s : State) : BitVec 16 × ResNm × Vector (BitVec 9) 16 × ResSteps × BitVec 16 ×
    BitVec 16 × Bool :=
  (s.rdata, s.resNm, s.resC, s.resSteps, s.pollcnt, s.ctrlShadow, s.stat.ovr)

/-! ### The shared stages -/

theorem batchStage_results (s : State) : (batchStage s).results = s.results := by
  rcases batchStage_cases s with ⟨-, e⟩ | ⟨-, -, e⟩ | ⟨-, -, e⟩ <;> rw [e] <;> rfl

theorem clearStage_results (s : State) : (clearStage s).results = s.results := by
  rcases clearStage_cases s with ⟨-, e⟩ | ⟨-, e⟩ <;> rw [e] <;> rfl

theorem finishTerm_results (s : State) : (finishTerm s).results = s.results := by
  rcases finishTerm_cases s with ⟨-, e⟩ | ⟨-, e⟩ | ⟨_, -, e⟩ | ⟨-, e⟩ <;> rw [e] <;> rfl

/-- A poll step writes no result register, or counts its read in POLLCNT. -/
theorem pollStage_results (a : RegAddr) (exit : Stage) (s : State) :
    (pollStage a exit s).results = s.results ∨
      ((pollStage a exit s).results = { s with pollcnt := s.pollcnt + 1 }.results ∧
        (pollStage a exit s).history = s.history ++ readEvents (s.params.portAddr a) s.draw) := by
  rcases pollStage_cases a exit s with ⟨-, e⟩ | ⟨-, -, e⟩ | ⟨-, -, _, -, e⟩ | ⟨-, -, -, e⟩ <;>
    rw [e]
  · exact .inl rfl
  · exact .inr ⟨rfl, rfl⟩
  · exact .inr ⟨rfl, rfl⟩
  · exact .inr ⟨rfl, rfl⟩

/-! ### The commands -/

theorem regWriteDecode_results (count : Nat) (s : State) :
    (regWriteDecode count s).results = s.results := by
  unfold regWriteDecode; split <;> rfl

theorem pollDecode_results (s : State) : (pollDecode s).results = s.results := by
  unfold pollDecode; split <;> rfl

theorem codec_results {nsamp : Nat} {mimo : Bool} {f : Nat → Memory → Option Memory} {s t : State}
    (h : codec nsamp mimo f s = .next t) : t.results = s.results := by
  rcases codec_cases nsamp mimo f s with ⟨-, e⟩ | ⟨-, -, e⟩ | ⟨-, _, -, e⟩ <;>
    rw [e] at h <;> cases h <;> rfl

/-- What a sequencer step of command `i` may write of the result registers. -/
structure WritesItsResults (i : Instr) (s t : State) : Prop where
  rdata : t.rdata = s.rdata ∨ ∃ a, i = .regRead a
  pll : (t.resNm = s.resNm ∧ t.resC = s.resC) ∨
    (s.stage = .decode ∧ ∃ pll nout, i = .pllConfig pll nout)
  steps : t.resSteps = s.resSteps ∨
    (s.stage = .decode ∧ ∃ pll o, i = .phaseFixed pll o ∨ i = .phaseSearch pll o)
  pollcnt : t.pollcnt = s.pollcnt ∨
    (t.pollcnt = s.pollcnt + 1 ∧ s.stage = .poll ∧ hasStage i .poll = true ∧
      ∃ a, t.history = s.history ++ readEvents a s.draw)
  shadow : t.ctrlShadow = s.ctrlShadow ∨ (s.stage = .finish ∧ isConfig i = true)
  ovr : t.stat.ovr = s.stat.ovr

section
variable {i : Instr} {s t : State}

theorem results_eq_iff : t.results = s.results ↔
    t.rdata = s.rdata ∧ t.resNm = s.resNm ∧ t.resC = s.resC ∧ t.resSteps = s.resSteps ∧
      t.pollcnt = s.pollcnt ∧ t.ctrlShadow = s.ctrlShadow ∧ t.stat.ovr = s.stat.ovr := by
  simp only [State.results, Prod.mk.injEq]

/-- A step that writes none of the result registers. -/
theorem WritesItsResults.of_results_eq (h : t.results = s.results) : WritesItsResults i s t := by
  obtain ⟨hrdata, hnm, hc, hsteps, hpoll, hshadow, hovr⟩ := results_eq_iff.1 h
  exact ⟨.inl hrdata, .inl ⟨hnm, hc⟩, .inl hsteps, .inl hpoll, .inl hshadow, hovr⟩

theorem writesItsResults_pollStage (hst : s.stage = .poll) (hi : hasStage i .poll = true)
    (a : RegAddr) (exit : Stage) : WritesItsResults i s (pollStage a exit s) := by
  rcases pollStage_results a exit s with h | ⟨h, hev⟩
  · exact .of_results_eq h
  · obtain ⟨hrdata, hnm, hc, hsteps, hpoll, hshadow, hovr⟩ := results_eq_iff.1 h
    exact ⟨.inl hrdata, .inl ⟨hnm, hc⟩, .inl hsteps, .inr ⟨hpoll, hst, hi, _, hev⟩, .inl hshadow,
      hovr⟩

/-- A configuration sequence, by its DECODE step. -/
theorem writesItsResults_configStages {dec : State → State} (hc : isConfig i = true)
    (hdec : s.stage = .decode → WritesItsResults i s (dec s)) :
    WritesItsResults i s (configStages dec s) := by
  unfold configStages
  cases hst : s.stage with
  | decode => exact hdec hst
  | batch => exact .of_results_eq (batchStage_results s)
  | poll => exact writesItsResults_pollStage hst (hasStage_of_isConfig hc _) _ _
  | clear => exact .of_results_eq (clearStage_results s)
  | finish =>
    obtain ⟨hrdata, hnm, hresC, hsteps, hpoll, -, hovr⟩ :=
      results_eq_iff.1 (finishTerm_results { s with ctrlShadow := s.lBase })
    exact ⟨.inl hrdata, .inl ⟨hnm, hresC⟩, .inl hsteps, .inl hpoll, .inr ⟨hst, hc⟩, hovr⟩

theorem writesItsResults_pllDecode (pll nout : Nat) (hst : s.stage = .decode) :
    WritesItsResults (.pllConfig pll nout) s (pllDecode pll nout s) := by
  rcases pllDecode_cases pll nout s with ⟨_, -, e⟩ | ⟨_, -, e⟩ <;> rw [e]
  · exact .of_results_eq rfl
  · exact ⟨.inl rfl, .inr ⟨hst, pll, nout, rfl⟩, .inl rfl, .inl rfl, .inl rfl, rfl⟩

theorem writesItsResults_phaseFixedDecode (pll : Nat) (o : Fin 16) (hst : s.stage = .decode) :
    WritesItsResults (.phaseFixed pll o) s (phaseFixedDecode pll o s) := by
  rcases phaseFixedDecode_cases pll o s with ⟨_, -, e⟩ | ⟨-, -, -, e⟩ <;> rw [e]
  · exact .of_results_eq rfl
  · exact ⟨.inl rfl, .inl ⟨rfl, rfl⟩, .inr ⟨hst, pll, o, .inl rfl⟩, .inl rfl, .inl rfl, rfl⟩

theorem writesItsResults_phaseSearchDecode (pll : Nat) (o : Fin 16) (hst : s.stage = .decode) :
    WritesItsResults (.phaseSearch pll o) s (phaseSearchDecode pll o s) := by
  rcases phaseSearchDecode_cases pll o s with ⟨_, -, e⟩ | ⟨-, -, e⟩ <;> rw [e]
  · exact .of_results_eq rfl
  · exact ⟨.inl rfl, .inl ⟨rfl, rfl⟩, .inr ⟨hst, pll, o, .inr rfl⟩, .inl rfl, .inl rfl, rfl⟩

theorem writesItsResults_execRegRead {addr : RegAddr} (h : execRegRead addr s = .next t) :
    WritesItsResults (.regRead addr) s t := by
  cases h
  split
  · exact .of_results_eq rfl
  · exact ⟨.inr ⟨addr, rfl⟩, .inl ⟨rfl, rfl⟩, .inl rfl, .inl rfl, .inl rfl, rfl⟩

theorem writesItsResults_execRegWrite {count : Nat} (h : execRegWrite count s = .next t) :
    WritesItsResults (.regWrite count) s t := by
  cases h
  cases s.stage with
  | decode => exact .of_results_eq (regWriteDecode_results count s)
  | batch => exact .of_results_eq rfl
  | poll => exact .of_results_eq rfl
  | clear => exact .of_results_eq rfl
  | finish => exact .of_results_eq (finishTerm_results s)

theorem writesItsResults_execPoll {addr : RegAddr} (h : execPoll addr s = .next t) :
    WritesItsResults (.poll addr) s t := by
  cases h
  cases hst : s.stage with
  | decode => exact .of_results_eq (pollDecode_results s)
  | batch => exact .of_results_eq rfl
  | poll => exact writesItsResults_pollStage hst rfl addr .finish
  | clear => exact .of_results_eq rfl
  | finish => exact .of_results_eq (finishTerm_results s)

/-- One sequencer step of a command writes only the command's own result registers. -/
theorem exec_writesItsResults (h : exec i s = .next t) : WritesItsResults i s t := by
  cases i with
  | nop => cases h; exact .of_results_eq rfl
  | regRead _ => exact writesItsResults_execRegRead h
  | regWrite _ => exact writesItsResults_execRegWrite h
  | poll _ => exact writesItsResults_execPoll h
  | pllConfig _ _ =>
    cases h; exact writesItsResults_configStages rfl (writesItsResults_pllDecode _ _)
  | phaseFixed _ _ =>
    cases h; exact writesItsResults_configStages rfl (writesItsResults_phaseFixedDecode _ _)
  | phaseSearch _ _ =>
    cases h; exact writesItsResults_configStages rfl (writesItsResults_phaseSearchDecode _ _)
  | pack12 _ _ => rw [exec, execPack12] at h; exact .of_results_eq (codec_results h)
  | unpack12 _ _ => rw [exec, execUnpack12] at h; exact .of_results_eq (codec_results h)
  | pack16 _ _ => rw [exec, execPack16] at h; exact .of_results_eq (codec_results h)
  | unpack16 _ _ => rw [exec, execUnpack16] at h; exact .of_results_eq (codec_results h)

/-! ### The moves of a step -/

/-- The sequencer's turn writes no result register, or it is a step of a command that writes its
own. -/
theorem sequencerTurn_results (h : sequencerTurn s = .next t) :
    t.results = s.results ∨
      (s.seq = .exec ∧ ∃ i, decode s.cmd = .instr i ∧ WritesItsResults i s t) := by
  rcases sequencerTurn_cases s with ⟨-, e⟩ | ⟨-, -, e⟩ | ⟨-, -, e⟩ | ⟨hs, i, hi, e⟩ <;> rw [e] at h
  · cases h; exact .inl rfl
  · cases h; exact .inl rfl
  · cases h; exact .inl rfl
  · exact .inr ⟨hs, i, hi, exec_writesItsResults h⟩

theorem hostRead_results {off : Nat} {l : Loc} (h : hostRead off l s = .next t) :
    t.results = s.results := by
  rcases hostRead_cases off l s with ⟨-, -, e⟩ | ⟨-, ⟨_, -, e⟩ | ⟨-, e⟩⟩ <;> rw [e] at h <;>
    cases h <;> rfl

/-- A host write of CMD while BUSY = 0 clears POLLCNT, one of CTRL_SHADOW stores it; OVR is set while
BUSY = 1 and cleared through STAT. -/
theorem hostWrite_results (l : Loc) (w : Word) (s : State) :
    ((hostWrite l w s).rdata = s.rdata ∧ (hostWrite l w s).resNm = s.resNm ∧
      (hostWrite l w s).resC = s.resC ∧ (hostWrite l w s).resSteps = s.resSteps) ∧
    ((hostWrite l w s).pollcnt = s.pollcnt ∨
      ((hostWrite l w s).pollcnt = 0 ∧ s.stat.busy = false ∧ l = .cmd)) ∧
    ((hostWrite l w s).ctrlShadow = s.ctrlShadow ∨ (s.stat.busy = false ∧ l = .ctrlShadow)) ∧
    ((hostWrite l w s).stat.ovr = s.stat.ovr ∨ (hostWrite l w s).stat.ovr = true ∨
      (l = .stat ∧ (hostWrite l w s).stat.ovr = (s.stat.ovr && !w.getLsbD 4))) := by
  rcases hostWrite_cases l w s with ⟨-, -, e⟩ | ⟨hb | rfl, e⟩ <;> rw [e]
  · exact ⟨⟨rfl, rfl, rfl, rfl⟩, .inl rfl, .inl rfl, .inr (.inl rfl)⟩
  · cases l with
    | cmd => exact ⟨⟨rfl, rfl, rfl, rfl⟩, .inr ⟨rfl, hb, rfl⟩, .inl rfl, .inl rfl⟩
    | ctrlShadow => exact ⟨⟨rfl, rfl, rfl, rfl⟩, .inl rfl, .inr ⟨hb, rfl⟩, .inl rfl⟩
    | stat => exact ⟨⟨rfl, rfl, rfl, rfl⟩, .inl rfl, .inl rfl, .inr (.inr ⟨rfl, rfl⟩)⟩
    | fin | phaseMdeg | argPoll | rdata | resNm | pollcnt | resSteps | resC _ | outFreq _ | outCfg _
    | batch _ | sram _ | wram _ => exact ⟨⟨rfl, rfl, rfl, rfl⟩, .inl rfl, .inl rfl, .inl rfl⟩
  · exact ⟨⟨rfl, rfl, rfl, rfl⟩, .inl rfl, .inl rfl, .inr (.inr ⟨rfl, rfl⟩)⟩

theorem WritesItsResults.of_popInput (h : WritesItsResults i s.popInput t) :
    WritesItsResults i s t :=
  ⟨h.rdata, h.pll, h.steps, h.pollcnt, h.shadow, h.ovr⟩

/-- Outside a reset a step writes no result register, or it is the sequencer's step of a command, or a
host write of a mapped word. -/
theorem step_results (hr : ∀ b, s.inputs.head? ≠ some (.reset b)) (h : step s = .next t) :
    t.results = s.results ∨
    (s.seq = .exec ∧ ∃ i, decode s.cmd = .instr i ∧ WritesItsResults i s t) ∨
    ∃ l w, s.inputs.head? = some (.host ⟨s.params.hostBase + l.offset, 4, .write w⟩) ∧
      t = hostWrite l w s.popInput := by
  rcases step_cases s with ⟨-, e⟩ | ⟨_, -, e⟩ | ⟨a, _, hin, e⟩ | ⟨b, _, hin, -⟩
  · rw [e] at h
    exact (sequencerTurn_results h).imp_right .inl
  · rw [e] at h
    rcases sequencerTurn_results h with hres | ⟨hs, i, hi, hw⟩
    · exact .inl hres
    · exact .inr (.inl ⟨hs, i, hi, hw.of_popInput⟩)
  · rw [e] at h
    rcases hostAccess_cases a s.popInput with ⟨-, e⟩ | ⟨off, l, hloc, ⟨-, e⟩ | ⟨w, hw, e⟩⟩ <;>
      rw [e] at h
    · cases h
    · exact .inl (hostRead_results h : t.results = s.popInput.results)
    · cases h
      obtain ⟨haddr, hbytes, hat⟩ := locate_eq_some hloc
      obtain rfl : off = l.offset := (locAt_eq_some.1 hat).1
      refine .inr (.inr ⟨l, w, ?_, rfl⟩)
      obtain ⟨addr, bytes, op⟩ := a
      obtain rfl : addr = s.params.hostBase + l.offset := haddr
      obtain rfl : bytes = 4 := hbytes
      obtain rfl : op = .write w := hw
      rw [hin]; rfl
  · exact absurd (by rw [hin]; rfl) (hr b)

end

/-- A read under a draw has one event. -/
theorem readEvents_eq (a : RegAddr) (d : Draw) :
    readEvents a d = [if d.fails then .readFail a else .read a d.value] := by
  unfold readEvents; split <;> rfl

/-- Settles O56, by the three kinds of step of `step_results`. -/
theorem resultRegistersHaveOneWriter : Obligations.ResultRegistersHaveOneWriter := by
  intro s t hr h
  rcases step_results hr h with hres | ⟨hs, i, hi, hw⟩ | ⟨l, w, hin, rfl⟩
  · obtain ⟨hrdata, hnm, hc, hsteps, hpoll, hshadow, -⟩ := results_eq_iff.1 hres
    exact ⟨(absurd hrdata ·), (Or.elim · (absurd hnm) (absurd hc)), (absurd hsteps ·),
      (absurd hpoll ·), (absurd hshadow ·)⟩
  · refine ⟨fun hne => ?_, fun hne => ?_, fun hne => ?_, fun hne => ?_, fun hne => ?_⟩
    · obtain ⟨a, rfl⟩ := hw.rdata.resolve_left hne
      exact ⟨hs, a, hi⟩
    · obtain ⟨hst, pll, nout, rfl⟩ :=
        hw.pll.resolve_left fun ⟨hnm, hc⟩ => hne.elim (absurd hnm) (absurd hc)
      exact ⟨hs, hst, pll, nout, hi⟩
    · obtain ⟨hst, pll, o, rfl | rfl⟩ := hw.steps.resolve_left hne
      · exact ⟨hs, hst, pll, o, .inl hi⟩
      · exact ⟨hs, hst, pll, o, .inr hi⟩
    · obtain ⟨hk, hst, hpoll, a, hev⟩ := hw.pollcnt.resolve_left hne
      exact .inr ⟨hk, hs, hst, ⟨i, hi, hpoll⟩, a, hev.trans (by rw [readEvents_eq])⟩
    · obtain ⟨hst, hc⟩ := hw.shadow.resolve_left hne
      exact .inl ⟨hs, hst, i, hi, hc⟩
  · obtain ⟨⟨hrdata, hnm, hc, hsteps⟩, hpoll, hshadow, -⟩ := hostWrite_results l w s.popInput
    refine ⟨(absurd hrdata ·), (Or.elim · (absurd hnm) (absurd hc)), (absurd hsteps ·), fun hne => ?_,
      fun hne => ?_⟩
    · obtain ⟨hk, hb, rfl⟩ := hpoll.resolve_left hne
      exact .inl ⟨hk, hb, w, hin⟩
    · obtain ⟨hb, rfl⟩ := hshadow.resolve_left hne
      exact .inr ⟨hb, w, hin⟩

/-- Settles O59: no step of a command writes OVR, and of the host's writes only that of STAT clears
it. -/
theorem ovrIsSticky : Obligations.OvrIsSticky := by
  intro s t hset h hclear
  by_cases hb : ∃ b, s.inputs.head? = some (.reset b)
  · exact .inl hb
  right
  have hne : t.stat.ovr ≠ s.stat.ovr := by simp [hset, hclear]
  rcases step_results (fun b hb' => hb ⟨b, hb'⟩) h with hres | ⟨-, _, -, hw⟩ | ⟨l, w, hin, rfl⟩
  · obtain ⟨-, -, -, -, -, -, hovr⟩ := results_eq_iff.1 hres
    exact absurd hovr hne
  · exact absurd hw.ovr hne
  · obtain ⟨-, -, -, hovr | hovr | ⟨rfl, hovr⟩⟩ := hostWrite_results l w s.popInput
    · exact absurd hovr hne
    · exact absurd (hclear.symm.trans hovr) Bool.false_ne_true
    · refine ⟨w, ?_, hin⟩
      simpa [hset, hclear] using hovr

end Sys2Proof.Machine
end

section
/-! Host accesses: when one is a bus error, and what a read of a mapped word returns while BUSY = 0
(20_memory.md R60-R64, 10_state.md R49). -/

namespace Sys2Proof.Machine

/-! ### Bus errors -/

/-- No read of a mapped word is a bus error. -/
theorem hostRead_ne_busError (off : Nat) (l : Loc) (s : State) :
    hostRead off l s ≠ .fault .hostBusError := by
  rcases hostRead_cases off l s with ⟨-, -, e⟩ | ⟨-, ⟨_, -, e⟩ | ⟨-, e⟩⟩ <;> simp [e]

/-- An access is a bus error exactly when it falls on no word. -/
theorem hostAccess_eq_busError {a : HostAccess} {s : State} :
    hostAccess a s = .fault .hostBusError ↔ locate s.params a.addr a.bytes = none := by
  rcases hostAccess_cases a s with ⟨hloc, e⟩ | ⟨off, l, hloc, ⟨-, e⟩ | ⟨w, -, e⟩⟩
  · simp [hloc, e]
  · simp [hloc, e, hostRead_ne_busError]
  · simp [hloc, e]

/-- With parameters in range the tables and RAMs end where their sizes say. -/
theorem locAt_eq_none_of_ok {p : Params} (ho : p.Ok) {off : Nat} :
    locAt p off = none ↔ ¬ (off % 4 = 0 ∧
      (off < 0x28 ∨ (0x40 ≤ off ∧ off < 0x40 + 4 * p.outCount) ∨
        (0x100 ≤ off ∧ off < 0x100 + 8 * p.outCount) ∨
        (0x200 ≤ off ∧ off < 0x200 + 4 * p.batchMax) ∨
        (0x1000 ≤ off ∧ off < 0x1000 + 4 * p.sampleEntries) ∨
        (0x2000 ≤ off ∧ off + 4 ≤ 0x2000 + p.wireBytes))) := by
  have hout := ho.outCount_le
  have hbatch := ho.batchMax_le
  have hsram := ho.sampleEntries_le
  have hwram := ho.wireBytes_le
  rw [locAt_eq_none]
  omega

/-- Settles O12: the access falls on no word exactly when it is below the window, not 4 bytes wide, or
at an offset that holds none. -/
theorem busErrorExactly : Obligations.BusErrorExactly := by
  intro s a rest ho h
  have hstep : step s = .fault .hostBusError ↔ locate s.params a.addr a.bytes = none := by
    rw [step_host h]; exact hostAccess_eq_busError
  rw [hstep, locate_eq_none, locAt_eq_none_of_ok ho]
  constructor
  · rintro hnone ⟨hbytes, off, haddr, hoff⟩
    rcases hnone with hlt | hne | hnone
    · omega
    · exact hne hbytes
    · rw [haddr, Nat.add_sub_cancel_left] at hnone
      exact hnone hoff
  · intro hnot
    by_contra hsome
    push Not at hsome
    obtain ⟨hle, hbytes, hoff⟩ := hsome
    exact hnot ⟨hbytes, _, (Nat.add_sub_of_le hle).symm, hoff⟩

/-! ### Reads while BUSY = 0 -/

section
variable {s : State} {l : Loc}

/-- A RAM word reads as the four bytes at its offset. -/
theorem readLoc_of_ram (h : 0x1000 ≤ l.offset) : readLoc s l = s.mem.readWord l.offset := by
  cases l with
  | sram _ | wram _ => rfl
  | resC i | outFreq i | outCfg i | batch i => simp only [Loc.offset] at h; omega
  | _ => simp [Loc.offset] at h

/-- A register or table entry always has a value. -/
theorem readLoc_ne_none (h : l.offset < 0x1000) : readLoc s l ≠ none := by
  cases l with
  | sram _ | wram _ => simp only [Loc.offset] at h; omega
  | _ => exact Option.some_ne_none _

/-- A word has no value exactly when it is a RAM word with an unwritten byte (10_state.md R49). -/
theorem readLoc_eq_none : readLoc s l = none ↔
    ∃ k, k < 4 ∧ 0x1000 ≤ l.offset ∧ s.mem.read (l.offset + k) = none := by
  rcases Nat.lt_or_ge l.offset 0x1000 with hlt | hge
  · refine ⟨fun h => absurd h (readLoc_ne_none hlt), fun ⟨_, _, hge, _⟩ => by omega⟩
  · simp only [readLoc_of_ram hge, Memory.readWord_eq_none, hge, true_and]

/-- A host read of a word with no value while BUSY = 0. -/
theorem step_readLoc_none {off : Nat} {rest : List Input}
    (h : s.inputs = .host ⟨s.params.hostBase + off, 4, .read⟩ :: rest)
    (hl : locAt s.params off = some l) (hb : s.stat.busy = false) (hw : readLoc s l = none) :
    step s = .fault .unwrittenRead := by
  rw [step_hostRead h hl]
  rcases hostRead_cases off l { s with inputs := rest } with
    ⟨hb', -, -⟩ | ⟨-, ⟨_, hw', -⟩ | ⟨-, e⟩⟩
  · exact absurd (hb.symm.trans hb') Bool.false_ne_true
  · rw [readLoc_inputs, hw] at hw'; cases hw'
  · exact e

end

/-- The word of four byte lanes as a number (20_memory.md R62). -/
theorem wordOfBytes_toNat (b0 b1 b2 b3 : Byte) : (wordOfBytes b0 b1 b2 b3).toNat =
    b0.toNat + 2 ^ 8 * b1.toNat + 2 ^ 16 * b2.toNat + 2 ^ 24 * b3.toNat := by
  simp only [wordOfBytes, toNat_append_eq_add]
  omega

/-- A word read from RAM as a number, by its four bytes in rising order. -/
theorem Memory.toNat_of_readWord {m : Memory} {a : Nat} {w : Word} (hw : m.readWord a = some w)
    {b0 b1 b2 b3 : Byte} (h0 : m.read a = some b0) (h1 : m.read (a + 1) = some b1)
    (h2 : m.read (a + 2) = some b2) (h3 : m.read (a + 3) = some b3) :
    w.toNat = b0.toNat + 2 ^ 8 * b1.toNat + 2 ^ 16 * b2.toNat + 2 ^ 24 * b3.toNat := by
  have hbytes : m.readWord a = some (wordOfBytes b0 b1 b2 b3) :=
    Memory.readWord_eq_some.2 ⟨b0, b1, b2, b3, h0, h1, h2, h3, rfl⟩
  rw [Option.some.inj (hw.symm.trans hbytes), wordOfBytes_toNat]

/-- A word read from a register of `n` bits is the register's number. -/
theorem toNat_of_some_setWidth {n : Nat} {v : BitVec n} {w : Word} (hn : n ≤ 32)
    (h : some (v.setWidth 32) = some w) : w.toNat = v.toNat := by
  rw [← Option.some.inj h, BitVec.toNat_setWidth_of_le hn]

/-- Settles O18: the offset fixes the word, which stops the read exactly when it has no value and is
else returned. -/
theorem idleReadHasNoEffect : Obligations.IdleReadHasNoEffect := by
  intro s off l rest h hl hb
  have hoff : off = l.offset := (locAt_eq_some.1 hl).1
  have hnone := readLoc_eq_none (s := s) (l := l)
  rw [← hoff] at hnone
  refine ⟨fun hk => step_readLoc_none h hl hb (hnone.2 hk), fun hk => ?_⟩
  obtain ⟨w, hw⟩ := Option.ne_none_iff_exists'.1 (mt hnone.1 hk)
  have hval : ∀ l' : Loc, off = l'.offset → readLoc s l' = some w := by
    rintro l' rfl
    rwa [← eq_of_locAt_offset hl]
  refine ⟨w, step_readLoc h hl (.inl hb) ((readLoc_inputs s rest l).trans hw),
    fun ho => ?_, fun ho => ?_, fun ho => ?_, fun ho => ?_, fun ho => ?_, fun ho => ?_,
    fun ho => ?_, fun ho => ?_, fun ho => ?_, fun ho => ?_, fun i ho => ?_, fun j ho => ?_,
    fun j ho => ?_, fun k ho => ?_, fun b0 b1 b2 b3 ho h0 h1 h2 h3 => ?_⟩
  · exact (Option.some.inj (hval .cmd ho)).symm
  · exact (Option.some.inj (hval .stat ho)).symm
  · exact (Option.some.inj (hval .fin ho)).symm
  · exact toNat_of_some_setWidth (by omega) (hval .ctrlShadow ho)
  · exact (Option.some.inj (hval .phaseMdeg ho)).symm
  · exact (Option.some.inj (hval .argPoll ho)).symm
  · exact toNat_of_some_setWidth (by omega) (hval .rdata ho)
  · rw [← Option.some.inj (hval .resNm ho), ResNm.word_toNat]
  · exact toNat_of_some_setWidth (by omega) (hval .pollcnt ho)
  · rw [← Option.some.inj (hval .resSteps ho), ResSteps.word_toNat]
  · exact toNat_of_some_setWidth (by omega) (hval (.resC i) ho)
  · exact (Option.some.inj (hval (.outFreq j) ho)).symm
  · exact toNat_of_some_setWidth (by omega) (hval (.outCfg j) ho)
  · exact (Option.some.inj (hval (.batch k) ho)).symm
  · have hram : s.mem.readWord off = some w := by
      rw [← hw, hoff, readLoc_of_ram (hoff ▸ ho)]
    exact Memory.toNat_of_readWord hram h0 h1 h2 h3

end Sys2Proof.Machine
end

section
/-! What a failed batch may have applied (20_memory.md R77). -/

namespace Sys2Proof.Machine

theorem appliedPairs_cons (p : RegAddr × RegData) (l : List (RegAddr × RegData)) (b : Bool)
    (applied : List Bool) :
    appliedPairs (p :: l) (b :: applied) =
      if b then p :: appliedPairs l applied else appliedPairs l applied := by
  cases b <;> rfl

/-- Every in-order subsequence is applied under some draw, by the subsequence's construction. -/
theorem exists_appliedPairs_eq {l sub : List (RegAddr × RegData)} (h : sub.Sublist l) :
    ∃ applied, appliedPairs l applied = sub := by
  induction h with
  | slnil => exact ⟨[], rfl⟩
  | cons p _ ih =>
    obtain ⟨applied, rfl⟩ := ih
    exact ⟨false :: applied, appliedPairs_cons p _ false applied⟩
  | cons_cons p _ ih =>
    obtain ⟨applied, rfl⟩ := ih
    exact ⟨true :: applied, appliedPairs_cons p _ true applied⟩

/-- Settles O26: what a draw applies is a subsequence, and every subsequence is applied by one. -/
theorem failedBatchAppliesAnySubsequence : Obligations.FailedBatchAppliesAnySubsequence := by
  intro l sub
  constructor
  · rintro ⟨applied, rfl⟩
    exact appliedPairs_sublist l applied
  · exact exists_appliedPairs_eq

end Sys2Proof.Machine
end

section
/-! The event history is appended to and never read (20_memory.md R78): every part of a step, run with
more events before its history, does the same and keeps them in front. -/

namespace Sys2Proof.Machine

/-- The state with earlier events put before its history. -/
def State.prependHistory (s : State) (h : List Event) : State :=
  { s with history := h ++ s.history }

/-- A step's outcome with earlier events put before the history of its next state. -/
def Step.prependHistory (o : Step) (h : List Event) : Step :=
  match o with
  | .next t => .next (t.prependHistory h)
  | .fault f => .fault f
  | .refused r => .refused r

section
variable (s : State) (h : List Event)

/-! ### What a step reads is not the history -/

@[simp] theorem State.prependHistory_params : (s.prependHistory h).params = s.params := rfl
@[simp] theorem State.prependHistory_cmd : (s.prependHistory h).cmd = s.cmd := rfl
@[simp] theorem State.prependHistory_stat : (s.prependHistory h).stat = s.stat := rfl
@[simp] theorem State.prependHistory_argPoll : (s.prependHistory h).argPoll = s.argPoll := rfl
@[simp] theorem State.prependHistory_pollcnt : (s.prependHistory h).pollcnt = s.pollcnt := rfl
@[simp] theorem State.prependHistory_mem : (s.prependHistory h).mem = s.mem := rfl
@[simp] theorem State.prependHistory_seq : (s.prependHistory h).seq = s.seq := rfl
@[simp] theorem State.prependHistory_stage : (s.prependHistory h).stage = s.stage := rfl
@[simp] theorem State.prependHistory_term : (s.prependHistory h).term = s.term := rfl
@[simp] theorem State.prependHistory_lBatch : (s.prependHistory h).lBatch = s.lBatch := rfl
@[simp] theorem State.prependHistory_lBase : (s.prependHistory h).lBase = s.lBase := rfl
@[simp] theorem State.prependHistory_lPred : (s.prependHistory h).lPred = s.lPred := rfl
@[simp] theorem State.prependHistory_inputs : (s.prependHistory h).inputs = s.inputs := rfl
@[simp] theorem State.prependHistory_draw : (s.prependHistory h).draw = s.draw := rfl
@[simp] theorem State.prependHistory_finHz : (s.prependHistory h).finHz = s.finHz := rfl
@[simp] theorem State.prependHistory_outList (nout : Nat) :
    (s.prependHistory h).outList nout = s.outList nout := rfl
@[simp] theorem State.prependHistory_phase : (s.prependHistory h).phase = s.phase := rfl
@[simp] theorem State.prependHistory_divider (o : Fin 16) :
    (s.prependHistory h).divider o = s.divider o := rfl

/-! ### The transport and the shared stages -/

@[simp] theorem State.tRead_prependHistory (a : RegAddr) :
    (s.prependHistory h).tRead a = (s.tRead a).prependHistory h :=
  congrArg (fun e => { s.popDraw with history := e }) (List.append_assoc h s.history _)

@[simp] theorem State.tWrite_prependHistory (l : List (RegAddr × RegData)) :
    (s.prependHistory h).tWrite l = (s.tWrite l).prependHistory h :=
  congrArg (fun e => { s.popDraw with history := e }) (List.append_assoc h s.history _)

theorem batchStage_prependHistory :
    batchStage (s.prependHistory h) = (batchStage s).prependHistory h := by
  simp only [batchStage, State.tWrite_prependHistory, State.prependHistory_draw,
    State.prependHistory_params, State.prependHistory_lBatch]
  split
  · rfl
  · split <;> rfl

theorem pollStage_prependHistory (a : RegAddr) (exit : Stage) :
    pollStage a exit (s.prependHistory h) = (pollStage a exit s).prependHistory h := by
  simp only [pollStage, State.tRead_prependHistory, State.prependHistory_draw,
    State.prependHistory_params, State.prependHistory_pollcnt, State.prependHistory_lPred]
  split
  · rfl
  · split
    · rfl
    · split <;> rfl

theorem clearStage_prependHistory :
    clearStage (s.prependHistory h) = (clearStage s).prependHistory h := by
  simp only [clearStage, State.tWrite_prependHistory, State.prependHistory_draw,
    State.prependHistory_params, State.prependHistory_lBase]
  split <;> rfl

theorem finishTerm_prependHistory :
    finishTerm (s.prependHistory h) = (finishTerm s).prependHistory h := by
  simp only [finishTerm, State.prependHistory_term]
  split <;> rfl

theorem finishConfig_prependHistory :
    finishConfig (s.prependHistory h) = (finishConfig s).prependHistory h :=
  finishTerm_prependHistory { s with ctrlShadow := s.lBase } h

/-- A configuration sequence does not read the history when its DECODE step does not. -/
theorem configStages_prependHistory {dec : State → State}
    (hdec : dec (s.prependHistory h) = (dec s).prependHistory h) :
    configStages dec (s.prependHistory h) = (configStages dec s).prependHistory h := by
  simp only [configStages, State.prependHistory_stage]
  cases s.stage with
  | decode => exact hdec
  | batch => exact batchStage_prependHistory s h
  | poll => exact pollStage_prependHistory s h _ .clear
  | clear => exact clearStage_prependHistory s h
  | finish => exact finishConfig_prependHistory s h

/-! ### The commands -/

theorem pllDecode_prependHistory (pll nout : Nat) :
    pllDecode pll nout (s.prependHistory h) = (pllDecode pll nout s).prependHistory h := by
  simp only [pllDecode, State.prependHistory_params, State.prependHistory_finHz,
    State.prependHistory_outList]
  split <;> rfl

theorem phaseFixedDecode_prependHistory (pll : Nat) (o : Fin 16) :
    phaseFixedDecode pll o (s.prependHistory h) = (phaseFixedDecode pll o s).prependHistory h := by
  unfold phaseFixedDecode
  rw [State.prependHistory_params, State.prependHistory_divider, State.prependHistory_phase]
  split
  · rfl
  · dsimp only
    split <;> rfl

theorem phaseSearchDecode_prependHistory (pll : Nat) (o : Fin 16) :
    phaseSearchDecode pll o (s.prependHistory h) =
      (phaseSearchDecode pll o s).prependHistory h := by
  simp only [phaseSearchDecode, State.prependHistory_params, State.prependHistory_divider]
  split <;> rfl

theorem regWriteDecode_prependHistory (count : Nat) :
    regWriteDecode count (s.prependHistory h) = (regWriteDecode count s).prependHistory h := by
  unfold regWriteDecode
  rw [State.prependHistory_params]
  split <;> rfl

theorem regWriteBatch_prependHistory :
    regWriteBatch (s.prependHistory h) = (regWriteBatch s).prependHistory h := by
  simp only [regWriteBatch, State.tWrite_prependHistory, State.prependHistory_lBatch]
  rfl

theorem pollDecode_prependHistory :
    pollDecode (s.prependHistory h) = (pollDecode s).prependHistory h := by
  unfold pollDecode
  rw [State.prependHistory_argPoll]
  split <;> rfl

theorem codec_prependHistory (nsamp : Nat) (mimo : Bool) (f : Nat → Memory → Option Memory) :
    codec nsamp mimo f (s.prependHistory h) = (codec nsamp mimo f s).prependHistory h := by
  unfold codec
  rw [State.prependHistory_params, State.prependHistory_mem]
  split
  · rfl
  · split <;> rfl

theorem execRegRead_prependHistory (addr : RegAddr) :
    execRegRead addr (s.prependHistory h) = (execRegRead addr s).prependHistory h := by
  simp only [execRegRead, State.tRead_prependHistory, State.prependHistory_draw]
  split <;> rfl

theorem execRegWrite_prependHistory (count : Nat) :
    execRegWrite count (s.prependHistory h) = (execRegWrite count s).prependHistory h := by
  simp only [execRegWrite, State.prependHistory_stage]
  cases s.stage with
  | decode => exact congrArg _ (regWriteDecode_prependHistory s h count)
  | batch => exact congrArg _ (regWriteBatch_prependHistory s h)
  | poll => rfl
  | clear => rfl
  | finish => exact congrArg _ (finishTerm_prependHistory s h)

theorem execPoll_prependHistory (addr : RegAddr) :
    execPoll addr (s.prependHistory h) = (execPoll addr s).prependHistory h := by
  simp only [execPoll, State.prependHistory_stage]
  cases s.stage with
  | decode => exact congrArg _ (pollDecode_prependHistory s h)
  | batch => rfl
  | poll => exact congrArg _ (pollStage_prependHistory s h addr .finish)
  | clear => rfl
  | finish => exact congrArg _ (finishTerm_prependHistory s h)

/-- One sequencer step of a command does not read the history. -/
theorem exec_prependHistory (i : Instr) :
    exec i (s.prependHistory h) = Step.prependHistory (exec i s) h := by
  cases i with
  | nop => rfl
  | regRead addr => exact execRegRead_prependHistory s h addr
  | regWrite count => exact execRegWrite_prependHistory s h count
  | poll addr => exact execPoll_prependHistory s h addr
  | pllConfig pll nout =>
    exact congrArg _ (configStages_prependHistory s h (pllDecode_prependHistory s h pll nout))
  | phaseFixed pll o =>
    exact congrArg _ (configStages_prependHistory s h (phaseFixedDecode_prependHistory s h pll o))
  | phaseSearch pll o =>
    exact congrArg _ (configStages_prependHistory s h (phaseSearchDecode_prependHistory s h pll o))
  | pack12 nsamp mimo => exact codec_prependHistory s h nsamp mimo fun n => packFrom compress 3 n 0
  | unpack12 nsamp mimo => exact codec_prependHistory s h nsamp mimo fun n => unpackFrom 3 n 0
  | pack16 nsamp mimo => exact codec_prependHistory s h nsamp mimo fun n => packFrom expand 4 n 0
  | unpack16 nsamp mimo => exact codec_prependHistory s h nsamp mimo fun n => unpackFrom 4 n 0

/-! ### The moves of a step -/

theorem sequencerTurn_prependHistory :
    sequencerTurn (s.prependHistory h) = (sequencerTurn s).prependHistory h := by
  simp only [sequencerTurn, State.prependHistory_seq, State.prependHistory_cmd]
  split
  · rfl
  · split
    · exact exec_prependHistory s h _
    · rfl
    · rfl

theorem readLoc_prependHistory (l : Loc) : readLoc (s.prependHistory h) l = readLoc s l := by
  cases l <;> rfl

theorem writeLoc_prependHistory (w : Word) (l : Loc) :
    writeLoc (s.prependHistory h) w l = (writeLoc s w l).prependHistory h := by
  cases l <;> rfl

theorem hostRead_prependHistory (off : Nat) (l : Loc) :
    hostRead off l (s.prependHistory h) = (hostRead off l s).prependHistory h := by
  simp only [hostRead, State.prependHistory_stat, readLoc_prependHistory]
  split
  · rfl
  · split <;> rfl

theorem hostWrite_prependHistory (l : Loc) (w : Word) :
    hostWrite l w (s.prependHistory h) = (hostWrite l w s).prependHistory h := by
  simp only [hostWrite, State.prependHistory_stat, writeLoc_prependHistory]
  split <;> rfl

theorem hostAccess_prependHistory (a : HostAccess) :
    hostAccess a (s.prependHistory h) = (hostAccess a s).prependHistory h := by
  simp only [hostAccess, State.prependHistory_params]
  split
  · rfl
  · split
    · exact hostRead_prependHistory s h _ _
    · exact congrArg _ (hostWrite_prependHistory s h _ _)

/-- A step other than a reset does not read the history. -/
theorem step_prependHistory (hr : ∀ b, s.inputs.head? ≠ some (.reset b)) :
    step (s.prependHistory h) = Step.prependHistory (step s) h := by
  simp only [step, move, State.prependHistory_inputs]
  split
  · exact sequencerTurn_prependHistory s h
  · exact sequencerTurn_prependHistory s.popInput h
  · exact hostAccess_prependHistory s.popInput h _
  · rename_i hin
    exact absurd (by rw [hin]; rfl) (hr _)

end

theorem Step.prependHistory_eq_next {o : Step} {h : List Event} {t : State}
    (ho : o.prependHistory h = .next t) : ∃ u, o = .next u ∧ u.prependHistory h = t := by
  cases o with
  | next u => exact ⟨u, rfl, Host.Outcome.next.inj ho⟩
  | fault _ => cases ho
  | refused _ => cases ho

/-- Any history is the empty one with events put before it. -/
theorem State.withHistory_eq_prependHistory (s : State) (h : List Event) :
    { s with history := h } = { s with history := [] }.prependHistory h := by
  simp [State.prependHistory]

/-- Settles O55: the events a step appends are those it makes from the empty history. -/
theorem historyIsAppendedAndNeverRead : Obligations.HistoryIsAppendedAndNeverRead := by
  intro s t hr hstep
  have hempty : ∀ h, step { s with history := h } =
      Step.prependHistory (step { s with history := [] }) h := fun h => by
    rw [State.withHistory_eq_prependHistory]
    exact step_prependHistory _ h hr
  obtain ⟨u, hu, rfl⟩ := Step.prependHistory_eq_next ((hempty s.history).symm.trans hstep)
  refine ⟨u.history, rfl, fun h => ?_⟩
  rw [hempty, hu]
  rfl

end Sys2Proof.Machine
end

section
/-! The decoder and the encoder (30_encoding.md R100-R110): the must-be-zero bits of a row are one
run of bits, the decoder by rows of the opcode map, and the two directions of decode and encode. -/

namespace Sys2Proof

open Laws.EncodesInItsRow (rowOf)

/-! ### The must-be-zero bits of an opcode -/

/-- The run of must-be-zero bits of the format of opcode `op`, as (lowest bit, length)
(30_encoding.md R101-R105). -/
def reservedRun (op : BitVec 8) : Nat × Nat :=
  match op with
  | 0x00 => (8, 24)
  | 0x01 | 0x03 => (24, 8)
  | 0x02 => (15, 17)
  | 0x10 | 0x11 | 0x12 => (17, 15)
  | _ => (9, 7)

/-- The must-be-zero bits of a word of opcode `op`. -/
def reservedOf (op : BitVec 8) (w : Word) : BitVec (reservedRun op).2 :=
  w.extractLsb' (reservedRun op).1 (reservedRun op).2

/-- The mask of the opcode field and `len` bits from bit `lo`. -/
def opAndRunMask (lo len : Nat) : Word := 0xFF ||| (BitVec.allOnes len).setWidth 32 <<< lo

theorem getLsbD_opAndRunMask (lo len : Nat) {k : Nat} (hk : k < 32) :
    (opAndRunMask lo len).getLsbD k = (decide (k < 8) || decide (lo ≤ k ∧ k < lo + len)) := by
  have h : (0xFF : Word).getLsbD k = decide (k < 8) := by interval_cases k <;> rfl
  rw [opAndRunMask, BitVec.getLsbD_or, h]
  grind

theorem and_opAndRunMask_eq_iff {lo : Nat} (len : Nat) (hlo : 8 ≤ lo) (hhi : lo + len ≤ 32)
    (w : Word) (op : BitVec 8) :
    w &&& opAndRunMask lo len = op.setWidth 32 ↔ opField w = op ∧ w.extractLsb' lo len = 0#len := by
  constructor
  · intro h
    have hbit : ∀ k, k < 32 → (w.getLsbD k && (decide (k < 8) || decide (lo ≤ k ∧ k < lo + len))) =
        op.getLsbD k := fun k hk => by
      rw [← getLsbD_opAndRunMask lo len hk, ← BitVec.getLsbD_and, h]
      simp [hk]
    constructor <;> apply BitVec.eq_of_getLsbD_eq <;> intro k hk
    · simpa [opField, hk] using hbit k (by omega)
    · simpa [hk, show 8 ≤ lo + k by omega] using hbit (lo + k) (by omega)
  · rintro ⟨rfl, h⟩
    apply BitVec.eq_of_getLsbD_eq
    intro k hk
    rw [BitVec.getLsbD_and, getLsbD_opAndRunMask lo len hk]
    by_cases h8 : k < 8
    · simp [opField, h8, hk]
    · by_cases hrun : lo ≤ k ∧ k < lo + len
      · have hz : w.getLsbD k = false := by
          have := congrArg (·.getLsbD (k - lo)) h
          simpa [show k - lo < len by omega, show lo + (k - lo) = k by omega] using this
        simp [opField, h8, hz]
      · simp [opField, h8, hrun]

/-- A row's mask is of the opcode field and the must-be-zero bits. -/
theorem mask_eq_opAndRunMask : ∀ r ∈ opcodeMap,
    r.mask = opAndRunMask (reservedRun r.op).1 (reservedRun r.op).2 := by decide

theorem reservedRun_bounds : ∀ r ∈ opcodeMap,
    8 ≤ (reservedRun r.op).1 ∧ (reservedRun r.op).1 + (reservedRun r.op).2 ≤ 32 := by decide

/-- A word matches a row of the map exactly when it has the row's opcode and its must-be-zero bits
are 0 (30_encoding.md R107). -/
theorem and_mask_eq_pattern_iff {r : OpcodeRow} (hr : r ∈ opcodeMap) (w : Word) :
    w &&& r.mask = r.pattern ↔ opField w = r.op ∧ reservedOf r.op w = 0 := by
  obtain ⟨hlo, hhi⟩ := reservedRun_bounds r hr
  rw [mask_eq_opAndRunMask r hr, (opcodeMap_fixes_op r hr).2]
  exact and_opAndRunMask_eq_iff _ hlo hhi w r.op

/-! ### The decoder by rows of the opcode map -/

/-- Looking up a row's opcode finds the row: no two rows have the same opcode. -/
theorem find?_op_eq_some : ∀ r ∈ opcodeMap, opcodeMap.find? (fun r' => r'.op == r.op) = some r := by
  decide

/-- A word has an opcode of the map and is decoded by that row, or has none of them. -/
theorem decode_cases (w : Word) :
    (∃ r ∈ opcodeMap, r.op = opField w ∧ ∃ i, operandsOf (opField w) w = some i ∧
      decode w = if reservedOf r.op w = 0 then .instr i else .reservedBits) ∨
    ((∀ r ∈ opcodeMap, r.op ≠ opField w) ∧ operandsOf (opField w) w = none ∧
      decode w = .unknownOpcode) := by
  have hsome := operandsOf_isSome (opField w) w
  cases hi : operandsOf (opField w) w with
  | none =>
    exact .inr ⟨by simpa [hi] using hsome, rfl, by unfold decode; simp [hi]⟩
  | some i =>
    obtain ⟨r, hr, ho⟩ : ∃ r ∈ opcodeMap, r.op = opField w := by simpa [hi] using hsome
    refine .inl ⟨r, hr, ho, i, rfl, ?_⟩
    rw [decode_of_row (ho ▸ find?_op_eq_some r hr) hi]
    simp only [and_mask_eq_pattern_iff hr, ho, true_and]

theorem decode_eq_instr_iff {w : Word} {i : Instr} :
    decode w = .instr i ↔ operandsOf (opField w) w = some i ∧ reservedOf (opField w) w = 0 := by
  obtain ⟨r, -, ho, j, hj, hd⟩ | ⟨-, hnone, hd⟩ := decode_cases w
  · rw [hd, hj, ho]
    split
    case isTrue hz => simp [hz]
    case isFalse hz => exact iff_of_false nofun fun h => hz h.2
  · simp [hd, hnone]

/-- 30_encoding.md R109. -/
theorem decode_eq_unknownOpcode_iff {w : Word} :
    decode w = .unknownOpcode ↔ ∀ r ∈ opcodeMap, r.op ≠ opField w := by
  obtain ⟨r, hr, ho, i, -, hd⟩ | ⟨hnone, -, hd⟩ := decode_cases w
  · refine iff_of_false ?_ fun h => h r hr ho
    rw [hd]
    split <;> simp
  · exact iff_of_true hd hnone

theorem decode_eq_reservedBits_iff {w : Word} :
    decode w = .reservedBits ↔ ∃ r ∈ opcodeMap, r.op = opField w ∧ reservedOf r.op w ≠ 0 := by
  obtain ⟨r, hr, ho, i, -, hd⟩ | ⟨hnone, -, hd⟩ := decode_cases w
  · rw [hd]
    constructor
    · intro h
      refine ⟨r, hr, ho, fun hz => ?_⟩
      simp [hz] at h
    · rintro ⟨r', -, ho', hz⟩
      rw [if_neg]
      rwa [ho, ← ho']
  · rw [hd]
    refine iff_of_false nofun ?_
    rintro ⟨r, hr, ho, -⟩
    exact hnone r hr ho

/-! ### Decoding an encoding -/

theorem encodesInItsRow (i : Instr) : Laws.EncodesInItsRow.Statement i := by
  cases i with
  | nop => exact Laws.EncodesInItsRow.nop
  | regRead addr => exact Laws.EncodesInItsRow.regRead addr
  | regWrite count => exact Laws.EncodesInItsRow.regWrite count
  | poll addr => exact Laws.EncodesInItsRow.poll addr
  | pllConfig pll nout => exact Laws.EncodesInItsRow.pllConfig pll nout
  | phaseFixed pll o => exact Laws.EncodesInItsRow.phaseFixed pll o
  | phaseSearch pll o => exact Laws.EncodesInItsRow.phaseSearch pll o
  | pack12 nsamp mimo => exact Laws.EncodesInItsRow.pack12 nsamp mimo
  | unpack12 nsamp mimo => exact Laws.EncodesInItsRow.unpack12 nsamp mimo
  | pack16 nsamp mimo => exact Laws.EncodesInItsRow.pack16 nsamp mimo
  | unpack16 nsamp mimo => exact Laws.EncodesInItsRow.unpack16 nsamp mimo

theorem reservedOf_encode (i : Instr) : reservedOf (opField (encode i)) (encode i) = 0 := by
  obtain ⟨hr, hmatch, ho⟩ := encodesInItsRow i
  rw [ho]
  exact ((and_mask_eq_pattern_iff hr _).mp hmatch).2

theorem toNat_countField_formatB {op : BitVec 8} {count : Nat} (h : count ≤ 127) :
    (countField (formatB op (BitVec.ofNat 7 count))).toNat = count := by
  rw [countField_formatB, BitVec.toNat_ofNat]
  omega

theorem toNat_pllField_formatP {op : BitVec 8} {sel : BitVec 4} {pll : Nat} (h : pll ≤ 31) :
    (pllField (formatP op (BitVec.ofNat 5 pll) sel)).toNat = pll := by
  rw [pllField_formatP, BitVec.toNat_ofNat]
  omega

theorem toNat_selField_formatP {op : BitVec 8} {pll : BitVec 5} {nout : Nat} (h1 : 1 ≤ nout)
    (h16 : nout ≤ 16) :
    (selField (formatP op pll (BitVec.ofNat 4 (nout - 1)))).toNat + 1 = nout := by
  rw [selField_formatP, BitVec.toNat_ofNat]
  omega

theorem toNat_nsampField_formatS {op : BitVec 8} {mimo : Bool} {nsamp : Nat} (h : nsamp ≤ 65535) :
    (nsampField (formatS op mimo (BitVec.ofNat 16 nsamp))).toNat = nsamp := by
  rw [nsampField_formatS, BitVec.toNat_ofNat]
  omega

theorem mimoField_formatS_beq_one {op : BitVec 8} {mimo : Bool} {nsamp : BitVec 16} :
    (mimoField (formatS op mimo nsamp) == 1#1) = mimo := by
  rw [mimoField_formatS]
  cases mimo <;> rfl

/-- The operands read from a command's encoding are the command's own (30_encoding.md R106). -/
theorem operandsOf_encode {i : Instr} (h : i.wellFormed = true) :
    operandsOf (opField (encode i)) (encode i) = some i := by
  rw [(encodesInItsRow i).2.2]
  cases i with
  | nop => rfl
  | regRead addr | poll addr => simp [rowOf, operandsOf, encode, addrField_formatA]
  | regWrite count =>
    simp [rowOf, operandsOf, encode, toNat_countField_formatB (of_decide_eq_true h)]
  | pllConfig pll nout =>
    obtain ⟨hpll, h1, h16⟩ : pll ≤ 31 ∧ 1 ≤ nout ∧ nout ≤ 16 := by simpa [Instr.wellFormed] using h
    simp [rowOf, operandsOf, encode, toNat_pllField_formatP hpll, toNat_selField_formatP h1 h16]
  | phaseFixed pll o | phaseSearch pll o =>
    simp [rowOf, operandsOf, encode, toNat_pllField_formatP (of_decide_eq_true h), selField_formatP]
  | pack12 nsamp mimo | unpack12 nsamp mimo | pack16 nsamp mimo | unpack16 nsamp mimo =>
    simp [rowOf, operandsOf, encode, toNat_nsampField_formatS (of_decide_eq_true h),
      mimoField_formatS_beq_one]

/-- Settles O1: an encoding has its row's opcode, its must-be-zero bits are 0 and its fields are the
operands. -/
theorem decodeOfEncodeIsIdentity : Obligations.DecodeOfEncodeIsIdentity := fun i h =>
  decode_eq_instr_iff.mpr ⟨operandsOf_encode h, reservedOf_encode i⟩

/-! ### Encoding a decoded word -/

/-- A word with no must-be-zero bit set is its fields side by side (30_encoding.md R101-R105). -/
theorem formatN_fields {w : Word} (h : w.extractLsb' 8 24 = 0#24) :
    formatN (opField w) = w := by
  rw [formatN, opField, ← h]
  simp only [BitVec.extractLsb'_append_extractLsb'_eq_extractLsb']
  exact BitVec.extractLsb'_eq_self

theorem formatA_fields {w : Word} (h : w.extractLsb' 24 8 = 0#8) :
    formatA (opField w) (addrField w) = w := by
  rw [formatA, addrField, opField, ← h]
  simp only [BitVec.extractLsb'_append_extractLsb'_eq_extractLsb']
  exact BitVec.extractLsb'_eq_self

theorem formatB_fields {w : Word} (h : w.extractLsb' 15 17 = 0#17) :
    formatB (opField w) (countField w) = w := by
  rw [formatB, countField, opField, ← h]
  simp only [BitVec.extractLsb'_append_extractLsb'_eq_extractLsb']
  exact BitVec.extractLsb'_eq_self

theorem formatP_fields {w : Word} (h : w.extractLsb' 17 15 = 0#15) :
    formatP (opField w) (pllField w) (selField w) = w := by
  rw [formatP, selField, pllField, opField, ← h]
  simp only [BitVec.extractLsb'_append_extractLsb'_eq_extractLsb']
  exact BitVec.extractLsb'_eq_self

theorem formatS_fields {w : Word} (h : w.extractLsb' 9 7 = 0#7) :
    formatS (opField w) (mimoField w == 1) (nsampField w) = w := by
  have hm : BitVec.ofBool (mimoField w == 1) = w.extractLsb' 8 1 :=
    (by decide : ∀ m : BitVec 1, BitVec.ofBool (m == 1) = m) _
  rw [formatS, nsampField, hm, opField, ← h]
  simp only [BitVec.extractLsb'_append_extractLsb'_eq_extractLsb']
  exact BitVec.extractLsb'_eq_self

/-- The operands a word holds fit their fields (30_encoding.md R106). -/
theorem wellFormed_of_operandsOf {op : BitVec 8} {w : Word} {i : Instr}
    (h : operandsOf op w = some i) : i.wellFormed = true := by
  have hcount := (countField w).isLt
  have hpll := (pllField w).isLt
  have hsel := (selField w).isLt
  have hnsamp := (nsampField w).isLt
  unfold operandsOf at h
  split at h <;> cases h
  all_goals simp only [Instr.wellFormed, Bool.and_eq_true, decide_eq_true_eq]
  all_goals omega

theorem encode_of_operandsOf {w : Word} {i : Instr} (h : operandsOf (opField w) w = some i)
    (hz : reservedOf (opField w) w = 0) : encode i = w := by
  unfold operandsOf at h
  generalize ho : opField w = op at h hz
  split at h <;> cases h
  case h_1 => simpa [encode, ho] using formatN_fields hz
  case h_2 | h_4 => simpa [encode, ho] using formatA_fields hz
  case h_3 => simpa [encode, ho] using formatB_fields hz
  case h_5 | h_6 | h_7 => simpa [encode, ho] using formatP_fields hz
  all_goals simpa [encode, ho] using formatS_fields hz

/-- Settles O2: the fields of an accepted word and its zero must-be-zero bits are all of it. -/
theorem encodeOfDecodeIsIdentity : Obligations.EncodeOfDecodeIsIdentity := by
  intro w i h
  obtain ⟨hi, hz⟩ := decode_eq_instr_iff.mp h
  exact ⟨wellFormed_of_operandsOf hi, encode_of_operandsOf hi hz⟩

/-! ### Illegal words -/

theorem opField_toNat (w : Word) : (opField w).toNat = w.toNat % 256 := by
  simp [opField]

theorem reservedOf_ne_zero_iff (op : BitVec 8) (w : Word) :
    reservedOf op w ≠ 0 ↔ w.toNat / 2 ^ (reservedRun op).1 % 2 ^ (reservedRun op).2 ≠ 0 := by
  rw [not_iff_not, ← BitVec.toNat_inj, reservedOf, BitVec.extractLsb'_toNat,
    Nat.shiftRight_eq_div_pow]
  rfl

/-- A run of bits that reaches bit 31 is all above its lowest bit. -/
theorem div_mod_topRun (w : Word) {lo len : Nat} (h : lo + len = 32) :
    w.toNat / 2 ^ lo % 2 ^ len = w.toNat / 2 ^ lo :=
  Nat.mod_eq_of_lt (Nat.div_lt_of_lt_mul (by rw [← pow_add, h]; exact w.isLt))

/-- Settles O4: the opcodes of the map and the must-be-zero bits of each, row by row. -/
theorem illegalWordsAreNamed : Obligations.IllegalWordsAreNamed := by
  intro w
  constructor
  · rw [decode_eq_unknownOpcode_iff, ← opField_toNat]
    simp [opcodeMap, ← BitVec.toNat_inj, eq_comm]
  · have h8 := div_mod_topRun w (lo := 8) (len := 24) rfl
    have h24 := div_mod_topRun w (lo := 24) (len := 8) rfl
    have h15 := div_mod_topRun w (lo := 15) (len := 17) rfl
    have h17 := div_mod_topRun w (lo := 17) (len := 15) rfl
    rw [decode_eq_reservedBits_iff]
    simp only [reservedOf_ne_zero_iff, ← BitVec.toNat_inj, opField_toNat, opcodeMap, List.mem_cons,
      List.not_mem_nil, or_false, exists_eq_or_imp, exists_eq_left]
    simp only [reservedRun, h8, h15, h17, h24, or_and_right, or_assoc, BitVec.ofNat_eq_ofNat,
      eq_comm]
    exact or_congr_right (or_congr_right or_left_comm)

/-- Settles O3: each of the twelve words evaluates to what it stands for. -/
theorem wordsOfTheSpecDecode : Obligations.WordsOfTheSpecDecode := by
  unfold Obligations.WordsOfTheSpecDecode
  decide

end Sys2Proof
end

section
/-! The turn of the sequencer on an illegal word (30_encoding.md R108). -/

namespace Sys2Proof.Machine

theorem sequencerTurn_unknownOpcode {s : State} (hs : s.seq = .exec)
    (hd : decode s.cmd = .unknownOpcode) :
    sequencerTurn s = .next (s.finish .illegalCommand .unknownOpcode) := by
  unfold sequencerTurn; rw [hs, hd]

theorem sequencerTurn_reservedBits {s : State} (hs : s.seq = .exec)
    (hd : decode s.cmd = .reservedBits) :
    sequencerTurn s = .next (s.finish .illegalCommand .reservedBits) := by
  unfold sequencerTurn; rw [hs, hd]

/-- Settles O5: the turn, listed or not, is the sequencer's, and it ends the command. -/
theorem illegalWordsFinishAtOnce : Obligations.IllegalWordsFinishAtOnce := by
  intro s u hin hs
  obtain ⟨hstep, hseq, hcmd⟩ : step s = sequencerTurn u ∧ u.seq = s.seq ∧ u.cmd = s.cmd := by
    obtain ⟨hnil, rfl⟩ | ⟨rest, hturn, rfl⟩ := hin
    · exact ⟨step_nil hnil, rfl, rfl⟩
    · exact ⟨step_turn hturn, rfl, rfl⟩
  rw [hstep, ← hcmd]
  exact ⟨sequencerTurn_unknownOpcode (hseq.trans hs), sequencerTurn_reservedBits (hseq.trans hs)⟩

end Sys2Proof.Machine
end

section
/-! The register-protocol commands and the stages they share with the configuration sequence
(40_register_protocol.md R130-R152). -/

namespace Sys2Proof.Machine

/-! ### The port and the draws -/

theorem Params.portData_toNat (p : Params) (v : RegData) :
    (p.portData v).toNat = v.toNat % 2 ^ p.regDataWidth := by
  rw [Params.portData, BitVec.toNat_ofNat]
  exact Nat.mod_eq_of_lt ((Nat.mod_le _ _).trans_lt v.isLt)

theorem State.draw_value_lt (s : State) : s.draw.value.toNat < 2 ^ s.params.regDataWidth := by
  rw [State.draw, Params.portDraw_value, Params.portData_toNat]
  exact Nat.mod_lt _ (Nat.two_pow_pos _)

theorem State.popDraw_of_cons {s : State} {d : Draw} {ds : List Draw} (h : s.draws = d :: ds) :
    s.popDraw = { s with draws := ds, drawCount := s.drawCount + 1 } := by
  rw [State.popDraw, h, List.tail_cons]

theorem State.tRead_of_ok {s : State} (hf : s.draw.fails = false) (a : RegAddr) :
    s.tRead a = { s.popDraw with
      history := s.history ++ [.read (s.params.portAddr a) s.draw.value] } := by
  rw [State.tRead, readEvents_ok hf]

theorem State.tRead_of_fails {s : State} (hf : s.draw.fails = true) (a : RegAddr) :
    s.tRead a = { s.popDraw with
      history := s.history ++ [.readFail (s.params.portAddr a)] } := by
  rw [State.tRead, readEvents_fail hf]

/-! ### NOP and REG_READ -/

/-- Settles O22: NOP's one step is `finish`. -/
theorem nopFinishesOk : Obligations.NopFinishesOk := by
  intro s
  rfl

/-- Settles O23, by the response of the draw; what the port carries is `portData_toNat`. -/
theorem regReadReturnsTheRegister : Obligations.RegReadReturnsTheRegister := by
  intro a s
  refine ⟨fun hf => ?_, fun hf => ?_, s.draw_value_lt, fun d ds hd => ?_,
    fun hw => Params.portAddr_of_eq hw a⟩
  · rw [exec, execRegRead, State.tRead_of_ok hf, hf]
    rfl
  · rw [exec, execRegRead, State.tRead_of_fails hf, hf]
    rfl
  · rw [State.draw_of_cons hd]
    exact ⟨Params.portDraw_fails _ d, Params.portData_toNat _ d.value⟩

/-! ### REG_WRITE's DECODE step -/

theorem State.batchList_length {s : State} {count : Nat} (h : count ≤ 64) :
    (s.batchList count).length = count := by
  simp [State.batchList, h]

theorem State.batchList_getElem? (s : State) {count : Nat} {k : Fin 64} (h : k.val < count) :
    (s.batchList count)[k.val]? = some (batchPair s.batch[k]) := by
  simp [State.batchList, List.getElem?_take_of_lt h]

/-- Settles O24: the check of the count, then the pairs of the table's first entries. -/
theorem regWriteTakesItsBatch : Obligations.RegWriteTakesItsBatch := by
  intro count s ho hst
  rw [exec, execRegWrite, hst]
  simp only [regWriteDecode]
  constructor
  · intro hc
    rw [if_pos hc]
  · intro hpos hmax
    rw [if_neg (by omega)]
    exact ⟨_, rfl, rfl, State.batchList_length (hmax.trans ho.batchMax_le),
      fun _ hk => s.batchList_getElem? hk⟩

/-! ### Poll predicates -/

/-- The mask of `w` low bits, for `w = 16` by the wrap of `0 - 1`. -/
theorem lowMask_toNat {w : Nat} (hw : w ≤ 16) : ((1#16 <<< w) - 1).toNat = 2 ^ w - 1 := by
  interval_cases w <;> rfl

/-- `err(v)` as the number of a bit field (R133). -/
theorem Pred.err_toNat {p : Pred} (h : p.errLsb.toNat + p.errWidth.toNat ≤ 16) (v : RegData) :
    (p.err v).toNat = v.toNat / 2 ^ p.errLsb.toNat % 2 ^ p.errWidth.toNat := by
  rw [Pred.err, BitVec.toNat_and, lowMask_toNat (by omega), Nat.and_two_pow_sub_one_eq_mod,
    BitVec.toNat_ushiftRight, Nat.shiftRight_eq_div_pow]

theorem Pred.done_eq_testBit (p : Pred) (v : RegData) :
    p.done v = v.toNat.testBit p.doneBit.toNat := rfl

theorem predOfArg_doneBit_toNat (g : Word) : (predOfArg g).doneBit.toNat = g.toNat % 2 ^ 4 := by
  simp [predOfArg]

theorem predOfArg_errLsb_toNat (g : Word) :
    (predOfArg g).errLsb.toNat = g.toNat / 2 ^ 4 % 2 ^ 4 := by
  simp [predOfArg, Nat.shiftRight_eq_div_pow]

theorem predOfArg_errWidth_toNat (g : Word) :
    (predOfArg g).errWidth.toNat = g.toNat / 2 ^ 8 % 2 ^ 5 := by
  simp [predOfArg, Nat.shiftRight_eq_div_pow]

/-- The bits 31:13 of a word are zero exactly when nothing is left above bit 12. -/
theorem highBits_eq_zero_iff (g : Word) : g.extractLsb' 13 19 = 0 ↔ g.toNat / 2 ^ 13 = 0 := by
  have hlt : g.toNat / 2 ^ 13 < 2 ^ 19 := by omega
  rw [← BitVec.toNat_inj, BitVec.extractLsb'_toNat, Nat.shiftRight_eq_div_pow,
    Nat.mod_eq_of_lt hlt]
  rfl

/-- The three checks of ARG_POLL (R133, R152). -/
theorem argPollValid_iff (g : Word) :
    argPollValid g = true ↔ g.toNat / 2 ^ 13 = 0 ∧ g.toNat / 2 ^ 8 % 2 ^ 5 ≤ 16 ∧
      g.toNat / 2 ^ 4 % 2 ^ 4 + g.toNat / 2 ^ 8 % 2 ^ 5 ≤ 16 := by
  rw [argPollValid, Bool.and_eq_true, Bool.and_eq_true, beq_iff_eq, decide_eq_true_iff,
    decide_eq_true_iff, highBits_eq_zero_iff, predOfArg_errLsb_toNat, predOfArg_errWidth_toNat,
    and_assoc]

/-- Settles O27: ARG_POLL passes the three checks or not, and its fields are the predicate. -/
theorem pollChecksItsPredicate : Obligations.PollChecksItsPredicate := by
  intro a s hst g
  have hvalid := argPollValid_iff s.argPoll
  rw [exec, execPoll, hst]
  simp only [pollDecode]
  constructor
  · intro hbad
    rw [if_neg (by rw [hvalid]; omega)]
  · intro hgood
    rw [if_pos (by rw [hvalid]; omega)]
    exact ⟨predOfArg s.argPoll, rfl, predOfArg_doneBit_toNat _, predOfArg_errLsb_toNat _,
      predOfArg_errWidth_toNat _⟩

/-! ### The commands that have a stage -/

theorem isConfig_or_regWrite_of_hasStage_batch {i : Instr} (h : hasStage i .batch = true) :
    isConfig i = true ∨ ∃ count, i = .regWrite count := by
  cases i <;> simp_all [hasStage, isConfig]

theorem isConfig_or_regWrite_or_poll_of_hasStage_finish {i : Instr}
    (h : hasStage i .finish = true) :
    isConfig i = true ∨ (∃ count, i = .regWrite count) ∨ ∃ a, i = .poll a := by
  cases i <;> simp_all [hasStage, isConfig]

/-! ### The BATCH step -/

theorem State.tWrite_history_of_ok {s : State} (hf : s.draw.fails = false)
    (l : List (RegAddr × RegData)) :
    (s.tWrite l).history = s.history ++ (s.params.portList l).map fun p => .write p.1 p.2 := by
  rw [State.tWrite_history, batchEvents_ok hf, writeEvents]

theorem State.tWrite_history_of_fails {s : State} (hf : s.draw.fails = true)
    (l : List (RegAddr × RegData)) :
    ∃ sub : List (RegAddr × RegData), sub.Sublist (s.params.portList l) ∧
      (s.tWrite l).history =
        s.history ++ sub.map (fun p => .write p.1 p.2) ++ [.batchFail l.length] := by
  refine ⟨_, appliedPairs_sublist _ s.draw.applied, ?_⟩
  rw [State.tWrite_history, batchEvents_fail hf, Params.portList_length, List.append_assoc,
    writeEvents]

section
variable {i : Instr} {s : State}

theorem exec_batch_of_isConfig (hst : s.stage = .batch) (hc : isConfig i = true) :
    exec i s = .next (batchStage s) := by
  obtain ⟨dec, e⟩ := exec_of_isConfig hc s
  rw [e, configStages, hst]

theorem exec_batch_regWrite (hst : s.stage = .batch) (count : Nat) :
    exec (.regWrite count) s = .next (regWriteBatch s) := by
  rw [exec, execRegWrite, hst]

/-- A failed batch ends every command alike (R131, R151). -/
theorem exec_batch_of_fails (hst : s.stage = .batch) (hi : hasStage i .batch = true)
    (hf : s.draw.fails = true) :
    exec i s = .next ((s.tWrite s.lBatch).leaveTo .ioerr .finish) := by
  rcases isConfig_or_regWrite_of_hasStage_batch hi with hc | ⟨count, rfl⟩
  · rw [exec_batch_of_isConfig hst hc, batchStage, if_pos hf]
  · rw [exec_batch_regWrite hst, regWriteBatch, if_pos hf]

/-- A batch of REG_WRITE that succeeds. -/
theorem exec_batch_of_ok_of_not_isConfig (hst : s.stage = .batch) (hi : hasStage i .batch = true)
    (hc : isConfig i = false) (hf : s.draw.fails = false) :
    exec i s = .next ((s.tWrite s.lBatch).leaveTo .done .finish) := by
  rcases isConfig_or_regWrite_of_hasStage_batch hi with hc' | ⟨count, rfl⟩
  · rw [hc] at hc'; cases hc'
  · rw [exec_batch_regWrite hst, regWriteBatch, hf]; rfl

theorem batchStage_of_cap (hf : s.draw.fails = false) (hcap : s.params.busyPollCap = true) :
    batchStage s = { s.tWrite s.lBatch with stage := .poll } := by
  simp [batchStage, hf, hcap]

theorem batchStage_of_noCap (hf : s.draw.fails = false) (hcap : s.params.busyPollCap = false) :
    batchStage s = (s.tWrite s.lBatch).leaveTo .done .clear := by
  simp [batchStage, hf, hcap]

end

/-- Settles O25, by the response, then by the kind of the command, then by BUSY_POLL_CAP. -/
theorem batchStepWritesInOrder : Obligations.BatchStepWritesInOrder := by
  intro i s hst hi
  cases hf : s.draw.fails with
  | true =>
    exact ⟨_, exec_batch_of_fails hst hi hf, rfl, nofun,
      fun _ => ⟨rfl, rfl, State.tWrite_history_of_fails hf _⟩⟩
  | false =>
    have hhist := State.tWrite_history_of_ok hf s.lBatch
    cases hc : isConfig i with
    | false =>
      exact ⟨_, exec_batch_of_ok_of_not_isConfig hst hi hc hf, rfl,
        fun _ => ⟨hhist, fun _ => ⟨rfl, rfl⟩, nofun, nofun⟩, nofun⟩
    | true =>
      have hexec := exec_batch_of_isConfig hst hc
      cases hcap : s.params.busyPollCap with
      | true =>
        rw [batchStage_of_cap hf hcap] at hexec
        exact ⟨_, hexec, rfl, fun _ => ⟨hhist, nofun, fun _ _ => ⟨rfl, rfl⟩, nofun⟩, nofun⟩
      | false =>
        rw [batchStage_of_noCap hf hcap] at hexec
        exact ⟨_, hexec, rfl, fun _ => ⟨hhist, nofun, nofun, fun _ _ => ⟨rfl, rfl⟩⟩, nofun⟩

/-! ### The POLL step -/

section
variable {a : RegAddr} {exit : Stage} {s : State}

/-- The poll step of POLL, and of the configuration commands on STATUS. -/
theorem exec_poll {i : Instr} (hi : (i = .poll a ∧ exit = .finish) ∨
      (isConfig i = true ∧ a = s.params.regmap.status ∧ exit = .clear)) (hst : s.stage = .poll) :
    exec i s = .next (pollStage a exit s) := by
  rcases hi with ⟨rfl, rfl⟩ | ⟨hc, rfl, rfl⟩
  · rw [exec, execPoll, hst]
  · obtain ⟨dec, e⟩ := exec_of_isConfig hc s
    rw [e, configStages, hst]

theorem pollStage_of_fails (hk : s.pollcnt.toNat ≠ s.params.pollLimit)
    (hf : s.draw.fails = true) : pollStage a exit s = (s.polled a).leaveTo .ioerr .finish := by
  rw [pollStage, if_neg hk, if_pos hf, State.polled]

theorem pollStage_of_verdict (hk : s.pollcnt.toNat ≠ s.params.pollLimit)
    (hf : s.draw.fails = false) {o : Term}
    (hv : pollVerdict s.lPred s.params.pollLimit (s.pollcnt + 1).toNat s.draw.value = some o) :
    pollStage a exit s = (s.polled a).leaveTo o exit := by
  rw [pollStage, if_neg hk, if_neg (ne_true_of_eq_false hf), hv, State.polled]

theorem pollStage_of_noVerdict (hk : s.pollcnt.toNat ≠ s.params.pollLimit)
    (hf : s.draw.fails = false)
    (hv : pollVerdict s.lPred s.params.pollLimit (s.pollcnt + 1).toNat s.draw.value = none) :
    pollStage a exit s = s.polled a := by
  rw [pollStage, if_neg hk, if_neg (ne_true_of_eq_false hf), hv, State.polled]

theorem State.polled_eq (s : State) (a : RegAddr) : s.polled a = { s.popDraw with
    pollcnt := s.pollcnt + 1
    history := s.history ++ [if s.draw.fails then .readFail (s.params.portAddr a)
      else .read (s.params.portAddr a) s.draw.value] } := by
  rw [State.polled]
  cases hf : s.draw.fails with
  | true => rw [State.tRead_of_fails hf]; rfl
  | false => rw [State.tRead_of_ok hf]; rfl

end

/-- Settles O28: a failed read, or the verdict on the value read. -/
theorem pollStepReadsStatusOnce : Obligations.PollStepReadsStatusOnce := by
  intro i a exit s hi hst hlt hlimit hpred v e done t
  have hne : s.pollcnt.toNat ≠ s.params.pollLimit := hlt.ne
  have hk : (s.pollcnt + 1).toNat = s.pollcnt.toNat + 1 := by bv_omega
  have herr : (s.lPred.err v).toNat = e := Pred.err_toNat hpred v
  have herr0 : s.lPred.err v = 0 ↔ e = 0 := by rw [← herr, ← BitVec.toNat_inj]; rfl
  have ht : s.polled a = t := s.polled_eq a
  have hverdict {o : Term} (hf : s.draw.fails = false)
      (hv : pollVerdict s.lPred s.params.pollLimit (s.pollcnt + 1).toNat v = some o) :
      exec i s = .next { t with term := o, stage := exit } := by
    rw [exec_poll hi hst, pollStage_of_verdict hne hf hv, ht, State.leaveTo]
  refine ⟨fun hf => ?_, fun hf he => hverdict hf ?_, fun hf he hd => hverdict hf ?_,
    fun hf he hd hl => hverdict hf ?_, fun hf he hd hl => ?_⟩
  · rw [exec_poll hi hst, pollStage_of_fails hne hf, ht, State.leaveTo]
  · rw [← herr, BitVec.ofNat_toNat, BitVec.setWidth_eq]
    exact pollVerdict_eq_some.2 (.inl ⟨fun h0 => he (herr0.1 h0), rfl⟩)
  · exact pollVerdict_eq_some.2 (.inr (.inl ⟨herr0.2 he, hd, rfl⟩))
  · exact pollVerdict_eq_some.2 (.inr (.inr ⟨herr0.2 he, hd, hk.trans hl, rfl⟩))
  · have hv := pollVerdict_eq_none.2 ⟨herr0.2 he, hd, (hk.trans_lt hl).ne⟩
    rw [exec_poll hi hst, pollStage_of_noVerdict hne hf hv, ht]

/-! ### The FINISH step -/

/-- FINISH of every command is `finishTerm`, of a configuration command after CTRL_SHADOW has taken
the base word (R144, R151, R152). -/
theorem exec_finish {i : Instr} {s : State} (hi : hasStage i .finish = true)
    (hst : s.stage = .finish) :
    exec i s = .next (finishTerm
      { s with ctrlShadow := if isConfig i then s.lBase else s.ctrlShadow }) := by
  rcases isConfig_or_regWrite_or_poll_of_hasStage_finish hi with hc | ⟨count, rfl⟩ | ⟨a, rfl⟩
  · obtain ⟨dec, e⟩ := exec_of_isConfig hc s
    have hfinish : configStages dec s = finishConfig s := by rw [configStages, hst]
    rw [e, hfinish, finishConfig, if_pos hc]
  · have hexec : exec (.regWrite count) s = .next (finishTerm s) := by
      rw [exec, execRegWrite, hst]
    exact hexec
  · have hexec : exec (.poll a) s = .next (finishTerm s) := by rw [exec, execPoll, hst]
    exact hexec

/-- Settles O30: `finishTerm` by the pending outcome. -/
theorem finishStepReportsTheOutcome : Obligations.FinishStepReportsTheOutcome := by
  intro i s hi hst t
  rw [exec_finish hi hst]
  refine ⟨fun h => ?_, fun h => ?_, fun e h => ?_, fun h => ?_⟩ <;> simp only [finishTerm, h, t]

/-! ### A configuration sequence without a failure -/

/-- The sequencer is next to move and runs configuration command `i`. -/
structure RunsConfig (i : Instr) (s : State) : Prop where
  config : isConfig i = true
  decoded : decode s.cmd = .instr i
  executing : s.seq = .exec
  noInputs : s.inputs = []

section
variable {i : Instr} {s : State} {d : Draw} {ds : List Draw}

theorem RunsConfig.step_eq_exec (h : RunsConfig i s) : step s = exec i s := by
  rw [step_nil h.noInputs, sequencerTurn_instr h.executing h.decoded]

theorem State.draw_fails_of_cons (hd : s.draws = d :: ds) (hf : d.fails = false) :
    s.draw.fails = false := by
  rw [State.draw_of_cons hd, Params.portDraw_fails, hf]

/-- BATCH answered with success goes to POLL (R131). -/
theorem RunsConfig.step_batch (h : RunsConfig i s) (hst : s.stage = .batch)
    (hcap : s.params.busyPollCap = true) (hd : s.draws = d :: ds) (hf : d.fails = false) :
    step s = .next { s with
      draws := ds
      drawCount := s.drawCount + 1
      stage := .poll
      history := s.history ++ (s.params.portList s.lBatch).map fun p => .write p.1 p.2 } := by
  have hok := State.draw_fails_of_cons hd hf
  rw [h.step_eq_exec, exec_batch_of_isConfig hst h.config, batchStage_of_cap hok hcap,
    State.tWrite, State.popDraw_of_cons hd, batchEvents_ok hok, writeEvents]

/-- A status read that is done without an error leaves POLL for CLEAR (R140). -/
theorem RunsConfig.step_poll (h : RunsConfig i s) (hst : s.stage = .poll)
    (hk : s.pollcnt.toNat ≠ s.params.pollLimit) (hd : s.draws = d :: ds) (hf : d.fails = false)
    (herr : s.lPred.err (s.params.portData d.value) = 0)
    (hdone : s.lPred.done (s.params.portData d.value) = true) :
    step s = .next { s with
      draws := ds
      drawCount := s.drawCount + 1
      pollcnt := s.pollcnt + 1
      term := .done
      stage := .clear
      history := s.history ++
        [.read (s.params.portAddr s.params.regmap.status) (s.params.portData d.value)] } := by
  have hok := State.draw_fails_of_cons hd hf
  have hval : s.draw.value = s.params.portData d.value := by
    rw [State.draw_of_cons hd, Params.portDraw_value]
  have hv := pollVerdict_eq_some (limit := s.params.pollLimit) (k := (s.pollcnt + 1).toNat).2
    (.inr (.inl ⟨herr, hdone, rfl⟩))
  rw [← hval] at hv
  rw [h.step_eq_exec, exec_poll (.inr ⟨h.config, rfl, rfl⟩) hst, pollStage_of_verdict hk hok hv,
    State.polled, State.tRead_of_ok hok, State.popDraw_of_cons hd, hval, State.leaveTo]

/-- CLEAR answered with success writes the base word and goes to FINISH (R143). -/
theorem RunsConfig.step_clear (h : RunsConfig i s) (hst : s.stage = .clear)
    (hd : s.draws = d :: ds) (hf : d.fails = false) :
    step s = .next { s with
      draws := ds
      drawCount := s.drawCount + 1
      stage := .finish
      history := s.history ++
        [.write (s.params.portAddr s.params.regmap.ctrl) (s.params.portData s.lBase)] } := by
  have hexec := (clearStepIsBestEffort i s h.config hst).1 (State.draw_fails_of_cons hd hf)
  rw [h.step_eq_exec, hexec, State.popDraw_of_cons hd]

/-- FINISH with DONE ends the command OK (R144). -/
theorem RunsConfig.step_finish (h : RunsConfig i s) (hst : s.stage = .finish)
    (hterm : s.term = .done) :
    step s = .next ({ s with ctrlShadow := s.lBase }.finish .ok .none) := by
  have hexec := (finishStepReportsTheOutcome i s (hasStage_of_isConfig h.config _) hst).1 hterm
  rw [h.step_eq_exec, hexec, if_pos h.config]

end

theorem core_run_of_step {k : Nat} {s t : State} {r : Step} (h : step s = .next t)
    (hr : core.run k t = r) : core.run (k + 1) s = r :=
  (core_run_succ k h).trans hr

/-- Settles O31: BATCH, POLL, CLEAR and FINISH, one step each. -/
theorem configurationSequenceSucceeds : Obligations.ConfigurationSequenceSucceeds := by
  intro i s d1 d2 d3 rest hc hi hs hst hin hcap hlimit hk hdraws hf1 hf2 hf3 v herr hdone
  have hk0 : s.pollcnt.toNat ≠ s.params.pollLimit := by rw [hk]; exact Nat.ne_of_lt hlimit
  refine core_run_of_step (RunsConfig.step_batch ⟨hc, hi, hs, hin⟩ hst hcap hdraws hf1) ?_
  refine core_run_of_step (RunsConfig.step_poll ⟨hc, hi, hs, hin⟩ rfl hk0 rfl hf2 herr hdone) ?_
  refine core_run_of_step (RunsConfig.step_clear ⟨hc, hi, hs, hin⟩ rfl rfl hf3) ?_
  refine core_run_of_step (RunsConfig.step_finish ⟨hc, hi, hs, hin⟩ rfl rfl) ?_
  simp [Host.Core.run, State.finish, Stat.finish, hk, v]

end Sys2Proof.Machine
end

section
/-! The N/M search and the arithmetic of the dividers (41_pll_synthesizer.md R181, R187). -/

namespace Sys2Proof.Machine

/-- The search stops where one of the loop's two exits is taken (R181). -/
theorem not_searchGoesOn_iff {p : Params} {fin v n : Nat} :
    ¬ SearchGoesOn p fin v n ↔ fin ≤ p.fFloor * n ∨ p.nmMax < rnd (v * (n + 1)) fin := by
  simp only [SearchGoesOn, not_and_or, not_lt, not_le]

/-- The loop's pair in the spec's words is the N of `searchN` with its M: there is only one first N
at which the loop does not go on. -/
theorem isSearchPair_iff {p : Params} {fin v n m : Nat} (hp : 0 < p.fFloor) :
    IsSearchPair p fin v n m ↔ n = searchN p fin v ∧ m = searchM p fin v := by
  obtain ⟨hpos, hgo, hstop⟩ := searchN_spec p fin v hp
  constructor
  · rintro ⟨hn, rfl, hgo', hstop'⟩
    obtain rfl : n = searchN p fin v := by
      rcases lt_trichotomy n (searchN p fin v) with hlt | heq | hgt
      · exact absurd (hgo n hn hlt) (not_searchGoesOn_iff.2 hstop')
      · exact heq
      · exact absurd (hgo' _ hpos hgt) hstop
    exact ⟨rfl, rfl⟩
  · rintro ⟨rfl, rfl⟩
    exact ⟨hpos, rfl, hgo, not_searchGoesOn_iff.1 hstop⟩

/-- Settles O35, by the uniqueness of the N the loop stops at. -/
theorem searchReturnsTheLoopPair : Obligations.SearchReturnsTheLoopPair :=
  fun _ _ _ _ _ hok _ => isSearchPair_iff hok.fFloor_pos

theorem Choice.valid_iff {p : Params} {c : Choice} : c.valid p = true ↔ ValidPair p c.n c.m := by
  simp only [Choice.valid, ValidPair, Bool.and_eq_true, decide_eq_true_eq, and_assoc]

theorem fvcoInRange_iff {p : Params} {fin : Nat} {c : Choice} :
    fvcoInRange p fin c = true ↔ p.vcoMin * c.n ≤ fin * c.m ∧ fin * c.m ≤ p.vcoMax * c.n := by
  simp only [fvcoInRange, Bool.and_eq_true, decide_eq_true_eq]

/-- A quotient of at most `k` rounds to at most `k`. -/
theorem rnd_le {a b k : Nat} (hb : 0 < b) (h : a ≤ k * b) : rnd a b ≤ k := by
  obtain ⟨hlo, -⟩ := rnd_bounds a hb
  refine Nat.lt_add_one_iff.1 (Nat.lt_of_mul_lt_mul_left (a := 2 * b) (hlo.trans_lt ?_))
  have hk : 2 * b * (k + 1) = 2 * (k * b) + 2 * b := by ring
  omega

/-- With Fvco in range, an entry that is bypassed or not below F_FLOOR has a divider of at most
VCO_MAX / F_FLOOR (R187). -/
theorem dividerOf_le {p : Params} {fin k : Nat} {c : Choice} {e : OutEntry} (hn : 0 < c.n)
    (hfl : 0 < p.fFloor) (hf : fvcoInRange p fin c = true) (he : e.byp = true ∨ p.fFloor ≤ e.freq)
    (hk : 1 ≤ k) (hmax : p.vcoMax ≤ k * p.fFloor) : dividerOf fin c e ≤ k := by
  unfold dividerOf
  split
  · exact hk
  · rename_i hb
    have hfreq : p.fFloor ≤ e.freq := he.resolve_left hb
    refine rnd_le (Nat.mul_pos hn (by omega)) ?_
    calc fin * c.m ≤ p.vcoMax * c.n := (fvcoInRange_iff.1 hf).2
      _ ≤ k * e.freq * c.n := Nat.mul_le_mul_right _ (hmax.trans (Nat.mul_le_mul_left _ hfreq))
      _ = k * (c.n * e.freq) := by rw [Nat.mul_assoc, Nat.mul_comm e.freq]

end Sys2Proof.Machine
end

section
/-! The output list that PLL_CONFIG reads, and its checks (41_pll_synthesizer.md R170-R173). -/

namespace Sys2Proof.Machine

/-! ### The output list -/

theorem take_finRange (n k : Nat) :
    (List.finRange n).take k = (List.finRange n).filter fun j => decide (j.val < k) := by
  induction n generalizing k with
  | zero => simp
  | succ n ih =>
    cases k with
    | zero => simp
    | succ k =>
      rw [List.finRange_succ, List.take_succ_cons, ← List.map_take, ih, List.filter_cons,
        List.filter_map]
      simp [Function.comp_def]

/-- The output list holds the first `nout` entries of the output table, in order. -/
theorem State.outList_eq (s : State) (nout : Nat) :
    s.outList nout = ((List.finRange 16).filter fun j => decide (j.val < nout)).map s.entry := by
  rw [← take_finRange, List.map_take, State.outList, List.map_take]
  congr 1
  refine List.ext_getElem (by simp) fun k h₁ h₂ => ?_
  simp [State.entry]

theorem State.mem_outList {s : State} {nout : Nat} {e : OutEntry} :
    e ∈ s.outList nout ↔ ∃ j : Fin 16, j.val < nout ∧ s.entry j = e := by
  simp [State.outList_eq]

theorem State.entry_mem_outList (s : State) {nout : Nat} {j : Fin 16} (h : j.val < nout) :
    s.entry j ∈ s.outList nout := State.mem_outList.2 ⟨j, h, rfl⟩

theorem State.outList_length_le (s : State) (nout : Nat) : (s.outList nout).length ≤ 16 := by
  rw [State.outList_eq, List.length_map]
  exact (List.length_filter_le _ _).trans (by simp)

/-! ### The checks -/

/-- The checks of a list in two parts: those of the second part are made when the first passes. -/
theorem checkEntries_append (fl : Nat) (es es' : List OutEntry) (seen : List (Fin 16)) :
    checkEntries fl (es ++ es') seen =
      (checkEntries fl es seen).or
        (checkEntries fl es' ((es.map OutEntry.idx).reverse ++ seen)) := by
  induction es generalizing seen with
  | nil => rfl
  | cons e es ih =>
    rw [List.cons_append, checkEntries, checkEntries]
    split
    · rfl
    · split
      · rfl
      · rw [ih, List.map_cons, List.reverse_cons, List.append_assoc, List.singleton_append]

/-- The checks pass: every entry is bypassed or not below F_FLOOR, and no index repeats one
before it (R173). -/
theorem checkEntries_eq_none {fl : Nat} {es : List OutEntry} {seen : List (Fin 16)} :
    checkEntries fl es seen = none ↔
      (∀ e ∈ es, (e.byp = true ∨ fl ≤ e.freq) ∧ e.idx ∉ seen) ∧
        es.Pairwise fun e e' => e.idx ≠ e'.idx := by
  induction es generalizing seen with
  | nil => simp [checkEntries]
  | cons e es ih =>
    rw [checkEntries, List.forall_mem_cons, List.pairwise_cons]
    split
    · rename_i hlow
      have hlow' : ¬ (e.byp = true ∨ fl ≤ e.freq) := by simpa using hlow
      simp [hlow']
    · rename_i hok
      have hok' : e.byp = true ∨ fl ≤ e.freq := by
        by_contra hc; exact hok (by simpa using hc)
      split
      · rename_i hdup
        simp [hdup]
      · rename_i hnew
        rw [ih]
        simp only [hok', hnew, List.mem_cons, not_or, not_false_eq_true, and_self, true_and]
        exact ⟨fun ⟨h, hp⟩ => ⟨fun x hx => ⟨(h x hx).1, (h x hx).2.2⟩,
            fun x hx => Ne.symm (h x hx).2.1, hp⟩,
          fun ⟨h, hne, hp⟩ => ⟨fun x hx => ⟨(h x hx).1, (hne x hx).symm, (h x hx).2⟩, hp⟩⟩

/-- The checks before the search pass: the index, FIN and the entries do (R171-R173). -/
theorem pllValidate_eq_none {p : Params} {pll fin : Nat} {es : List OutEntry} :
    pllValidate p pll fin es = none ↔
      pll < p.pllCount ∧ p.fFloor ≤ fin ∧ checkEntries p.fFloor es [] = none := by
  unfold pllValidate
  split
  · simp only [reduceCtorEq, false_iff]; omega
  · split
    · simp only [reduceCtorEq, false_iff]; omega
    · exact ⟨fun h => ⟨by omega, by omega, h⟩, fun ⟨_, _, h⟩ => h⟩

end Sys2Proof.Machine
end

section
/-! A PLL_CONFIG that reaches BATCH, and the registers it reports in (41_pll_synthesizer.md R187,
R188, R194). -/

namespace Sys2Proof.Machine

/-! ### The score (R178-R180) -/

/-- Every candidate is a multiple of an active frequency (R180). -/
theorem one_le_score_of_mem_candidates {p : Params} {fs : List Nat} {v : Nat}
    (h : v ∈ candidates p fs) : 1 ≤ score fs v := by
  obtain ⟨f, hf, hv⟩ := mem_candidates.1 h
  refine List.countP_pos_iff.2 ⟨f, hf, ?_⟩
  rcases Nat.eq_zero_or_pos f with rfl | hpos
  · simp [multiples] at hv
  · obtain ⟨-, -, q, -, rfl⟩ := (mem_multiples hpos).1 hv
    simp

theorem activeFreqs_length_le (es : List OutEntry) : (activeFreqs es).length ≤ es.length := by
  rw [activeFreqs, List.length_map]
  exact List.length_filter_le _ _

/-! ### The results -/

/-- What a successful computation has found (R173, R180, R182, R186, R187). -/
structure PllResult.InRange (p : Params) (fin : Nat) (es : List OutEntry) (r : PllResult) :
    Prop where
  pair : ValidPair p r.sel.n r.sel.m
  fvco : p.vcoMin * r.sel.n ≤ fin * r.sel.m ∧ fin * r.sel.m ≤ p.vcoMax * r.sel.n
  best : 1 ≤ r.best ∧ r.best ≤ es.length
  outs : r.outs = es.map fun e => (e, dividerOf fin r.sel e)
  distinct : r.outs.Pairwise fun x y => x.1.idx ≠ y.1.idx
  divider_pos : ∀ x ∈ r.outs, 1 ≤ x.2
  divider_le : ∀ k, 1 ≤ k → p.vcoMax ≤ k * p.fFloor → ∀ x ∈ r.outs, x.2 ≤ k

theorem pllCompute_inRange {p : Params} {pll fin : Nat} {es : List OutEntry} {r : PllResult}
    (hfl : 0 < p.fFloor) (hnm : 1 ≤ p.nmMin) (h : pllCompute p pll fin es = .ok r) :
    r.InRange p fin es := by
  obtain ⟨hval, hcand, hsel, hfvco, hdiv, hbest, houts⟩ := pllCompute_ok h
  have hpair : ValidPair p r.sel.n r.sel.m := Choice.valid_iff.1 (selectNM_valid hsel).1
  obtain ⟨-, -, hchk⟩ := pllValidate_eq_none.1 hval
  obtain ⟨hes, hdistinct⟩ := checkEntries_eq_none.1 hchk
  obtain ⟨v, hv, hscore⟩ := bestScore_attained (fs := activeFreqs es) hcand
  refine ⟨hpair, fvcoInRange_iff.1 hfvco, ⟨?_, ?_⟩, houts, ?_, ?_, ?_⟩
  · rw [hbest, ← hscore]
    exact one_le_score_of_mem_candidates hv
  · rw [hbest, ← hscore]
    exact List.countP_le_length.trans (activeFreqs_length_le es)
  · rw [houts, List.pairwise_map]
    exact hdistinct
  · rw [houts, List.forall_mem_map]
    exact fun e he => Nat.one_le_iff_ne_zero.2 (hdiv e he)
  · rw [houts]
    exact fun k hk hmax => List.forall_mem_map.2 fun e he =>
      dividerOf_le (hnm.trans hpair.1) hfl hfvco (hes e he).1 hk hmax

/-- An entry of RES_C after PLL_CONFIG is a listed output's divider or what it was (R188). -/
theorem pllResC_cases {outs : List (OutEntry × Nat)}
    (hd : outs.Pairwise fun x y => x.1.idx ≠ y.1.idx) (v : Vector (BitVec 9) 16) (i : Fin 16) :
    (pllResC outs v)[i] = v[i] ∨ ∃ x ∈ outs, (pllResC outs v)[i] = BitVec.ofNat 9 x.2 := by
  by_cases hi : ∃ x ∈ outs, x.1.idx = i
  · obtain ⟨x, hx, rfl⟩ := hi
    exact .inr ⟨x, hx, pllResC_listed hx hd⟩
  · exact .inl (pllResC_other fun x hx he => hi ⟨x, hx, he⟩)

theorem toNat_ofNat_of_le {w n k : Nat} (h : n ≤ k) (hk : k < 2 ^ w) :
    (BitVec.ofNat w n).toNat = n := by
  rw [BitVec.toNat_ofNat, Nat.mod_eq_of_lt (by omega)]

/-- RES_NM holds N and M whole where both fit its fields (R188). -/
theorem PllResult.InRange.resNm_toNat {p : Params} {fin : Nat} {es : List OutEntry} {r : PllResult}
    (h : r.InRange p fin es) (hmax : p.nmMax ≤ 255) :
    (pllResNm r).n.toNat = r.sel.n ∧ (pllResNm r).m.toNat = r.sel.m := by
  obtain ⟨-, hn, -, hm⟩ := h.pair
  exact ⟨toNat_ofNat_of_le (hn.trans hmax) (by decide),
    toNat_ofNat_of_le (hm.trans hmax) (by decide)⟩

/-- PLL_CONFIG's step in the DECODE stage. -/
theorem exec_pllConfig_of_decode {s : State} (hst : s.stage = .decode) (pll nout : Nat) :
    exec (.pllConfig pll nout) s = .next (pllDecode pll nout s) := by
  rw [exec, execPllConfig, configStages, hst]

/-! ### The spec's parameters -/

section
variable {s t : State}

/-- The parameters that bound the reports, at the spec's values (00_scope.md R7). -/
theorem params_of_defaults (hp : { s.params with hostBase := 0 } = Config.defaults) :
    s.params.vcoMin = 600000000 ∧ s.params.vcoMax = 1300000000 ∧ s.params.fFloor = 5000000 ∧
      s.params.nmMin = 1 ∧ s.params.nmMax = 255 :=
  ⟨congrArg Params.vcoMin hp, congrArg Params.vcoMax hp, congrArg Params.fFloor hp,
    congrArg Params.nmMin hp, congrArg Params.nmMax hp⟩

/-- PLL_CONFIG's DECODE step at the spec's parameters: STAT is all it writes, or its results are in
range (R194). -/
theorem pllDecode_inRange (hp : { s.params with hostBase := 0 } = Config.defaults)
    (pll nout : Nat) :
    (∃ d, pllDecode pll nout s = s.finish .invalidArgument d) ∨
    ∃ r : PllResult, r.InRange s.params s.finHz (s.outList nout) ∧ (∀ x ∈ r.outs, x.2 ≤ 260) ∧
      (pllDecode pll nout s).resNm = pllResNm r ∧
      (pllDecode pll nout s).resC = pllResC r.outs s.resC := by
  obtain ⟨-, hmax, hfl, hnm, -⟩ := params_of_defaults hp
  rcases pllDecode_cases pll nout s with ⟨d, -, e⟩ | ⟨r, hr, e⟩
  · exact .inl ⟨d, e⟩
  · have hin := pllCompute_inRange (by omega) (by omega) hr
    exact .inr ⟨r, hin, hin.divider_le 260 (by omega) (by omega), by rw [e]; rfl, by rw [e]; rfl⟩

end

/-- Settles O38: the DECODE step that ends in BATCH is the one whose computation succeeded. -/
theorem pllConfigReachingBatchIsInRange : Obligations.PllConfigReachingBatchIsInRange := by
  intro pll nout s t hp hst _ _ h hbatch
  obtain ⟨hvmin, hvmax, -, hnmin, hnmax⟩ := params_of_defaults hp
  obtain rfl : pllDecode pll nout s = t := by
    rw [exec_pllConfig_of_decode hst] at h
    exact Host.Outcome.next.inj h
  rcases pllDecode_inRange hp pll nout with ⟨d, e⟩ | ⟨r, hin, h260, hresNm, hresC⟩
  · rw [e, State.finish_stage, hst] at hbatch
    cases hbatch
  · obtain ⟨hn1, hn2, hm1, hm2⟩ := hin.pair
    obtain ⟨hn, hm⟩ := hin.resNm_toNat (by omega)
    simp only [hresNm, hn, hm]
    obtain ⟨hf1, hf2⟩ := hin.fvco
    refine ⟨by omega, by omega, by omega, by omega, hvmin ▸ hf1, hvmax ▸ hf2, fun j hj => ?_⟩
    have hx : (s.entry j, dividerOf s.finHz r.sel (s.entry j)) ∈ r.outs := by
      rw [hin.outs]
      exact List.mem_map_of_mem (s.entry_mem_outList hj)
    have hle := h260 _ hx
    rw [hresC, pllResC_listed hx hin.distinct, toNat_ofNat_of_le hle (by decide)]
    exact ⟨hin.divider_pos _ hx, hle⟩

/-! ### The reports stay in range -/

section
variable {s t : State}

theorem ReportsInRange.of_eq (h : ReportsInRange s) (hnm : t.resNm = s.resNm)
    (hc : t.resC = s.resC) : ReportsInRange t := ⟨hc ▸ h.c_le, hnm ▸ h.nm⟩

theorem reportsInRange_of_reset (hnm : t.resNm = State.reset.resNm)
    (hc : t.resC = State.reset.resC) : ReportsInRange t :=
  ⟨hc ▸ by decide, .inl hnm⟩

theorem ReportsInRange.pllDecode (h : ReportsInRange s)
    (hp : { s.params with hostBase := 0 } = Config.defaults) (pll nout : Nat) :
    ReportsInRange (pllDecode pll nout s) := by
  obtain ⟨-, -, -, hnmin, hnmax⟩ := params_of_defaults hp
  rcases pllDecode_inRange hp pll nout with ⟨d, e⟩ | ⟨r, hin, h260, hresNm, hresC⟩
  · exact e ▸ h.of_eq rfl rfl
  · refine ⟨fun i => ?_, .inr ?_⟩
    · rw [hresC]
      rcases pllResC_cases hin.distinct s.resC i with e | ⟨x, hx, e⟩ <;> rw [e]
      · exact h.c_le i
      · rw [toNat_ofNat_of_le (h260 x hx) (by decide)]
        exact h260 x hx
    · obtain ⟨hn1, hn2, hm1, hm2⟩ := hin.pair
      obtain ⟨hb1, hb2⟩ := hin.best
      have hb3 := hb2.trans (s.outList_length_le nout)
      obtain ⟨hn, hm⟩ := hin.resNm_toNat (by omega)
      have hs : (pllResNm r).score.toNat = r.best := toNat_ofNat_of_le hb3 (by decide)
      rw [hresNm, hn, hm, hs]
      exact ⟨by omega, by omega, hb1, hb3⟩

/-- Of the commands only PLL_CONFIG writes the reports, in its DECODE step. -/
theorem ReportsInRange.exec {i : Instr} (h : ReportsInRange s)
    (hp : { s.params with hostBase := 0 } = Config.defaults) (he : exec i s = .next t) :
    ReportsInRange t := by
  rcases (exec_writesItsResults he).pll with ⟨hnm, hc⟩ | ⟨hst, pll, nout, rfl⟩
  · exact h.of_eq hnm hc
  · rw [exec_pllConfig_of_decode hst] at he
    cases he
    exact h.pllDecode hp pll nout

theorem ReportsInRange.sequencerTurn (h : ReportsInRange s)
    (hp : { s.params with hostBase := 0 } = Config.defaults) (he : sequencerTurn s = .next t) :
    ReportsInRange t := by
  rcases sequencerTurn_cases s with ⟨-, e⟩ | ⟨-, -, e⟩ | ⟨-, -, e⟩ | ⟨-, _, -, e⟩ <;> rw [e] at he
  · cases he; exact h
  · cases he; exact h.of_eq rfl rfl
  · cases he; exact h.of_eq rfl rfl
  · exact h.exec hp he

theorem ReportsInRange.hostAccess {a : HostAccess} (h : ReportsInRange s)
    (he : hostAccess a s = .next t) : ReportsInRange t := by
  rcases hostAccess_cases a s with ⟨-, e⟩ | ⟨off, l, -, ⟨-, e⟩ | ⟨w, -, e⟩⟩ <;> rw [e] at he
  · cases he
  · obtain ⟨-, hnm, hc, -⟩ := results_eq_iff.1 (hostRead_results he)
    exact h.of_eq hnm hc
  · cases he
    obtain ⟨⟨-, hnm, hc, -⟩, -⟩ := hostWrite_results l w s
    exact h.of_eq hnm hc

theorem reportsInRange_resetStep (b : Bool) (s : State) : ReportsInRange (resetStep b s) := by
  rcases resetStep_cases b s with e | ⟨_, -, e⟩ <;> rw [e]
  · exact reportsInRange_of_reset rfl rfl
  · exact reportsInRange_of_reset rfl rfl

end

/-- Settles O52, by the four kinds of step: a reset clears the reports, the host writes none, and
the sequencer writes them in PLL_CONFIG's DECODE step only. -/
theorem everyStepKeepsReportsInRange : Obligations.EveryStepKeepsReportsInRange := by
  intro s t hp h he
  have hpop : ReportsInRange s.popInput := h.of_eq rfl rfl
  rcases step_cases s with ⟨-, e⟩ | ⟨_, -, e⟩ | ⟨a, _, -, e⟩ | ⟨b, _, -, e⟩ <;> rw [e] at he
  · exact h.sequencerTurn hp he
  · exact hpop.sequencerTurn hp he
  · exact hpop.hostAccess he
  · cases he; exact reportsInRange_resetStep b _

end Sys2Proof.Machine
end
section
/-! How PLL_CONFIG ends on its arguments (41_pll_synthesizer.md R171-R173). -/

namespace Sys2Proof.Machine

section
variable {s : State}

/-- Entries that pass the checks have different outputs (R173). -/
theorem outList_pairwise_idx_ne {nout : Nat} (h : ∀ j : Fin 16, j.val < nout → EntryOk s j) :
    (s.outList nout).Pairwise fun e e' => e.idx ≠ e'.idx := by
  rw [State.outList_eq, List.pairwise_map, List.pairwise_filter]
  refine (List.pairwise_lt_finRange 16).imp fun {i j} hij _ hj => ?_
  exact (h j (of_decide_eq_true hj)).2 i hij

/-- Entries that pass the spec's checks pass the model's. -/
theorem checkEntries_outList {nout : Nat} (h : ∀ j : Fin 16, j.val < nout → EntryOk s j) :
    checkEntries s.params.fFloor (s.outList nout) [] = none := by
  refine checkEntries_eq_none.2 ⟨fun e he => ?_, outList_pairwise_idx_ne h⟩
  obtain ⟨j, hj, rfl⟩ := State.mem_outList.1 he
  exact ⟨(h j hj).1, List.not_mem_nil⟩

/-- The entries before `j`, then entry `j`, begin the output list. -/
theorem State.outList_split (s : State) {nout : Nat} {j : Fin 16} (h : j.val < nout) :
    ∃ rest, s.outList nout = s.outList j.val ++ s.entry j :: rest := by
  have hlen : j.val < ((List.finRange 16).take nout).length := by simp; omega
  refine ⟨((((List.finRange 16).take nout).drop (j.val + 1)).map s.entry), ?_⟩
  simp only [State.outList_eq, ← take_finRange]
  rw [← List.map_cons, ← List.map_append]
  congr 1
  calc (List.finRange 16).take nout
      = ((List.finRange 16).take nout).take j.val ++ ((List.finRange 16).take nout).drop j.val :=
        (List.take_append_drop _ _).symm
    _ = _ := by
        rw [List.take_take, Nat.min_eq_left h.le, List.drop_eq_getElem_cons hlen]
        simp

/-- The first entry that fails decides how the checks end. -/
theorem checkEntries_outList_of_first {nout : Nat} {j : Fin 16} (hj : j.val < nout)
    (h : ∀ i : Fin 16, i < j → EntryOk s i) :
    ((s.entry j).byp = false ∧ (s.entry j).freq < s.params.fFloor →
      checkEntries s.params.fFloor (s.outList nout) [] = some .foutLow) ∧
    (¬ ((s.entry j).byp = false ∧ (s.entry j).freq < s.params.fFloor) →
      (∃ i : Fin 16, i < j ∧ (s.entry i).idx = (s.entry j).idx) →
      checkEntries s.params.fFloor (s.outList nout) [] = some .dupIndex) := by
  obtain ⟨rest, e⟩ := s.outList_split hj
  rw [e, checkEntries_append, checkEntries_outList (fun i hi => h i hi), Option.none_or,
    checkEntries]
  refine ⟨fun ⟨hb, hf⟩ => by simp [hb, hf], fun hok ⟨i, hi, hidx⟩ => ?_⟩
  have hseen : (s.entry j).idx ∈ ((s.outList j.val).map OutEntry.idx).reverse ++ [] := by
    simp only [List.append_nil, List.mem_reverse]
    exact hidx ▸ List.mem_map_of_mem (s.entry_mem_outList hi)
  rw [if_neg (by simpa using hok), if_pos hseen]

/-- A computation that fails ends the command, writing only STAT. -/
theorem exec_pllConfig_of_error {pll nout : Nat} {d : Detail} (hst : s.stage = .decode)
    (h : pllCompute s.params pll s.finHz (s.outList nout) = .error d) :
    exec (.pllConfig pll nout) s = .next (s.finish .invalidArgument d) := by
  rw [exec_pllConfig_of_decode hst, pllDecode, h]

theorem pllCompute_of_validate_some {p : Params} {pll fin : Nat} {es : List OutEntry} {d : Detail}
    (h : pllValidate p pll fin es = some d) : pllCompute p pll fin es = .error d := by
  rw [pllCompute, h]

end

/-- Settles O34, by the first check that fails. -/
theorem pllConfigChecksItsArguments : Obligations.PllConfigChecksItsArguments := by
  intro pll nout s hst _
  refine ⟨fun hpll => ?_, fun hpll hfin => ?_, fun hpll hfin j hj hbefore => ?_⟩
  · exact exec_pllConfig_of_error hst (pllCompute_of_validate_some (if_pos hpll))
  · refine exec_pllConfig_of_error hst (pllCompute_of_validate_some ?_)
    rw [pllValidate, if_neg (by omega), if_pos hfin]
  · have hval : pllValidate s.params pll s.finHz (s.outList nout) =
        checkEntries s.params.fFloor (s.outList nout) [] := by
      rw [pllValidate, if_neg (by omega), if_neg (by omega)]
    obtain ⟨hlow, hdup⟩ := checkEntries_outList_of_first hj hbefore
    exact ⟨fun h => exec_pllConfig_of_error hst (pllCompute_of_validate_some (hval.trans (hlow h))),
      fun h h' =>
        exec_pllConfig_of_error hst (pllCompute_of_validate_some (hval.trans (hdup h h')))⟩

section
variable {s : State}

theorem PllArgsOk.validate {pll nout : Nat} (h : PllArgsOk s pll nout) :
    pllValidate s.params pll s.finHz (s.outList nout) = none := by
  obtain ⟨hpll, hfin, -, -, hes⟩ := h
  exact pllValidate_eq_none.2 ⟨hpll, hfin, checkEntries_outList hes⟩

end

end Sys2Proof.Machine
end

section
/-! What PLL_CONFIG chooses, in the spec's words (41_pll_synthesizer.md R174-R184). -/

namespace Sys2Proof.Machine

section
variable {s : State}

/-! ### The candidates (R174-R179) -/

/-- The frequencies of the active set that PLL_CONFIG reads (R174). -/
def State.freqs (s : State) (nout : Nat) : List Nat := activeFreqs (s.outList nout)

/-- The candidate set that PLL_CONFIG reads (R175). -/
def State.cands (s : State) (nout : Nat) : List Nat := candidates s.params (s.freqs nout)

theorem State.mem_freqs {nout f : Nat} :
    f ∈ s.freqs nout ↔ ∃ j, Active s nout j ∧ (s.entry j).freq = f := by
  simp only [State.freqs, activeFreqs, State.outList_eq, List.mem_map, List.mem_filter,
    List.mem_finRange, true_and, Active, decide_eq_true_eq, Bool.not_eq_true']
  constructor
  · rintro ⟨_, ⟨⟨j, hj, rfl⟩, hb⟩, rfl⟩; exact ⟨j, ⟨hj, hb⟩, rfl⟩
  · rintro ⟨j, ⟨hj, hb⟩, rfl⟩; exact ⟨_, ⟨⟨j, hj, rfl⟩, hb⟩, rfl⟩

theorem State.mem_cands (hvco : 0 < s.params.vcoMin) {nout v : Nat} :
    v ∈ s.cands nout ↔ IsCandidate s nout v := by
  rw [State.cands, mem_candidates]
  constructor
  · rintro ⟨f, hf, hv⟩
    obtain ⟨j, hj, rfl⟩ := State.mem_freqs.1 hf
    have hpos : 0 < (s.entry j).freq := Nat.pos_of_ne_zero fun h0 => by simp [h0, multiples] at hv
    obtain ⟨hlo, hhi, hq⟩ := (mem_multiples hpos).1 hv
    exact ⟨hlo, hhi, j, hj, hq⟩
  · rintro ⟨hlo, hhi, j, hj, hq⟩
    have hpos : 0 < (s.entry j).freq := Nat.pos_of_ne_zero fun h0 => by
      obtain ⟨q, -, rfl⟩ := hq
      rw [h0, Nat.mul_zero] at hlo
      omega
    exact ⟨_, State.mem_freqs.2 ⟨j, hj, rfl⟩, (mem_multiples hpos).2 ⟨hlo, hhi, hq⟩⟩

theorem score_freqs (nout v : Nat) : score (s.freqs nout) v = scoreOf s nout v := by
  rw [score, State.freqs, activeFreqs, State.outList_eq, List.countP_map, List.countP_filter,
    List.countP_map, List.countP_filter, scoreOf]
  refine List.countP_congr fun j _ => ?_
  simp only [Function.comp_apply, Bool.and_eq_true, decide_eq_true_eq, Nat.dvd_iff_mod_eq_zero]
  tauto

theorem mem_topCandidates_cands (hvco : 0 < s.params.vcoMin) {nout v : Nat} :
    v ∈ topCandidates (s.freqs nout) (s.cands nout) ↔ IsTop s nout v := by
  simp only [mem_topCandidates, State.mem_cands hvco, score_freqs, IsTop]

/-! ### The selection (R182-R184) -/

theorem absDiff_cast (a b : Nat) : (absDiff a b : Rat) = |(a : Rat) - b| := by
  rcases le_total a b with h | h
  · rw [absDiff, Nat.sub_eq_zero_of_le h, zero_add, Nat.cast_sub h, abs_sub_comm,
      abs_of_nonneg (sub_nonneg.2 (by exact_mod_cast h))]
  · rw [absDiff, Nat.sub_eq_zero_of_le h, add_zero, Nat.cast_sub h,
      abs_of_nonneg (sub_nonneg.2 (by exact_mod_cast h))]

/-- The deviation is the model's numerator over N (R183). -/
theorem deviation_eq {fin : Nat} {c : Choice} (hn : 0 < c.n) :
    deviation fin c.v c.n c.m = (c.dev fin : Rat) / c.n := by
  have hn' : (0 : Rat) < c.n := by exact_mod_cast hn
  rw [deviation, Choice.dev, absDiff_cast, ← abs_of_pos hn', ← abs_div, abs_of_pos hn']
  congr 1
  push_cast
  field_simp

theorem deviation_lt_iff {fin : Nat} {b c : Choice} (hb : 0 < b.n) (hc : 0 < c.n) :
    deviation fin b.v b.n b.m < deviation fin c.v c.n c.m ↔ b.dev fin * c.n < c.dev fin * b.n := by
  rw [deviation_eq hb, deviation_eq hc,
    div_lt_div_iff₀ (by exact_mod_cast hb) (by exact_mod_cast hc)]
  exact_mod_cast Iff.rfl

theorem deviation_eq_iff {fin : Nat} {b c : Choice} (hb : 0 < b.n) (hc : 0 < c.n) :
    deviation fin b.v b.n b.m = deviation fin c.v c.n c.m ↔ b.dev fin * c.n = c.dev fin * b.n := by
  rw [deviation_eq hb, deviation_eq hc,
    div_eq_div_iff (by exact_mod_cast hb.ne') (by exact_mod_cast hc.ne')]
  exact_mod_cast Iff.rfl

theorem Precedes.antisymm {p : Params} {fin : Nat} {b c : Choice} (h : Precedes p fin b c)
    (h' : Precedes p fin c b) : b.v = c.v := by
  unfold Precedes at h h'
  cases ht : p.tieRule <;> simp only [ht] at h h' <;> omega

/-- The spec's selection, its comparison of deviations and its tie rule said by `Precedes`. -/
theorem isSelected_iff_precedes {nout v n m : Nat} :
    IsSelected s nout v n m ↔ IsTop s nout v ∧ IsSearchPair s.params s.finHz v n m ∧
      ValidPair s.params n m ∧ ∀ v' n' m', IsTop s nout v' →
        IsSearchPair s.params s.finHz v' n' m' → ValidPair s.params n' m' →
        Precedes s.params s.finHz ⟨v, n, m⟩ ⟨v', n', m'⟩ := by
  refine and_congr_right fun _ => and_congr_right fun hpair => and_congr_right fun _ =>
    forall_congr' fun v' => forall_congr' fun n' => forall_congr' fun m' =>
    imp_congr_right fun _ => imp_congr_right fun hpair' => imp_congr_right fun _ => ?_
  obtain ⟨hn, -⟩ := hpair
  obtain ⟨hn', -⟩ := hpair'
  have hlt := deviation_lt_iff (fin := s.finHz) (b := ⟨v, n, m⟩) (c := ⟨v', n', m'⟩) hn hn'
  have heq := deviation_eq_iff (fin := s.finHz) (b := ⟨v, n, m⟩) (c := ⟨v', n', m'⟩) hn hn'
  refine or_congr hlt (and_congr heq ?_)
  cases s.params.tieRule <;> exact Iff.rfl

/-- The spec's selection is the one the model's scan makes (R184). -/
theorem isSelected_iff (hok : s.params.Ok) {nout v n m : Nat} :
    IsSelected s nout v n m ↔
      selectNM s.params s.finHz (topCandidates (s.freqs nout) (s.cands nout)) =
        some ⟨v, n, m⟩ := by
  have hfl := hok.fFloor_pos
  have hsorted := topCandidates_sorted (fs := s.freqs nout)
    (candidates_sorted s.params (s.freqs nout))
  simp only [isSelected_iff_precedes, ← mem_topCandidates_cands hok.vco_pos, isSearchPair_iff hfl]
  constructor
  · rintro ⟨htop, ⟨rfl, rfl⟩, hvalid, hleast⟩
    have hv := Choice.valid_iff (c := choiceOf s.params s.finHz v).2 hvalid
    cases hsel : selectNM s.params s.finHz (topCandidates (s.freqs nout) (s.cands nout)) with
    | none => exact absurd (selectNM_eq_none.1 hsel v htop) (by simp [hv])
    | some c =>
      have hbefore := selectNM_precedes hfl hsorted hsel v htop hv
      obtain ⟨hcv, v', htop', rfl⟩ := selectNM_valid hsel
      have hafter := hleast v' _ _ htop' ⟨rfl, rfl⟩ (Choice.valid_iff.1 hcv)
      obtain rfl : v = v' := Precedes.antisymm hafter hbefore
      rfl
  · intro hsel
    obtain ⟨hcv, v', htop', he⟩ := selectNM_valid hsel
    obtain ⟨rfl, rfl, rfl⟩ := Choice.mk.inj he
    refine ⟨htop', ⟨rfl, rfl⟩, Choice.valid_iff.1 hcv, fun w _ _ hw ⟨hn, hm⟩ hvalid => ?_⟩
    subst hn hm
    exact selectNM_precedes hfl hsorted hsel w hw (Choice.valid_iff.2 hvalid)

end

end Sys2Proof.Machine
end
section
/-! What PLL_CONFIG's computation finds once its arguments pass (41_pll_synthesizer.md R177,
R185-R187), and how it fails. -/

namespace Sys2Proof.Machine

section
variable {s : State} {pll nout v n m : Nat}

/-- The listed entries, each with its divider for the pair (n, m) (R187). -/
def State.listed (s : State) (nout n m : Nat) : List (OutEntry × Nat) :=
  ((List.finRange 16).take nout).map fun j => (s.entry j, dividerAt s n m j)

theorem State.outList_map_dividerOf (s : State) (nout v n m : Nat) :
    (s.outList nout).map (fun e => (e, dividerOf s.finHz ⟨v, n, m⟩ e)) = s.listed nout n m := by
  rw [State.outList_eq, ← take_finRange, List.map_map]
  rfl

theorem any_dividerOf_eq_zero_iff :
    ((s.outList nout).any fun e => dividerOf s.finHz ⟨v, n, m⟩ e = 0) = true ↔
      ∃ j : Fin 16, j.val < nout ∧ dividerAt s n m j = 0 := by
  simp only [List.any_eq_true, decide_eq_true_eq, State.mem_outList]
  constructor
  · rintro ⟨_, ⟨j, hj, rfl⟩, h⟩; exact ⟨j, hj, h⟩
  · rintro ⟨j, hj, h⟩; exact ⟨_, ⟨j, hj, rfl⟩, h⟩

theorem cands_eq_nil_iff (hvco : 0 < s.params.vcoMin) :
    s.cands nout = [] ↔ ¬ ∃ v, IsCandidate s nout v := by
  simp only [List.eq_nil_iff_forall_not_mem, State.mem_cands hvco, not_exists]

/-- A selected pair's candidate is one. -/
theorem IsSelected.cands_ne_nil (hvco : 0 < s.params.vcoMin) (h : IsSelected s nout v n m) :
    s.cands nout ≠ [] := fun he => (cands_eq_nil_iff hvco).1 he ⟨v, h.1.1⟩

theorem pllCompute_of_noCandidate (hok : s.params.Ok) (ha : PllArgsOk s pll nout)
    (h : ¬ ∃ v, IsCandidate s nout v) :
    pllCompute s.params pll s.finHz (s.outList nout) = .error .noCandidate := by
  rw [pllCompute, ha.validate]
  exact if_pos ((cands_eq_nil_iff hok.vco_pos).2 h)

theorem pllCompute_of_noSelection (hok : s.params.Ok) (ha : PllArgsOk s pll nout)
    (hc : ∃ v, IsCandidate s nout v) (h : ¬ ∃ v n m, IsSelected s nout v n m) :
    pllCompute s.params pll s.finHz (s.outList nout) = .error .noValidNm := by
  have hnone : selectNM s.params s.finHz (topCandidates (s.freqs nout) (s.cands nout)) = none :=
    Option.eq_none_iff_forall_ne_some.2 fun c hsel => h ⟨_, _, _, (isSelected_iff hok).2 hsel⟩
  rw [State.cands, State.freqs] at hnone
  rw [pllCompute, ha.validate]
  simp only [hnone]
  exact if_neg fun he => (cands_eq_nil_iff hok.vco_pos).1 he hc

/-- The computation of a selected pair: Fvco's range, then the dividers, then the result. -/
theorem pllCompute_of_isSelected (hok : s.params.Ok) (ha : PllArgsOk s pll nout)
    (h : IsSelected s nout v n m) :
    pllCompute s.params pll s.finHz (s.outList nout) =
      if ¬ (s.params.vcoMin * n ≤ s.finHz * m ∧ s.finHz * m ≤ s.params.vcoMax * n) then
        .error .fvcoRange
      else if ∃ j : Fin 16, j.val < nout ∧ dividerAt s n m j = 0 then .error .cZero
      else .ok ⟨scoreOf s nout v, ⟨v, n, m⟩, s.listed nout n m⟩ := by
  have hsel := (isSelected_iff hok).1 h
  have hbest : bestScore (s.freqs nout) (s.cands nout) = scoreOf s nout v := by
    have htop := (mem_topCandidates_cands hok.vco_pos).2 h.1
    rw [← score_freqs]
    exact (of_decide_eq_true (List.mem_filter.1 htop).2).symm
  have hne := h.cands_ne_nil hok.vco_pos
  rw [State.cands, State.freqs] at hsel hbest hne
  rw [pllCompute, ha.validate]
  simp only [hsel, hbest, if_neg hne, Bool.not_eq_true', ← Bool.not_eq_true, fvcoInRange_iff,
    any_dividerOf_eq_zero_iff, State.outList_map_dividerOf]

end

/-- Settles O36, each failure by the computation's equation for it. -/
theorem pllConfigRejectsWhatItCannotMake : Obligations.PllConfigRejectsWhatItCannotMake := by
  intro pll nout s hok hst ha
  refine ⟨fun h => ?_, fun hc h => ?_, fun v n m h hf => ?_, fun v n m h hf hz => ?_⟩
  · exact exec_pllConfig_of_error hst (pllCompute_of_noCandidate hok ha h)
  · exact exec_pllConfig_of_error hst (pllCompute_of_noSelection hok ha hc h)
  · refine exec_pllConfig_of_error hst ((pllCompute_of_isSelected hok ha h).trans (if_pos ?_))
    omega
  · refine exec_pllConfig_of_error hst ((pllCompute_of_isSelected hok ha h).trans ?_)
    rw [if_neg (by omega), if_pos hz]

end Sys2Proof.Machine
end

section
/-! The words of PLL_CONFIG's batch (41_pll_synthesizer.md R189, R190). -/

namespace Sys2Proof.Machine

/-- The parity and bypass bits of M and N as a number (R189). -/
theorem mnOddByp_toNat (n m : Nat) : (mnOddByp n m).toNat =
    (if n = 1 then 1 else 0) + 2 * (n % 2) + 4 * (if m = 1 then 1 else 0) + 8 * (m % 2) := by
  have hodd : ∀ k : Nat, (decide (k % 2 = 1)).toNat = k % 2 := fun k => by
    rcases Nat.mod_two_eq_zero_or_one k with h | h <;> simp [h]
  have hone : ∀ k : Nat, (decide (k = 1)).toNat = if k = 1 then 1 else 0 := fun k => by
    split <;> simp [*]
  simp only [mnOddByp, bit, toNat_append_eq_add, BitVec.toNat_ofBool, hodd, hone]
  simp only [BitVec.toNat_ofNat]
  omega

/-- The base word by its fields: the shadow's bits 15:8 and 2, and PLL_IND in bits 7:3 (R190). -/
theorem pllBase_eq_append (shadow : BitVec 16) {pll : Nat} (h : pll < 32) :
    pllBase shadow pll = (shadow.extractLsb' 8 8 ++ BitVec.ofNat 5 pll ++
      BitVec.ofBool (shadow.getLsbD 2) ++ 0#2 : BitVec 16) := by
  have hpll : BitVec.ofNat 16 pll = (BitVec.ofNat 5 pll).setWidth 16 :=
    BitVec.eq_of_toNat_eq (by simp; omega)
  rw [pllBase, hpll]
  generalize BitVec.ofNat 5 pll = ind
  apply BitVec.eq_of_getLsbD_eq
  intro i hi
  rw [BitVec.getLsbD_append, BitVec.getLsbD_append, BitVec.getLsbD_append]
  interval_cases i <;> simp

theorem pllBase_toNat (shadow : BitVec 16) {pll : Nat} (h : pll < 32) :
    (pllBase shadow pll).toNat =
      shadow.toNat / 2 ^ 8 * 2 ^ 8 + pll * 2 ^ 3 + 4 * (shadow.getLsbD 2).toNat := by
  have hhi : (shadow.extractLsb' 8 8).toNat = shadow.toNat / 2 ^ 8 := by
    rw [BitVec.extractLsb'_toNat, Nat.shiftRight_eq_div_pow]
    omega
  rw [pllBase_eq_append shadow h, toNat_append_eq_add, toNat_append_eq_add,
    toNat_append_eq_add, hhi, toNat_ofNat_of_le (Nat.le_of_lt_succ h) (by decide),
    BitVec.toNat_ofBool, BitVec.toNat_ofNat]
  omega

/-! ### The enable registers -/

/-- The pair of an enable register at position `i`: its BYP and ODD bits (20_memory.md R85). -/
def pairAt (r : RegData) (i : Nat) : Bool × Bool := (r.getLsbD (2 * i), r.getLsbD (2 * i + 1))

theorem getLsbD_eq_false_of_lt_four {w : BitVec 16} (hw : w.toNat < 4) {k : Nat} (hk : 2 ≤ k) :
    w.getLsbD k = false :=
  Nat.testBit_lt_two_pow (hw.trans_le (Nat.pow_le_pow_right (by decide : 0 < 2) hk))

/-- The two bits that `setPair` puts in. -/
theorem pairBits (byp odd : Bool) : let q : BitVec 16 := 0#14 ++ bit odd ++ bit byp
    q.toNat < 4 ∧ q.getLsbD 0 = byp ∧ q.getLsbD 1 = odd := by
  revert byp odd; decide

/-- Setting a pair changes that pair and no other. -/
theorem pairAt_setPair (r : RegData) {p i : Nat} (hi : i < 8) (byp odd : Bool) :
    pairAt (setPair r p byp odd) i = if i = p then (byp, odd) else pairAt r i := by
  obtain ⟨hq, hbyp, hodd⟩ := pairBits byp odd
  unfold setPair pairAt
  generalize (0#14 ++ bit odd ++ bit byp : BitVec 16) = q at hq hbyp hodd
  have hmask : ∀ k, 2 ≤ k → (3#16).getLsbD k = false := fun k =>
    getLsbD_eq_false_of_lt_four (by decide)
  have hword : ∀ k, 2 ≤ k → q.getLsbD k = false := fun k => getLsbD_eq_false_of_lt_four hq
  have hlt : 2 * i < 16 := by omega
  have hlt' : 2 * i + 1 < 16 := by omega
  simp only [BitVec.getLsbD_or, BitVec.getLsbD_and, BitVec.getLsbD_not,
      BitVec.getLsbD_shiftLeft, hlt, hlt', decide_true, Bool.true_and]
  rcases lt_trichotomy i p with h | rfl | h
  · have h0 : 2 * i < 2 * p := by omega
    have h1 : 2 * i + 1 < 2 * p := by omega
    simp [h0, h1, h.ne]
  · subst hbyp hodd
    simp
  · have h0 : ¬ 2 * i < 2 * p := by omega
    have h1 : ¬ 2 * i + 1 < 2 * p := by omega
    simp [h0, h1, h.ne', hmask (2 * i - 2 * p) (by omega), hmask (2 * i + 1 - 2 * p) (by omega),
      hword (2 * i - 2 * p) (by omega), hword (2 * i + 1 - 2 * p) (by omega)]

/-- What an entry does to the enable register of outputs 8-15 (`h`) or 0-7 (R189). -/
def setBank (h : Bool) (r : RegData) (x : OutEntry × Nat) : RegData :=
  if decide (8 ≤ x.1.idx.val) = h then
    setPair r (x.1.idx.val % 8) (bypBit x.1 x.2) (x.2 % 2 = 1) else r

/-- CEN_HI (`h`) or CEN_LO. -/
def cenBank (h : Bool) (outs : List (OutEntry × Nat)) : RegData := outs.foldl (setBank h) 0x5555

theorem cenLo_eq_cenBank (outs : List (OutEntry × Nat)) : cenLo outs = cenBank false outs := by
  unfold cenLo cenBank
  congr 1
  funext r x
  simp [setBank]

theorem cenHi_eq_cenBank (outs : List (OutEntry × Nat)) : cenHi outs = cenBank true outs := by
  unfold cenHi cenBank
  congr 1
  funext r x
  by_cases hx : x.1.idx.val < 8 <;> simp [setBank, hx]

/-- The output whose pair stands at position `i` of a bank. -/
def bankOut (h : Bool) (i : Nat) : Nat := i + if h then 8 else 0

theorem pairAt_setBank (h : Bool) (r : RegData) (x : OutEntry × Nat) {i : Nat} (hi : i < 8) :
    pairAt (setBank h r x) i =
      if x.1.idx.val = bankOut h i then (bypBit x.1 x.2, decide (x.2 % 2 = 1)) else pairAt r i := by
  have hidx := x.1.idx.isLt
  have hbank : decide (8 ≤ x.1.idx.val) = h ∧ i = x.1.idx.val % 8 ↔ x.1.idx.val = bankOut h i := by
    cases h <;> simp [bankOut] <;> omega
  rw [setBank]
  split
  · rename_i hh
    rw [pairAt_setPair r hi]
    exact if_congr ((and_iff_right hh).symm.trans hbank) rfl rfl
  · rename_i hh
    rw [if_neg fun hout => hh (hbank.2 hout).1]

/-- A pair that no entry's output has keeps its start value (R189). -/
theorem pairAt_foldl_setBank_other (h : Bool) {outs : List (OutEntry × Nat)} (r : RegData) {i : Nat}
    (hi : i < 8) (hne : ∀ x ∈ outs, x.1.idx.val ≠ bankOut h i) :
    pairAt (outs.foldl (setBank h) r) i = pairAt r i := by
  induction outs generalizing r with
  | nil => rfl
  | cons x outs ih =>
    rw [List.foldl_cons, ih _ fun y hy => hne y (.tail _ hy), pairAt_setBank h r x hi,
      if_neg (hne x (.head _))]

/-- The pair of a listed output, its index listed once (R189). -/
theorem pairAt_foldl_setBank_listed (h : Bool) {outs : List (OutEntry × Nat)} (r : RegData)
    {i : Nat} (hi : i < 8) (hd : outs.Pairwise fun x y => x.1.idx ≠ y.1.idx) {x : OutEntry × Nat}
    (hx : x ∈ outs) (hout : x.1.idx.val = bankOut h i) :
    pairAt (outs.foldl (setBank h) r) i = (bypBit x.1 x.2, decide (x.2 % 2 = 1)) := by
  induction outs generalizing r with
  | nil => cases hx
  | cons y outs ih =>
    rw [List.pairwise_cons] at hd
    rw [List.foldl_cons]
    rcases List.mem_cons.1 hx with rfl | hx
    · rw [pairAt_foldl_setBank_other h _ hi fun z hz hz' =>
          hd.1 z hz (Fin.ext (hout.trans hz'.symm)),
        pairAt_setBank h r x hi, if_pos hout]
    · exact ih _ hd.2 hx

/-- Every pair starts as BYP = 1, ODD = 0 (R189). -/
theorem pairAt_start (i : Fin 8) : pairAt 0x5555 i = (true, false) := by
  revert i; decide

end Sys2Proof.Machine
end

section
/-! What PLL_CONFIG commits (41_pll_synthesizer.md R174-R191). -/

namespace Sys2Proof.Machine

section
variable {s : State} {pll nout v n m : Nat}

theorem State.entry_mem_listed {j : Fin 16} (hj : j.val < nout) :
    (s.entry j, dividerAt s n m j) ∈ s.listed nout n m := by
  rw [State.listed, take_finRange]
  exact List.mem_map_of_mem (by simpa using hj)

theorem State.exists_of_mem_listed {x : OutEntry × Nat} (hx : x ∈ s.listed nout n m) :
    ∃ j : Fin 16, j.val < nout ∧ (s.entry j, dividerAt s n m j) = x := by
  rw [State.listed, take_finRange] at hx
  simpa using hx

theorem State.listed_length (h : nout ≤ 16) : (s.listed nout n m).length = nout := by
  simp [State.listed, h]

theorem State.listed_getElem? {j : Fin 16} (hj : j.val < nout) :
    (s.listed nout n m)[j.val]? = some (s.entry j, dividerAt s n m j) := by
  simp [State.listed, hj]

theorem PllArgsOk.listed_pairwise (h : PllArgsOk s pll nout) :
    (s.listed nout n m).Pairwise fun x y => x.1.idx ≠ y.1.idx := by
  obtain ⟨-, -, -, -, hes⟩ := h
  rw [← State.outList_map_dividerOf s nout 0 n m, List.pairwise_map]
  exact outList_pairwise_idx_ne hes

/-- What the DECODE step writes for a selected pair (R188-R191). -/
theorem exec_pllConfig_of_isSelected (hok : s.params.Ok) (hst : s.stage = .decode)
    (ha : PllArgsOk s pll nout) (hsel : IsSelected s nout v n m)
    (hlo : s.params.vcoMin * n ≤ s.finHz * m) (hhi : s.finHz * m ≤ s.params.vcoMax * n)
    (hdiv : ∀ j : Fin 16, j.val < nout → dividerAt s n m j ≠ 0) :
    let r : PllResult := ⟨scoreOf s nout v, ⟨v, n, m⟩, s.listed nout n m⟩
    let base := pllBase s.ctrlShadow pll
    exec (.pllConfig pll nout) s =
      .next ({ s with resNm := pllResNm r, resC := pllResC r.outs s.resC }.toBatch
        (pllBatch s.params.regmap base r) base predPll) := by
  have hz : ¬ ∃ j : Fin 16, j.val < nout ∧ dividerAt s n m j = 0 := fun ⟨j, hj, h0⟩ => hdiv j hj h0
  have hcompute := pllCompute_of_isSelected hok ha hsel
  rw [if_neg (not_not_intro ⟨hlo, hhi⟩), if_neg hz] at hcompute
  rw [exec_pllConfig_of_decode hst, pllDecode, hcompute]

end

/-- Settles O37: the state of `exec_pllConfig_of_isSelected`, each word of it by its own lemma. -/
theorem pllConfigCommitsTheSelectedPair : Obligations.PllConfigCommitsTheSelectedPair := by
  intro pll nout v n m s hok hst ha hsel hlo hhi hdiv
  have hd := ha.listed_pairwise (n := n) (m := m)
  have hexec := exec_pllConfig_of_isSelected hok hst ha hsel hlo hhi hdiv
  obtain ⟨hpll, -, -, hnout, -⟩ := ha
  have hpll' : pll < 32 := by have := hok.pllCount_le; omega
  refine ⟨_, (s.listed nout n m).map fun x => (s.params.regmap.c[x.1.idx], splitHalves x.2),
    mnOddByp n m, cenLo (s.listed nout n m), cenHi (s.listed nout n m), pllBase s.ctrlShadow pll,
    hexec, rfl, fun j hj => ?_, fun i hi => ?_,
    ?_, fun j hj => ?_, mnOddByp_toNat n m, fun i h => ?_, pllBase_toNat _ hpll'⟩
  · exact pllResC_listed (State.entry_mem_listed hj) hd
  · refine pllResC_other fun x hx hxi => ?_
    obtain ⟨j, hj, rfl⟩ := State.exists_of_mem_listed hx
    exact hi j hj hxi
  · rw [List.length_map, State.listed_length hnout]
  · rw [List.getElem?_map, State.listed_getElem? hj, Option.map_some]
  · intro reg out
    have hreg : reg = cenBank h (s.listed nout n m) := by
      cases h
      · exact cenLo_eq_cenBank _
      · exact cenHi_eq_cenBank _
    rw [hreg]
    refine ⟨fun j hj hout => ?_, fun hne => ?_⟩
    · exact Prod.mk.inj
        (pairAt_foldl_setBank_listed h 0x5555 i.isLt hd (State.entry_mem_listed hj) hout)
    · refine Prod.mk.inj ((pairAt_foldl_setBank_other h 0x5555 i.isLt fun x hx hout => ?_).trans
        (pairAt_start i))
      obtain ⟨j, hj, rfl⟩ := State.exists_of_mem_listed hx
      exact hne j hj hout

end Sys2Proof.Machine
end

section
/-! The phase commands: their checks, their step counts and the control word they write (42_phase.md
R222-R233). -/

namespace Sys2Proof.Machine

/-! ### The DECODE step -/

theorem exec_phaseFixed_of_decode {s : State} (hst : s.stage = .decode) (pll : Nat) (o : Fin 16) :
    exec (.phaseFixed pll o) s = .next (phaseFixedDecode pll o s) := by
  rw [exec, execPhaseFixed, configStages, hst]

theorem exec_phaseSearch_of_decode {s : State} (hst : s.stage = .decode) (pll : Nat)
    (o : Fin 16) : exec (.phaseSearch pll o) s = .next (phaseSearchDecode pll o s) := by
  rw [exec, execPhaseSearch, configStages, hst]

theorem phaseValidate_eq_pllIndex {p : Params} {pll : Nat} (h : p.pllCount ≤ pll) (c : Nat) :
    phaseValidate p pll c = some .pllIndex :=
  if_pos h

theorem phaseValidate_eq_notConfigured {p : Params} {pll : Nat} (h : pll < p.pllCount) :
    phaseValidate p pll 0 = some .notConfigured := by
  rw [phaseValidate, if_neg (Nat.not_le.2 h), if_pos rfl]

theorem phaseValidate_eq_none {p : Params} {pll c : Nat} (h : pll < p.pllCount) (hc : c ≠ 0) :
    phaseValidate p pll c = none := by
  rw [phaseValidate, if_neg (Nat.not_le.2 h), if_neg hc]

section
variable {s : State} {pll : Nat} {o : Fin 16}

theorem State.divider_eq_zero : s.divider o = 0 ↔ s.resC[o] = 0 :=
  BitVec.toNat_inj (y := 0)

/-- A failed check ends both commands with its detail (R222). -/
theorem exec_phase_of_rejected (hst : s.stage = .decode) {d : Detail}
    (h : phaseValidate s.params pll (s.divider o) = some d) :
    exec (.phaseFixed pll o) s = .next (s.finish .invalidArgument d) ∧
      exec (.phaseSearch pll o) s = .next (s.finish .invalidArgument d) := by
  rw [exec_phaseFixed_of_decode hst, exec_phaseSearch_of_decode hst, phaseFixedDecode,
    phaseSearchDecode, h]
  exact ⟨rfl, rfl⟩

end

/-- Settles O39: each check is the first that fails where it applies. -/
theorem phaseCommandsCheckTheirArguments : Obligations.PhaseCommandsCheckTheirArguments := by
  intro pll o s hst
  refine ⟨fun hpll => exec_phase_of_rejected hst (phaseValidate_eq_pllIndex hpll _),
    fun hpll hc => exec_phase_of_rejected hst ?_⟩
  rw [State.divider_eq_zero.2 hc, phaseValidate_eq_notConfigured hpll]

/-! ### The step count (R224) -/

/-- `truncDiv` is the rational quotient cut toward zero (00_scope.md R11). -/
theorem truncDiv_eq_floor_or_ceil (a : Int) {b : Nat} (hb : 0 < b) :
    truncDiv a b = if (0 : Rat) ≤ (a : Rat) / b then ⌊(a : Rat) / b⌋ else ⌈(a : Rat) / b⌉ := by
  have hb' : (0 : Rat) < b := Nat.cast_pos.2 hb
  rcases le_or_gt 0 a with ha | ha
  · rw [if_pos (div_nonneg (Int.cast_nonneg ha) hb'.le), Rat.floor_intCast_div_natCast]
    exact Int.tdiv_eq_ediv_of_nonneg ha
  · rw [if_neg (not_le.2 (div_neg_of_neg_of_pos (Int.cast_lt_zero.2 ha) hb')),
      Rat.ceil_intCast_div_natCast, ← Int.tdiv_eq_ediv_of_nonneg (by omega), Int.neg_tdiv, neg_neg,
      truncDiv]

/-- The fixed step count's quotient is p * C / 45000 + PHASE_BIAS. -/
theorem fixedSteps_quotient {p : Params} (hbias : 0 < p.phaseBiasDen) (phase : Int) (c : Nat) :
    ((phase * c * p.phaseBiasDen + 45000 * p.phaseBiasNum : Int) : Rat) /
        ((45000 * p.phaseBiasDen : Nat) : Rat) =
      (phase : Rat) * (c : Rat) / 45000 + (p.phaseBiasNum : Rat) / (p.phaseBiasDen : Rat) := by
  have hden : (p.phaseBiasDen : Rat) ≠ 0 := Nat.cast_ne_zero.2 hbias.ne'
  push_cast
  field_simp

theorem fixedSteps_eq {p : Params} (hbias : 0 < p.phaseBiasDen) (phase : Int) (c : Nat) :
    let x : Rat := (phase : Rat) * (c : Rat) / 45000 +
      (p.phaseBiasNum : Rat) / (p.phaseBiasDen : Rat)
    fixedSteps p phase c = if 0 ≤ x then ⌊x⌋ else ⌈x⌉ := by
  rw [fixedSteps, truncDiv_eq_floor_or_ceil _ (by omega), fixedSteps_quotient hbias]

/-! ### The control word (R223, R225, R230) -/

/-- The base word by its fields: the shadow's bit 15, MODE, UPDN, CNT_IND, PLL_IND, the shadow's
bit 2, and the two start bits 0 (20_memory.md R81). -/
theorem phaseBase_eq_append {p : Params} (shadow : BitVec 16) {pll : Nat} {o : Fin 16}
    (hpll : pll < 32) (hcnt : o.val + p.cntIndOffset < 32) (updn mode : Bool) :
    phaseBase p shadow pll o updn mode =
      (BitVec.ofBool (shadow.getLsbD 15) ++ bit mode ++ bit updn ++
        BitVec.ofNat 5 (o.val + p.cntIndOffset) ++ BitVec.ofNat 5 pll ++
        BitVec.ofBool (shadow.getLsbD 2) ++ 0#2 : BitVec 16) := by
  have hfield : ∀ n : Nat, n < 32 → BitVec.ofNat 16 n = (BitVec.ofNat 5 n).setWidth 16 :=
    fun n hn => BitVec.eq_of_toNat_eq (by simp; omega)
  rw [phaseBase, hfield _ hpll, hfield _ hcnt]
  generalize BitVec.ofNat 5 pll = ind
  generalize BitVec.ofNat 5 (o.val + p.cntIndOffset) = cnt
  apply BitVec.eq_of_getLsbD_eq
  intro i hi
  simp only [BitVec.getLsbD_append]
  interval_cases i <;> simp [bit]

theorem phaseBase_toNat {p : Params} (shadow : BitVec 16) {pll : Nat} {o : Fin 16}
    (hpll : pll < 32) (hcnt : o.val + p.cntIndOffset < 32) (updn mode : Bool) :
    (phaseBase p shadow pll o updn mode).toNat =
      2 ^ 15 * (shadow.getLsbD 15).toNat + 2 ^ 14 * mode.toNat + 2 ^ 13 * updn.toNat +
        2 ^ 8 * (o.val + p.cntIndOffset) + 2 ^ 3 * pll + 2 ^ 2 * (shadow.getLsbD 2).toNat := by
  rw [phaseBase_eq_append shadow hpll hcnt]
  simp only [toNat_append_eq_add, bit, BitVec.toNat_ofBool,
    toNat_ofNat_of_le (w := 5) (Nat.le_of_lt_succ hpll) (by decide),
    toNat_ofNat_of_le (w := 5) (Nat.le_of_lt_succ hcnt) (by decide), BitVec.toNat_ofNat]
  omega

/-! ### The start of the sequence -/

section
variable {s : State} {pll : Nat} {o : Fin 16}

/-- PHASE_FIXED's DECODE step once the shared checks pass (R225). -/
theorem exec_phaseFixed_of_valid (hst : s.stage = .decode) (hpll : pll < s.params.pllCount)
    (hc : s.resC[o] ≠ 0) :
    let steps := fixedSteps s.params s.phase (s.divider o)
    exec (.phaseFixed pll o) s = .next (if s.params.phaseStepsMax < steps.natAbs then
      s.finish .invalidArgument .stepsRange
      else phaseStart pll o steps (direction steps) false predPll s) := by
  rw [exec_phaseFixed_of_decode hst, phaseFixedDecode,
    phaseValidate_eq_none hpll (mt State.divider_eq_zero.1 hc)]

/-- PHASE_SEARCH's DECODE step once the shared checks pass (R230). -/
theorem exec_phaseSearch_of_valid (hst : s.stage = .decode) (hpll : pll < s.params.pllCount)
    (hc : s.resC[o] ≠ 0) :
    exec (.phaseSearch pll o) s =
      .next (phaseStart pll o (searchSteps (s.divider o)) true true predSearch s) := by
  rw [exec_phaseSearch_of_decode hst, phaseSearchDecode,
    phaseValidate_eq_none hpll (mt State.divider_eq_zero.1 hc)]

/-- The fields of the base word for an argument that passes (R223, R225, R230). -/
theorem phaseBase_toNat_of_valid (hok : s.params.Ok) (hpll : pll < s.params.pllCount)
    (updn mode : Bool) :
    (phaseBase s.params s.ctrlShadow pll o updn mode).toNat =
      2 ^ 15 * (s.ctrlShadow.getLsbD 15).toNat + 2 ^ 14 * mode.toNat + 2 ^ 13 * updn.toNat +
        2 ^ 8 * (o.val + s.params.cntIndOffset) + 2 ^ 3 * pll +
        2 ^ 2 * (s.ctrlShadow.getLsbD 2).toNat := by
  have hcount := hok.pllCount_le
  have hcnt := hok.cntInd_fits
  exact phaseBase_toNat _ (by omega) (by omega) updn mode

end

/-- Settles O40: the model's step count is the rational one, and the base word is
`phaseBase_toNat_of_valid` at MODE = 0. -/
theorem phaseFixedBuildsItsBatch : Obligations.PhaseFixedBuildsItsBatch := by
  intro pll o s hok hst hpll hc x steps updn mag
  have hsteps : fixedSteps s.params s.phase (s.divider o) = steps :=
    fixedSteps_eq hok.biasDen_pos _ _
  have hexec := exec_phaseFixed_of_valid hst hpll hc
  rw [hsteps] at hexec
  constructor
  · intro hmax
    rw [hexec, if_pos hmax]
  · intro hmax
    refine ⟨phaseBase s.params s.ctrlShadow pll o updn false, ?_, ?_⟩
    · rw [hexec, if_neg (Nat.not_lt.2 hmax)]
      rfl
    · rw [phaseBase_toNat_of_valid hok hpll]
      simp

/-- Settles O41: 8 * C - 1 is at most 4087, so the magnitude holds it whole, and the base word is
`phaseBase_toNat_of_valid` at UPDN = MODE = 1. -/
theorem phaseSearchBuildsItsBatch : Obligations.PhaseSearchBuildsItsBatch := by
  intro pll o s hok hst hpll hc
  have hpos : s.resC[o].toNat ≠ 0 := mt State.divider_eq_zero.1 hc
  have hlt := s.resC[o].isLt
  have hsteps : (searchSteps (s.divider o) : Int) = 8 * s.resC[o].toNat - 1 := by
    rw [searchSteps, State.divider]; omega
  refine ⟨phaseBase s.params s.ctrlShadow pll o true true,
    BitVec.ofNat 16 (searchSteps (s.divider o)), ?_, ?_, ?_⟩
  · rw [exec_phaseSearch_of_valid hst hpll hc, ← hsteps]
    rfl
  · rw [toNat_ofNat_of_le (k := 4087) (by omega) (by decide)]
    omega
  · rw [phaseBase_toNat_of_valid hok hpll]
    simp

end Sys2Proof.Machine
end

section
/-! The records of the sample codec (43_sample_codec.md R250, R253-R261): each layout's record as
12-bit fields, and the entry it comes back as. -/

namespace Sys2Proof.Machine

/-! ### A 12-bit field in a 16-bit word (R254, R259) -/

/-- A field in bits 15:4, shifted back arithmetically, is the field sign-extended. -/
theorem asr4_append_zero (f : BitVec 12) : asr4 (f ++ 0#4) = f.signExtend 16 := by
  apply BitVec.eq_of_toInt_eq
  rw [asr4, BitVec.toInt_sshiftRight, BitVec.toInt_append_zero, Int.shiftRight_eq_div_pow,
    BitVec.toInt_signExtend_of_le (by decide)]
  exact Int.mul_ediv_cancel_left _ (by decide)

theorem asr4_toInt (v : BitVec 16) : (asr4 v).toInt = v.toInt / 2 ^ 4 := by
  rw [asr4, BitVec.toInt_sshiftRight, Int.shiftRight_eq_div_pow]
  rfl

theorem toInt_asr4_append_zero (f : BitVec 12) :
    (asr4 (f ++ 0#4)).toInt = Int.bmod f.toNat (2 ^ 12) := by
  rw [asr4_append_zero, BitVec.toInt_signExtend_of_le (by decide), BitVec.toInt_eq_toNat_bmod]

/-- The bits of a sign-extended field that lie within the field. -/
theorem extractLsb'_asr4_append_zero (f : BitVec 12) {start len : Nat} (h : start + len ≤ 12) :
    (asr4 (f ++ 0#4)).extractLsb' start len = f.extractLsb' start len := by
  rw [asr4_append_zero]
  refine BitVec.eq_of_getLsbD_eq fun i hi => ?_
  rw [BitVec.getLsbD_extractLsb', BitVec.getLsbD_extractLsb', BitVec.getLsbD_signExtend,
    if_pos (by omega), decide_eq_true (show start + i < 16 by omega), Bool.true_and]

theorem wireWord_toNat (v : BitVec 16) : (wireWord v).toNat = 2 ^ 4 * (v.toNat % 2 ^ 12) := by
  rw [wireWord, toNat_append_eq_add, BitVec.extractLsb'_toNat, Nat.shiftRight_zero]
  rfl

/-- The low 12 bits of a word, read as a signed field (R261). -/
theorem toInt_asr4_wireWord (v : BitVec 16) :
    (asr4 (wireWord v)).toInt = Int.bmod v.toNat (2 ^ 12) := by
  rw [wireWord, toInt_asr4_append_zero, BitVec.extractLsb'_toNat, Nat.shiftRight_zero,
    Int.natCast_mod, Int.emod_bmod]

/-- A word in the 12-bit range comes back from its low 12 bits (R260). -/
theorem asr4_wireWord_of_inRange {v : BitVec 16} (h : -2048 ≤ v.toInt ∧ v.toInt ≤ 2047) :
    asr4 (wireWord v) = v := by
  apply BitVec.eq_of_toInt_eq
  calc (asr4 (wireWord v)).toInt = Int.bmod v.toNat (2 ^ 12) := toInt_asr4_wireWord v
    _ = Int.bmod v.toInt (2 ^ 12) := by
      rw [BitVec.toInt_eq_toNat_bmod, Int.bmod_bmod_of_dvd (by decide)]
    _ = v.toInt := Int.bmod_eq_of_le (by omega) (by omega)

/-! ### Records (R253, R254, R257-R259) -/

/-- The entry each record of `x` decodes to: bits 11:0 of both words, sign-extended (R261). -/
def signExtendLow12 (x : Word) : Word :=
  asr4 (wireWord (x.extractLsb' 16 16)) ++ asr4 (wireWord (x.extractLsb' 0 16))

theorem signExtendLow12_of_twelveBit {x : Word} (h : TwelveBit x) : signExtendLow12 x = x := by
  obtain ⟨hi, hq⟩ := h
  rw [signExtendLow12, asr4_wireWord_of_inRange hi, asr4_wireWord_of_inRange hq]
  exact BitVec.extractLsb'_append_extractLsb'

theorem entryOfBytes_compress (x : Word) :
    entryOfBytes (compress x) = some (signExtendLow12 x) := by
  simp only [compress, entryOfBytes, decompress, signExtendLow12, wireWord]
  rw [BitVec.extractLsb'_append_eq_right, BitVec.extractLsb'_append_eq_left,
    BitVec.extractLsb'_append_extractLsb'_eq_extractLsb' (show 4 = 0 + 4 from rfl),
    BitVec.extractLsb'_append_extractLsb'_eq_extractLsb' (show 8 = 0 + 8 from rfl)]

/-- A 4-byte record read as its I and Q wire words. -/
theorem entryOfBytes_bytesOfWord (y : Word) : entryOfBytes (bytesOfWord y) =
    some (asr4 (y.extractLsb' 16 16) ++ asr4 (y.extractLsb' 0 16)) := by
  simp only [bytesOfWord, entryOfBytes, reduce]
  rw [BitVec.extractLsb'_append_extractLsb'_eq_extractLsb' (show 24 = 16 + 8 from rfl),
    BitVec.extractLsb'_append_extractLsb'_eq_extractLsb' (show 8 = 0 + 8 from rfl)]

theorem expand_eq_bytesOfWord (x : Word) : expand x =
    bytesOfWord (wireWord (x.extractLsb' 16 16) ++ wireWord (x.extractLsb' 0 16)) := by
  simp only [expand, bytesOfWord]
  rw [BitVec.extractLsb'_append_eq_of_add_le (by decide),
    BitVec.extractLsb'_append_eq_of_add_le (by decide),
    BitVec.extractLsb'_append_eq_of_le (by decide), BitVec.extractLsb'_append_eq_of_le (by decide)]

theorem entryOfBytes_expand (x : Word) : entryOfBytes (expand x) = some (signExtendLow12 x) := by
  rw [expand_eq_bytesOfWord, entryOfBytes_bytesOfWord, BitVec.extractLsb'_append_eq_left,
    BitVec.extractLsb'_append_eq_right, signExtendLow12]

/-- A compressed record holds nothing but its two fields, so its entry compresses to it (R260). -/
theorem compress_decompress (b0 b1 b2 : Byte) : compress (decompress b0 b1 b2) = [b0, b1, b2] := by
  simp only [compress, decompress, BitVec.extractLsb'_append_eq_right,
    BitVec.extractLsb'_append_eq_left]
  rw [extractLsb'_asr4_append_zero _ (by decide), extractLsb'_asr4_append_zero _ (by decide),
    extractLsb'_asr4_append_zero _ (by decide), extractLsb'_asr4_append_zero _ (by decide),
    BitVec.extractLsb'_append_eq_right, BitVec.extractLsb'_append_eq_left,
    BitVec.extractLsb'_append_eq_right, BitVec.extractLsb'_append_eq_left,
    BitVec.extractLsb'_append_extractLsb']

/-- The bytes of a compressed record as numbers (R253). -/
theorem compress_toNat (x : Word) : ∃ b0 b1 b2, compress x = [b0, b1, b2] ∧
    b0.toNat = x.toNat % 2 ^ 16 % 2 ^ 8 ∧
    b1.toNat = x.toNat % 2 ^ 16 / 2 ^ 8 % 2 ^ 4 + 2 ^ 4 * (x.toNat / 2 ^ 16 % 2 ^ 4) ∧
    b2.toNat = x.toNat / 2 ^ 16 / 2 ^ 4 % 2 ^ 8 := by
  refine ⟨_, _, _, rfl, ?_⟩
  simp only [toNat_append_eq_add, BitVec.extractLsb'_toNat, Nat.shiftRight_eq_div_pow]
  omega

/-- The entry of a compressed record as its two signed fields (R254). -/
theorem decompress_toInt (b0 b1 b2 : Byte) :
    ((decompress b0 b1 b2).extractLsb' 0 16).toInt =
        Int.bmod (b0.toNat + 2 ^ 8 * (b1.toNat % 2 ^ 4) : Nat) (2 ^ 12) ∧
      ((decompress b0 b1 b2).extractLsb' 16 16).toInt =
        Int.bmod (b1.toNat / 2 ^ 4 + 2 ^ 4 * b2.toNat : Nat) (2 ^ 12) := by
  have hi : (b1.extractLsb' 0 4 ++ b0).toNat = b0.toNat + 2 ^ 8 * (b1.toNat % 2 ^ 4) := by
    rw [toNat_append_eq_add, BitVec.extractLsb'_toNat, Nat.shiftRight_zero, Nat.add_comm]
  have hq : (b2 ++ b1.extractLsb' 4 4).toNat = b1.toNat / 2 ^ 4 + 2 ^ 4 * b2.toNat := by
    rw [toNat_append_eq_add, BitVec.extractLsb'_toNat, Nat.shiftRight_eq_div_pow]
    omega
  rw [← hi, ← hq, decompress, BitVec.extractLsb'_append_eq_right, BitVec.extractLsb'_append_eq_left]
  exact ⟨toInt_asr4_append_zero _, toInt_asr4_append_zero _⟩

/-- The two wire words of an uncompressed record as numbers (R257, R259). -/
theorem wireWords_toNat (x : Word) :
    let y : Word := wireWord (x.extractLsb' 16 16) ++ wireWord (x.extractLsb' 0 16)
    y.toNat % 2 ^ 16 = 2 ^ 4 * (x.toNat % 2 ^ 12) ∧
      y.toNat / 2 ^ 16 = 2 ^ 4 * (x.toNat / 2 ^ 16 % 2 ^ 12) := by
  intro y
  have hy : y.toNat = 2 ^ 16 * (2 ^ 4 * (x.toNat / 2 ^ 16 % 2 ^ 16 % 2 ^ 12)) +
      2 ^ 4 * (x.toNat % 2 ^ 16 % 2 ^ 12) := by
    rw [toNat_append_eq_add, wireWord_toNat, wireWord_toNat, BitVec.extractLsb'_toNat,
      BitVec.extractLsb'_toNat, Nat.shiftRight_eq_div_pow, Nat.shiftRight_zero]
  omega

/-- Settles O50: both records decode to `signExtendLow12`, whose words are those of R261. -/
theorem outOfRangeSamplesLoseHighBits : Obligations.OutOfRangeSamplesLoseHighBits := by
  intro x y hy
  have hsome : y = some (signExtendLow12 x) := by
    simp only [List.mem_cons, List.not_mem_nil, or_false] at hy
    obtain rfl | rfl := hy
    · exact entryOfBytes_compress x
    · exact entryOfBytes_expand x
  refine ⟨_, hsome, ?_, ?_⟩
  · rw [signExtendLow12, BitVec.extractLsb'_append_eq_right, toInt_asr4_wireWord,
      BitVec.extractLsb'_toNat, Nat.shiftRight_zero]
  · rw [signExtendLow12, BitVec.extractLsb'_append_eq_left, toInt_asr4_wireWord,
      BitVec.extractLsb'_toNat, Nat.shiftRight_eq_div_pow, Nat.mod_eq_of_lt (by omega)]

end Sys2Proof.Machine
end

section
/-! What the four codec commands do (43_sample_codec.md R251-R260). -/

namespace Sys2Proof.Machine

/-! ### Records and entries in the RAMs -/

theorem bytesOfWord_wordOfBytes (b0 b1 b2 b3 : Byte) :
    bytesOfWord (wordOfBytes b0 b1 b2 b3) = [b0, b1, b2, b3] := by
  simp only [bytesOfWord, List.cons.injEq, and_true, ← BitVec.toNat_inj, BitVec.extractLsb'_toNat,
    Nat.shiftRight_eq_div_pow, wordOfBytes_toNat]
  omega

theorem Memory.readWord_eq_some_iff_readBytes {m : Memory} {a : Nat} {w : Word} :
    m.readWord a = some w ↔ m.readBytes a 4 = some (bytesOfWord w) := by
  constructor
  · intro h
    obtain ⟨bs, hbs⟩ : ∃ bs, m.readBytes a 4 = some bs := by
      refine Option.ne_none_iff_exists'.1 fun hnone => ?_
      rw [Memory.readWord, hnone] at h
      cases h
    obtain ⟨b0, b1, b2, b3, rfl⟩ := List.length_eq_four.1 (Memory.readBytes_eq_some.1 hbs).1
    rw [Memory.readWord, hbs] at h
    rw [hbs, ← Option.some.inj h, bytesOfWord_wordOfBytes]
  · intro h
    rw [Memory.readWord, h]
    exact congrArg some (wordOfBytes_bytesOfWord w)

theorem Memory.readBytes_three {m : Memory} {a : Nat} {b0 b1 b2 : Byte} :
    m.readBytes a 3 = some [b0, b1, b2] ↔
      m.read a = some b0 ∧ m.read (a + 1) = some b1 ∧ m.read (a + 2) = some b2 := by
  rw [Memory.readBytes_eq_some]
  constructor
  · rintro ⟨-, h⟩
    exact ⟨h 0 (by decide), h 1 (by decide), h 2 (by decide)⟩
  · rintro ⟨h0, h1, h2⟩
    refine ⟨rfl, fun k hk => ?_⟩
    obtain rfl | rfl | rfl : k = 0 ∨ k = 1 ∨ k = 2 := by omega
    · exact h0
    · exact h1
    · exact h2

/-- Two memories that read the same bytes somewhere read each of them the same. -/
theorem Memory.read_eq_of_readBytes {m m' : Memory} {a n k : Nat} {bs : List Byte}
    (h : m.readBytes a n = some bs) (h' : m'.readBytes a n = some bs) (hk : k < n) :
    m'.read (a + k) = m.read (a + k) := by
  rw [(Memory.readBytes_eq_some.1 h').2 k hk, (Memory.readBytes_eq_some.1 h).2 k hk]

theorem recordAt_of_readBytes {m : Memory} {len e : Nat} {bs : List Byte}
    (h : m.readBytes (wramAddr (len * e)) len = some bs) : recordAt m len e = entryOfBytes bs := by
  rw [recordAt, h, Option.bind_some]

theorem WramWritten.record {s : State} {n e : Nat} (h : WramWritten s (3 * n)) (he : e < n) :
    ∃ b0 b1 b2, s.mem.readBytes (wramAddr (3 * e)) 3 = some [b0, b1, b2] := by
  obtain ⟨b0, h0⟩ := h (3 * e) (by omega)
  obtain ⟨b1, h1⟩ := h (3 * e + 1) (by omega)
  obtain ⟨b2, h2⟩ := h (3 * e + 2) (by omega)
  exact ⟨b0, b1, b2, Memory.readBytes_three.2 ⟨h0, h1, h2⟩⟩

theorem wramWritten_of_recordAt {s : State} {len n : Nat} (hlen : len = 3 ∨ len = 4)
    (h : ∀ e, e < n → ∃ x, recordAt s.mem len e = some x) : WramWritten s (len * n) := by
  by_contra hw
  obtain ⟨e, he, hnone⟩ := (not_wramWritten hlen).1 hw
  obtain ⟨x, hx⟩ := h e he
  exact Option.some_ne_none x (hx.symm.trans hnone)

/-! ### The commands -/

section
variable {nsamp : Nat} {mimo : Bool} {s : State} {f : Nat → Memory → Option Memory}
  {rec : Word → List Byte} {len : Nat}

theorem codec_of_capacity_lt (h : s.params.sampleEntries < channels mimo * nsamp) :
    codec nsamp mimo f s = .next (s.finish .invalidArgument .countRange) :=
  if_pos h

theorem codec_zero (hf : f 0 s.mem = some s.mem) :
    codec 0 mimo f s = .next (s.finish .ok .none) := by
  rw [codec, Nat.mul_zero, if_neg (Nat.not_lt_zero _), hf]

theorem codec_finishes (hn : channels mimo * nsamp ≤ s.params.sampleEntries)
    (hf : codec nsamp mimo f s ≠ .fault .unwrittenRead) :
    ∃ m, f (channels mimo * nsamp) s.mem = some m ∧
      codec nsamp mimo f s = .next ({ s with mem := m }.finish .ok .none) := by
  rcases codec_cases nsamp mimo f s with ⟨hlt, -⟩ | ⟨-, -, hfault⟩ | ⟨-, hnext⟩
  · omega
  · exact absurd hfault hf
  · exact hnext

/-- A pack of written entries leaves the record of each, and every other byte as before. -/
theorem codec_packFrom_next (hrec : ∀ x, (rec x).length = len) (ho : s.params.Ok)
    (hn : channels mimo * nsamp ≤ s.params.sampleEntries)
    (hw : SramWritten s (channels mimo * nsamp)) :
    ∃ m, codec nsamp mimo (fun n => packFrom rec len n 0) s =
        .next ({ s with mem := m }.finish .ok .none) ∧
      (∀ e x, e < channels mimo * nsamp → s.mem.readWord (sramAddr e) = some x →
        m.readBytes (wramAddr (len * e)) len = some (rec x)) ∧
      ∀ a, (a < 0x2000 ∨ 0x2000 + len * (channels mimo * nsamp) ≤ a) →
        m.read a = s.mem.read a := by
  have hcap := ho.sampleEntries_le
  obtain ⟨m, hm, hnext⟩ := codec_finishes hn fun hfault => (codec_packFrom_fault ho hn).1 hfault hw
  obtain ⟨hwritten, hkept⟩ := packFrom_eq_some hrec (by omega) hm
  refine ⟨m, hnext, fun e x he hx => ?_, fun a ha => hkept a (by simpa [wramAddr] using ha)⟩
  obtain ⟨y, hy, hbytes⟩ := hwritten e (Nat.zero_le e) (by omega)
  obtain rfl := Option.some.inj (hx.symm.trans hy)
  exact Memory.readBytes_eq_some.2 ⟨hrec x, hbytes⟩

/-- An unpack of written records leaves the entry of each, and every other byte as before. -/
theorem codec_unpackFrom_next (hlen : len = 3 ∨ len = 4) (ho : s.params.Ok)
    (hn : channels mimo * nsamp ≤ s.params.sampleEntries)
    (hw : WramWritten s (len * (channels mimo * nsamp))) :
    ∃ m, codec nsamp mimo (fun n => unpackFrom len n 0) s =
        .next ({ s with mem := m }.finish .ok .none) ∧
      (∀ e x, e < channels mimo * nsamp → recordAt s.mem len e = some x →
        m.readWord (sramAddr e) = some x) ∧
      ∀ a, (a < 0x1000 ∨ 0x1000 + 4 * (channels mimo * nsamp) ≤ a) →
        m.read a = s.mem.read a := by
  have hcap := ho.sampleEntries_le
  obtain ⟨m, hm, hnext⟩ :=
    codec_finishes hn fun hfault => (codec_unpackFrom_fault hlen ho hn).1 hfault hw
  obtain ⟨hwritten, hkept⟩ := unpackFrom_eq_some (by omega) hm
  refine ⟨m, hnext, fun e x he hx => ?_, fun a ha => hkept a (by simpa [sramAddr] using ha)⟩
  obtain ⟨y, hy, hbytes⟩ := hwritten e (Nat.zero_le e) (by omega)
  obtain rfl := Option.some.inj (hx.symm.trans hy)
  exact Memory.readWord_eq_some.2
    ⟨_, _, _, _, hbytes 0 (by decide), hbytes 1 (by decide), hbytes 2 (by decide),
      hbytes 3 (by decide), (wordOfBytes_bytesOfWord x).symm⟩

end

/-- Settles O42: the four commands are `codec` with a transfer that does nothing for no entry. -/
theorem codecChecksItsCapacity : Obligations.CodecChecksItsCapacity := by
  intro nsamp mimo s i hi
  obtain ⟨f, hexec, hzero⟩ : ∃ f : Nat → Memory → Option Memory,
      exec i s = codec nsamp mimo f s ∧ f 0 s.mem = some s.mem := by
    simp only [List.mem_cons, List.not_mem_nil, or_false] at hi
    obtain rfl | rfl | rfl | rfl := hi
    · exact ⟨fun n => packFrom compress 3 n 0, rfl, rfl⟩
    · exact ⟨fun n => unpackFrom 3 n 0, rfl, rfl⟩
    · exact ⟨fun n => packFrom expand 4 n 0, rfl, rfl⟩
    · exact ⟨fun n => unpackFrom 4 n 0, rfl, rfl⟩
  rw [hexec]
  refine ⟨codec_of_capacity_lt, ?_⟩
  rintro rfl
  exact codec_zero hzero

/-- Settles O43: `compress_toNat` gives the bytes of each record. -/
theorem pack12WritesCompressedRecords : Obligations.Pack12WritesCompressedRecords := by
  intro nsamp mimo s n ho hn hw
  obtain ⟨m, hnext, hrecord, hkept⟩ := codec_packFrom_next compress_length ho hn hw
  refine ⟨_, hnext, rfl, fun e x he hx => ?_, hkept⟩
  obtain ⟨b0, b1, b2, hbytes, hb⟩ := compress_toNat x
  obtain ⟨h0, h1, h2⟩ := Memory.readBytes_three.1 ((hrecord e x he hx).trans (congrArg some hbytes))
  exact ⟨b0, b1, b2, h0, h1, h2, hb⟩

/-- Settles O44: `decompress_toInt` gives the two words of each entry. -/
theorem unpack12WritesSignExtendedPairs : Obligations.Unpack12WritesSignExtendedPairs := by
  intro nsamp mimo s n ho hn hw
  obtain ⟨m, hnext, hentry, hkept⟩ := codec_unpackFrom_next (.inl rfl) ho hn hw
  refine ⟨_, hnext, rfl, fun e b0 b1 b2 he h0 h1 h2 => ?_, hkept⟩
  have hrecord := recordAt_of_readBytes (Memory.readBytes_three.2 ⟨h0, h1, h2⟩)
  exact ⟨_, hentry e _ he hrecord, decompress_toInt b0 b1 b2⟩

/-- Settles O45: a record is the bytes of its two wire words, `wireWord_toNat` each. -/
theorem pack16WritesWireWords : Obligations.Pack16WritesWireWords := by
  intro nsamp mimo s n ho hn hw
  obtain ⟨m, hnext, hrecord, hkept⟩ := codec_packFrom_next expand_length ho hn hw
  refine ⟨_, hnext, rfl, fun e x he hx => ⟨_, ?_, wireWords_toNat x⟩, hkept⟩
  exact Memory.readWord_eq_some_iff_readBytes.2
    ((hrecord e x he hx).trans (congrArg some (expand_eq_bytesOfWord x)))

/-- Settles O46: each word of the entry is its wire word shifted, `asr4_toInt`. -/
theorem unpack16IgnoresLowBits : Obligations.Unpack16IgnoresLowBits := by
  intro nsamp mimo s n ho hn hw
  obtain ⟨m, hnext, hentry, hkept⟩ := codec_unpackFrom_next (.inr rfl) ho hn hw
  refine ⟨_, hnext, rfl, fun e y he hy => ?_, hkept⟩
  have hrecord := (recordAt_of_readBytes (Memory.readWord_eq_some_iff_readBytes.1 hy)).trans
    (entryOfBytes_bytesOfWord y)
  refine ⟨_, hentry e _ he hrecord, ?_, ?_⟩
  · rw [BitVec.extractLsb'_append_eq_right, asr4_toInt]
  · rw [BitVec.extractLsb'_append_eq_left, asr4_toInt]

/-! ### Round trips (R260) -/

/-- Unpacking, in any memory that holds the records of 12-bit entries, restores the entries. -/
theorem codec_unpackFrom_restores {nsamp : Nat} {mimo : Bool} {rec : Word → List Byte} {len : Nat}
    {t : State} {m₀ : Memory} (hlen : len = 3 ∨ len = 4)
    (hrec : ∀ x, entryOfBytes (rec x) = some (signExtendLow12 x)) (ho : t.params.Ok)
    (hn : channels mimo * nsamp ≤ t.params.sampleEntries)
    (hsram : ∀ e, e < channels mimo * nsamp → ∃ x, m₀.readWord (sramAddr e) = some x ∧ TwelveBit x)
    (hwram : ∀ e x, e < channels mimo * nsamp → m₀.readWord (sramAddr e) = some x →
      t.mem.readBytes (wramAddr (len * e)) len = some (rec x)) :
    ∃ m, codec nsamp mimo (fun n => unpackFrom len n 0) t =
        .next ({ t with mem := m }.finish .ok .none) ∧
      (∀ a, 0x1000 ≤ a → a < 0x1000 + 4 * (channels mimo * nsamp) → m.read a = m₀.read a) ∧
      ∀ a, (a < 0x1000 ∨ 0x1000 + 4 * (channels mimo * nsamp) ≤ a) → m.read a = t.mem.read a := by
  have hrecord : ∀ e x, e < channels mimo * nsamp → m₀.readWord (sramAddr e) = some x →
      TwelveBit x → recordAt t.mem len e = some x := fun e x he hx h12 => by
    rw [recordAt_of_readBytes (hwram e x he hx), hrec, signExtendLow12_of_twelveBit h12]
  have hw : WramWritten t (len * (channels mimo * nsamp)) :=
    wramWritten_of_recordAt hlen fun e he =>
      let ⟨x, hx, h12⟩ := hsram e he
      ⟨x, hrecord e x he hx h12⟩
  obtain ⟨m, hnext, hentry, hkept⟩ := codec_unpackFrom_next hlen ho hn hw
  refine ⟨m, hnext, fun a hlo hhi => ?_, hkept⟩
  obtain ⟨e, k, hk, rfl⟩ : ∃ e k, k < 4 ∧ a = sramAddr e + k :=
    ⟨(a - 0x1000) / 4, (a - 0x1000) % 4, by omega, by unfold sramAddr; omega⟩
  have he : e < channels mimo * nsamp := by unfold sramAddr at hhi; omega
  obtain ⟨x, hx, h12⟩ := hsram e he
  exact Memory.read_eq_of_readBytes (Memory.readWord_eq_some_iff_readBytes.1 hx)
    (Memory.readWord_eq_some_iff_readBytes.1 (hentry e x he (hrecord e x he hx h12))) hk

/-- Packing then unpacking in one layout restores the sample RAM. -/
theorem codec_pack_unpack_restores {nsamp : Nat} {mimo : Bool} {rec : Word → List Byte} {len : Nat}
    {s : State} (hlen : len = 3 ∨ len = 4) (hrecLen : ∀ x, (rec x).length = len)
    (hrec : ∀ x, entryOfBytes (rec x) = some (signExtendLow12 x)) (ho : s.params.Ok)
    (hn : channels mimo * nsamp ≤ s.params.sampleEntries)
    (hsram : ∀ e, e < channels mimo * nsamp →
      ∃ x, s.mem.readWord (sramAddr e) = some x ∧ TwelveBit x) :
    ∃ t, codec nsamp mimo (fun n => packFrom rec len n 0) s = .next t ∧
      ∀ t' : State, t'.params = t.params → t'.mem = t.mem →
        ∃ u, codec nsamp mimo (fun n => unpackFrom len n 0) t' = .next u ∧
          ∀ a, a < 0x2000 → u.mem.read a = s.mem.read a := by
  have hw : SramWritten s (channels mimo * nsamp) := fun e he =>
    let ⟨x, hx, _⟩ := hsram e he
    ⟨x, hx⟩
  obtain ⟨m, hnext, hrecord, hkept⟩ := codec_packFrom_next hrecLen ho hn hw
  refine ⟨_, hnext, fun t' hp hm => ?_⟩
  have hp' : t'.params = s.params := hp
  have hm' : t'.mem = m := hm
  obtain ⟨m', hnext', hrestored, hkept'⟩ := codec_unpackFrom_restores (t := t') hlen hrec
    (hp' ▸ ho) (hp' ▸ hn) hsram (hm' ▸ hrecord)
  refine ⟨_, hnext', fun a ha => ?_⟩
  show m'.read a = s.mem.read a
  by_cases hin : 0x1000 ≤ a ∧ a < 0x1000 + 4 * (channels mimo * nsamp)
  · exact hrestored a hin.1 hin.2
  · rw [hkept' a (by omega), hm', hkept a (.inl ha)]

/-- Settles O48: `codec_pack_unpack_restores` for each of the two layouts. -/
theorem packThenUnpackRestoresSamples : Obligations.PackThenUnpackRestoresSamples := by
  intro nsamp mimo s n ho hn hsram p hp
  simp only [List.mem_cons, List.not_mem_nil, or_false] at hp
  obtain rfl | rfl := hp
  · exact codec_pack_unpack_restores (.inl rfl) compress_length entryOfBytes_compress ho hn hsram
  · exact codec_pack_unpack_restores (.inr rfl) expand_length entryOfBytes_expand ho hn hsram

/-- Packing, in any memory that holds the entries of compressed records, restores the records. -/
theorem exec_pack12_restores {nsamp : Nat} {mimo : Bool} {t : State} {m₀ : Memory}
    (ho : t.params.Ok) (hn : channels mimo * nsamp ≤ t.params.sampleEntries)
    (hentries : ∀ e, e < channels mimo * nsamp → ∃ b0 b1 b2,
      m₀.readBytes (wramAddr (3 * e)) 3 = some [b0, b1, b2] ∧
        t.mem.readWord (sramAddr e) = some (decompress b0 b1 b2)) :
    ∃ m, exec (.pack12 nsamp mimo) t = .next ({ t with mem := m }.finish .ok .none) ∧
      (∀ a, 0x2000 ≤ a → a < 0x2000 + 3 * (channels mimo * nsamp) → m.read a = m₀.read a) ∧
      ∀ a, (a < 0x2000 ∨ 0x2000 + 3 * (channels mimo * nsamp) ≤ a) → m.read a = t.mem.read a := by
  have hw : SramWritten t (channels mimo * nsamp) := fun e he =>
    let ⟨_, _, _, _, hx⟩ := hentries e he
    ⟨_, hx⟩
  obtain ⟨m, hnext, hrecord, hkept⟩ := codec_packFrom_next compress_length ho hn hw
  refine ⟨m, hnext, fun a hlo hhi => ?_, hkept⟩
  obtain ⟨e, k, hk, rfl⟩ : ∃ e k, k < 3 ∧ a = wramAddr (3 * e) + k :=
    ⟨(a - 0x2000) / 3, (a - 0x2000) % 3, by omega, by unfold wramAddr; omega⟩
  have he : e < channels mimo * nsamp := by unfold wramAddr at hhi; omega
  obtain ⟨b0, b1, b2, hbytes, hx⟩ := hentries e he
  refine Memory.read_eq_of_readBytes hbytes ?_ hk
  rw [hrecord e _ he hx, compress_decompress]

/-- Settles O49: the unpack leaves the entry each record decodes to, which packs to that record. -/
theorem unpackThenPackRestoresBytes : Obligations.UnpackThenPackRestoresBytes := by
  intro nsamp mimo s n ho hn hw
  have hcap := ho.sampleEntries_le
  obtain ⟨m, hnext, hentry, hkept⟩ := codec_unpackFrom_next (.inl rfl) ho hn hw
  refine ⟨_, hnext, fun t' hp hm => ?_⟩
  have hp' : t'.params = s.params := hp
  have hm' : t'.mem = m := hm
  obtain ⟨m', hnext', hrestored, hkept'⟩ := exec_pack12_restores (t := t') (m₀ := s.mem)
    (hp' ▸ ho) (hp' ▸ hn) fun e he => by
      obtain ⟨b0, b1, b2, hbytes⟩ := hw.record he
      exact ⟨b0, b1, b2, hbytes, hm' ▸ hentry e _ he (recordAt_of_readBytes hbytes)⟩
  refine ⟨_, hnext', fun a ha => ?_⟩
  show m'.read a = s.mem.read a
  by_cases hin : a < 0x2000 + 3 * (channels mimo * nsamp)
  · exact hrestored a ha hin
  · rw [hkept' a (by omega), hm', hkept a (by omega)]

end Sys2Proof.Machine
end

section
/-! Exceptions (60_exceptions.md R284, R286, R296): what `finish` writes, that an idle block does
nothing, and that a rejection is the one step of its command. -/

namespace Sys2Proof.Machine

/-! ### `finish` and the idle block -/

/-- Settles O9: `finish` by its definition and that of its STAT. -/
theorem finishWritesResultAndIdles : Obligations.FinishWritesResultAndIdles := by
  intro s r d
  rfl

theorem sequencerTurn_idle {s : State} (hs : s.seq = .idle) : sequencerTurn s = .next s := by
  unfold sequencerTurn; rw [hs]

/-- Settles O8: the turn, listed or not, is that of an idle sequencer. -/
theorem idleBlockDoesNothing : Obligations.IdleBlockDoesNothing := by
  intro s hs
  refine ⟨fun h => ?_, fun rest h => ?_⟩
  · rw [step_nil h, sequencerTurn_idle hs]
  · rw [step_turn h]
    exact sequencerTurn_idle hs

/-! ### Rejections -/

/-- STAT reports a rejection (60_exceptions.md R285, R286). -/
def State.Rejected (s : State) : Prop :=
  s.stat.result = .invalidArgument ∨ s.stat.result = .illegalCommand

/-- If `t` reports a rejection, it is the DECODE state `s` ended by `finish`, with a check named
(60_exceptions.md R286). -/
def RejectsOnlyInDecode (s t : State) : Prop :=
  t.Rejected → s.stage = .decode ∧ t = s.finish t.stat.result t.stat.detail ∧ t.stat.detail ≠ .none

section
variable {i : Instr} {s t : State} {d : Detail}

theorem State.not_rejected_finish {r : Result} (ha : r ≠ .invalidArgument)
    (hi : r ≠ .illegalCommand) : ¬ (s.finish r d).Rejected :=
  not_or.2 ⟨ha, hi⟩

/-- The result of a running command is OK (10_state.md R23). -/
theorem Inv.not_rejected (h : Inv s) (hs : s.seq = .exec) : ¬ s.Rejected := by
  obtain ⟨hok, -, -⟩ := h.running (h.busy_iff.2 hs)
  simp [State.Rejected, hok]

theorem RejectsOnlyInDecode.of_not_rejected (h : ¬ t.Rejected) : RejectsOnlyInDecode s t :=
  fun ht => absurd ht h

theorem RejectsOnlyInDecode.of_result_eq (hs : ¬ s.Rejected)
    (h : t.stat.result = s.stat.result) : RejectsOnlyInDecode s t :=
  .of_not_rejected (by rwa [State.Rejected, h])

theorem RejectsOnlyInDecode.of_finish (hst : s.stage = .decode) (r : Result) (hd : d ≠ .none) :
    RejectsOnlyInDecode s (s.finish r d) :=
  fun _ => ⟨hst, rfl, hd⟩

/-- A DECODE step that rejects under a named check, or keeps the result. -/
theorem RejectsOnlyInDecode.of_reject_or_result_eq (hs : ¬ s.Rejected) (hst : s.stage = .decode)
    (h : (∃ d, d ≠ .none ∧ t = s.finish .invalidArgument d) ∨ t.stat.result = s.stat.result) :
    RejectsOnlyInDecode s t := by
  rcases h with ⟨d, hd, rfl⟩ | h
  · exact .of_finish hst _ hd
  · exact .of_result_eq hs h

/-! ### The stages after DECODE -/

theorem batchStage_stat (s : State) : (batchStage s).stat = s.stat := by
  rcases batchStage_cases s with ⟨-, e⟩ | ⟨-, -, e⟩ | ⟨-, -, e⟩ <;> rw [e] <;> rfl

theorem pollStage_stat (a : RegAddr) (exit : Stage) (s : State) :
    (pollStage a exit s).stat = s.stat := by
  rcases pollStage_cases a exit s with ⟨-, e⟩ | ⟨-, -, e⟩ | ⟨-, -, _, -, e⟩ | ⟨-, -, -, e⟩ <;>
    rw [e] <;> rfl

/-- CLEAR writes no field of STAT but CLR_FAIL (40_register_protocol.md R143). -/
theorem clearStage_result (s : State) : (clearStage s).stat.result = s.stat.result := by
  rcases clearStage_cases s with ⟨-, e⟩ | ⟨-, e⟩
  · exact congrArg (·.stat.result) e
  · exact congrArg (·.stat.result) e

/-- No pending outcome is a rejection (40_register_protocol.md R144). -/
theorem finishTerm_not_rejected (s : State) : ¬ (finishTerm s).Rejected := by
  rcases finishTerm_cases s with ⟨-, e⟩ | ⟨-, e⟩ | ⟨_, -, e⟩ | ⟨-, e⟩ <;> rw [e]
  all_goals exact State.not_rejected_finish nofun nofun

/-! ### The commands -/

/-- A configuration sequence whose DECODE step rejects, or keeps the result. -/
theorem rejectsOnlyInDecode_configStages {dec : State → State} (hs : ¬ s.Rejected)
    (hdec : (∃ d, d ≠ .none ∧ dec s = s.finish .invalidArgument d) ∨
      (dec s).stat.result = s.stat.result) :
    RejectsOnlyInDecode s (configStages dec s) := by
  unfold configStages
  cases hst : s.stage with
  | decode => exact .of_reject_or_result_eq hs hst hdec
  | batch => exact .of_result_eq hs (by rw [batchStage_stat])
  | poll => exact .of_result_eq hs (by rw [pollStage_stat])
  | clear => exact .of_result_eq hs (clearStage_result s)
  | finish => exact .of_not_rejected (finishTerm_not_rejected _)

theorem execRegRead_not_rejected {addr : RegAddr} (h : execRegRead addr s = .next t) :
    ¬ t.Rejected := by
  cases h
  split <;> exact State.not_rejected_finish nofun nofun

theorem rejectsOnlyInDecode_regWriteDecode (hs : ¬ s.Rejected) (count : Nat)
    (hst : s.stage = .decode) : RejectsOnlyInDecode s (regWriteDecode count s) := by
  unfold regWriteDecode
  split
  · exact .of_finish hst _ nofun
  · exact .of_result_eq hs rfl

theorem rejectsOnlyInDecode_execRegWrite {count : Nat} (hs : ¬ s.Rejected)
    (h : execRegWrite count s = .next t) : RejectsOnlyInDecode s t := by
  cases h
  cases hst : s.stage with
  | decode => exact rejectsOnlyInDecode_regWriteDecode hs count hst
  | batch | poll | clear => exact .of_result_eq hs rfl
  | finish => exact .of_not_rejected (finishTerm_not_rejected s)

theorem rejectsOnlyInDecode_pollDecode (hs : ¬ s.Rejected) (hst : s.stage = .decode) :
    RejectsOnlyInDecode s (pollDecode s) := by
  unfold pollDecode
  split
  · exact .of_result_eq hs rfl
  · exact .of_finish hst _ nofun

theorem rejectsOnlyInDecode_execPoll {addr : RegAddr} (hs : ¬ s.Rejected)
    (h : execPoll addr s = .next t) : RejectsOnlyInDecode s t := by
  cases h
  cases hst : s.stage with
  | decode => exact rejectsOnlyInDecode_pollDecode hs hst
  | batch | clear => exact .of_result_eq hs rfl
  | poll => exact .of_result_eq hs (by rw [pollStage_stat])
  | finish => exact .of_not_rejected (finishTerm_not_rejected s)

/-- A codec command is a transfer in DECODE, the one stage it has (43_sample_codec.md R252). -/
theorem exec_of_isCodec (hi : isCodec i = true) (hfit : hasStage i s.stage = true) :
    s.stage = .decode ∧ ∃ nsamp mimo f, exec i s = codec nsamp mimo f s := by
  cases i with
  | pack12 nsamp mimo =>
    exact ⟨of_decide_eq_true hfit, nsamp, mimo, fun n => packFrom compress 3 n 0, rfl⟩
  | unpack12 nsamp mimo =>
    exact ⟨of_decide_eq_true hfit, nsamp, mimo, fun n => unpackFrom 3 n 0, rfl⟩
  | pack16 nsamp mimo =>
    exact ⟨of_decide_eq_true hfit, nsamp, mimo, fun n => packFrom expand 4 n 0, rfl⟩
  | unpack16 nsamp mimo =>
    exact ⟨of_decide_eq_true hfit, nsamp, mimo, fun n => unpackFrom 4 n 0, rfl⟩
  | nop | regRead _ | regWrite _ | poll _ | pllConfig _ _ | phaseFixed _ _ | phaseSearch _ _ =>
    cases hi

theorem rejectsOnlyInDecode_exec_of_isCodec (hi : isCodec i = true)
    (hfit : hasStage i s.stage = true) (h : exec i s = .next t) : RejectsOnlyInDecode s t := by
  obtain ⟨hst, nsamp, mimo, f, hexec⟩ := exec_of_isCodec hi hfit
  rw [hexec] at h
  rcases codec_cases nsamp mimo f s with ⟨-, e⟩ | ⟨-, -, e⟩ | ⟨-, _, -, e⟩ <;> rw [e] at h <;>
    cases h
  · exact .of_finish hst _ nofun
  · exact .of_not_rejected (State.not_rejected_finish nofun nofun)

/-- One sequencer step of a command in a stage it has rejects only in DECODE. -/
theorem exec_rejectsOnlyInDecode (hs : ¬ s.Rejected) (hfit : hasStage i s.stage = true)
    (h : exec i s = .next t) : RejectsOnlyInDecode s t := by
  cases i with
  | nop => cases h; exact .of_not_rejected (State.not_rejected_finish nofun nofun)
  | regRead _ => exact .of_not_rejected (execRegRead_not_rejected h)
  | regWrite _ => exact rejectsOnlyInDecode_execRegWrite hs h
  | poll _ => exact rejectsOnlyInDecode_execPoll hs h
  | pllConfig _ _ =>
    cases h
    exact rejectsOnlyInDecode_configStages hs
      ((pllDecode_cases _ _ s).imp_right fun ⟨_, _, e⟩ => by rw [e]; rfl)
  | phaseFixed _ _ =>
    cases h
    exact rejectsOnlyInDecode_configStages hs
      ((phaseFixedDecode_cases _ _ s).imp_right fun ⟨_, _, _, e⟩ => by rw [e]; rfl)
  | phaseSearch _ _ =>
    cases h
    exact rejectsOnlyInDecode_configStages hs
      ((phaseSearchDecode_cases _ _ s).imp_right fun ⟨_, _, e⟩ => by rw [e]; rfl)
  | pack12 _ _ | unpack12 _ _ | pack16 _ _ | unpack16 _ _ =>
    exact rejectsOnlyInDecode_exec_of_isCodec rfl hfit h

/-! ### The turn -/

/-- An illegal word has no stage but DECODE (30_encoding.md R108). -/
theorem Inv.stage_eq_decode_of_illegal (h : Inv s) (hs : s.seq = .exec)
    (hd : decode s.cmd = .unknownOpcode ∨ decode s.cmd = .reservedBits) : s.stage = .decode := by
  have hfits := h.stage_fits hs
  unfold StageFits at hfits
  rcases hd with hd | hd <;> rw [hd] at hfits <;> exact hfits

/-- The sequencer's turn on a running command rejects only in DECODE. -/
theorem Inv.sequencerTurn_rejectsOnlyInDecode (h : Inv s) (hs : s.seq = .exec)
    (he : Machine.sequencerTurn s = .next t) : RejectsOnlyInDecode s t := by
  rcases sequencerTurn_cases s with ⟨hidle, -⟩ | ⟨-, hd, e⟩ | ⟨-, hd, e⟩ | ⟨-, i, hi, e⟩
  · rw [hs] at hidle; cases hidle
  · rw [e] at he; cases he
    exact .of_finish (h.stage_eq_decode_of_illegal hs (.inl hd)) _ nofun
  · rw [e] at he; cases he
    exact .of_finish (h.stage_eq_decode_of_illegal hs (.inr hd)) _ nofun
  · exact exec_rejectsOnlyInDecode (h.not_rejected hs) (h.hasStage_stage hs hi) (e.symm.trans he)

end

/-- Settles O57: the turn, listed or not, is the sequencer's in a state with the invariant. -/
theorem rejectionsWriteOnlyStat : Obligations.RejectionsWriteOnlyStat := by
  intro s u t h hs hin he hrejected
  rcases hin with ⟨hnil, rfl⟩ | ⟨rest, hturn, rfl⟩
  · rw [step_nil hnil] at he
    exact h.sequencerTurn_rejectsOnlyInDecode hs he hrejected
  · rw [step_turn hturn] at he
    have hu : Inv { s with inputs := rest } := h.of_view_eq rfl rfl
    exact hu.sequencerTurn_rejectsOnlyInDecode hs he hrejected

end Sys2Proof.Machine
end

section
/-! Reset (70_reset_and_hazards.md R310-R312): the reset state, and a reset that cuts a transaction
short. -/

namespace Sys2Proof.Machine

/-! ### The reset state -/

/-- The spec's parameters are values the rules are written for (00_scope.md R7). -/
theorem defaults_ok : Config.defaults.Ok := by
  constructor <;> decide

/-- Settles O53: the reset state is its own reset, and reports no divider. -/
theorem invariantsHoldAtReset : Obligations.InvariantsHoldAtReset :=
  ⟨inv_resetBlock State.reset, reportsInRange_of_reset rfl rfl, defaults_ok⟩

/-- Settles O10: each register's word and each table entry evaluates to 0. -/
theorem resetLeavesZeroRegisters : Obligations.ResetLeavesZeroRegisters := by
  have hregisters : ∀ off ∈ [0x000, 0x004, 0x008, 0x00C, 0x010, 0x014, 0x018, 0x01C, 0x020, 0x024],
      (locAt State.reset.params off).map (readLoc State.reset) = some (some 0) := by decide
  have houtputs : ∀ i : Fin 16,
      State.reset.resC[i] = 0 ∧ State.reset.outFreq[i] = 0 ∧ State.reset.outCfg[i] = 0 := by decide
  have hbatch : ∀ k : Fin 64, State.reset.batch[k] = 0 := by decide
  exact ⟨hregisters, houtputs, hbatch, fun _ => rfl, rfl, rfl⟩

/-! ### The transaction in flight -/

section
variable {i : Instr} {s : State} {a : RegAddr}

theorem transaction_of_batch (hs : s.seq = .exec) (hi : decode s.cmd = .instr i)
    (hst : s.stage = .batch) (hfit : hasStage i .batch = true) :
    s.transaction = some (.write (s.params.portList s.lBatch)) := by
  simp only [State.transaction, hs, hi, hst, hfit, if_true]

theorem transaction_of_clear (hs : s.seq = .exec) (hi : decode s.cmd = .instr i)
    (hst : s.stage = .clear) (hc : isConfig i = true) :
    s.transaction = some (.write (s.params.portList [(s.params.regmap.ctrl, s.lBase)])) := by
  simp only [State.transaction, hs, hi, hst, hasStage_of_isConfig hc, if_true]

theorem transaction_of_poll_config (hs : s.seq = .exec) (hi : decode s.cmd = .instr i)
    (hst : s.stage = .poll) (hc : isConfig i = true) :
    s.transaction = some (.read (s.params.portAddr s.params.regmap.status)) := by
  simp only [State.transaction, hs, hi, hst, hasStage_of_isConfig hc, if_true]
  cases i with
  | pllConfig _ _ | phaseFixed _ _ | phaseSearch _ _ => rfl
  | nop | regRead _ | regWrite _ | poll _ | pack12 _ _ | unpack12 _ _ | pack16 _ _
  | unpack16 _ _ => cases hc

theorem transaction_of_poll (hs : s.seq = .exec) (hi : decode s.cmd = .instr (.poll a))
    (hst : s.stage = .poll) : s.transaction = some (.read (s.params.portAddr a)) := by
  simp only [State.transaction, hs, hi, hst]
  rfl

theorem transaction_of_regRead (hs : s.seq = .exec) (hi : decode s.cmd = .instr (.regRead a))
    (hst : s.stage = .decode) : s.transaction = some (.read (s.params.portAddr a)) := by
  simp only [State.transaction, hs, hi, hst]
  rfl

theorem exists_transaction (h : InTransaction s) : ∃ t, s.transaction = some t :=
  Option.ne_none_iff_exists'.1 fun hnone => transaction_eq_none.1 hnone h

/-! ### What it leaves -/

/-- A read cut short leaves its event (R312). -/
theorem abortEvents_read (a : RegAddr) (d : Draw) :
    abortEvents (.read a) d = [if d.fails then .readFail a else .read a d.value] := by
  rw [abortEvents, readEvents]
  cases d.fails <;> rfl

/-- A batch cut short leaves the writes of a subsequence and BatchFail (R312). -/
theorem abortEvents_write (p : Params) (l : List (RegAddr × RegData)) (d : Draw) :
    ∃ sub : List (RegAddr × RegData), sub.Sublist (p.portList l) ∧
      abortEvents (.write (p.portList l)) d =
        sub.map (fun q => .write q.1 q.2) ++ [.batchFail l.length] :=
  ⟨_, appliedPairs_sublist _ d.applied, by
    rw [abortEvents, Params.portList_length, writeEvents]⟩

/-! ### The reset step -/

theorem resetStep_inFlight {t : Transaction} (h : s.transaction = some t) :
    resetStep true s = { s.popDraw.resetBlock with history := abortEvents t s.draw } := by
  unfold resetStep
  rw [h]

theorem resetStep_quiet {b : Bool} (h : b = false ∨ ¬ InTransaction s) :
    resetStep b s = s.resetBlock := by
  rcases h with rfl | h
  · rfl
  · rcases resetStep_cases b s with e | ⟨_, htrans, -⟩
    · exact e
    · rw [transaction_eq_none.2 h] at htrans; cases htrans

/-- Reset leaves the reset state but for the parameters, the environment's fields and the history
(R310, R311). -/
theorem resetStep_eq (b : Bool) (s : State) :
    resetStep b s = { State.reset with
      params := s.params, inputs := s.inputs, draws := (resetStep b s).draws,
      drawCount := (resetStep b s).drawCount, hostReads := s.hostReads,
      history := (resetStep b s).history } := by
  rcases resetStep_cases b s with e | ⟨_, -, e⟩ <;> rw [e] <;> rfl

end

/-- Settles O11: the reset step of the state without its reset input, by the transaction that the
stage of the running command performs. -/
theorem resetEndsACommand : Obligations.ResetEndsACommand := by
  intro s b rest hin
  refine ⟨_, step_reset hin, resetStep_eq b _, fun hquiet => ?_, ?_, fun i => ?_⟩
  · rw [resetStep_quiet (s := { s with inputs := rest }) hquiet]
    exact ⟨rfl, rfl, rfl⟩
  · rintro rfl htrans
    obtain ⟨t, ht⟩ := exists_transaction htrans
    rw [resetStep_inFlight (s := { s with inputs := rest }) ht]
    exact ⟨rfl, rfl⟩
  · rintro rfl hs hi
    have hhist {t : Transaction} (ht : s.transaction = some t) :
        (resetStep true { s with inputs := rest }).history = abortEvents t s.draw := by
      rw [resetStep_inFlight (s := { s with inputs := rest }) ht]
      rfl
    refine ⟨fun hst hfit => ?_, fun hst hc => ?_, fun hst hc => ?_, fun a hst ha => ?_,
      fun a hst ha => ?_⟩
    · rw [hhist (transaction_of_batch hs hi hst hfit)]
      exact abortEvents_write _ _ _
    · rw [hhist (transaction_of_clear hs hi hst hc)]
      exact abortEvents_write _ _ _
    · rw [hhist (transaction_of_poll_config hs hi hst hc), abortEvents_read]
    · rw [hhist (transaction_of_poll hs (ha ▸ hi) hst), abortEvents_read]
    · rw [hhist (transaction_of_regRead hs (ha ▸ hi) hst), abortEvents_read]

end Sys2Proof.Machine
end

section
/-! The start bit of a batch the block builds (70_reset_and_hazards.md R320). -/

namespace Sys2Proof.Machine

/-- REGMAP's other registers of a batch are not CTRL (20_memory.md R80). -/
theorem RegMap.ne_ctrl {g : RegMap} (h : g.distinct = true) {a : RegAddr}
    (ha : a ∈ [g.phsteps, g.mnOddByp, g.cenLo, g.cenHi, g.ncnt, g.mcnt] ++ g.c.toList) :
    a ≠ g.ctrl := by
  have hnodup := of_decide_eq_true h
  obtain ⟨hctrl, -⟩ := List.nodup_cons.1 (List.nodup_cons.1 hnodup).2
  rintro rfl
  exact hctrl ha

/-- A word with both start bits 0 has only bits above them. -/
theorem and_not_three {base : BitVec 16} (h : base &&& 3 = 0) : base &&& ~~~3 = base := by
  calc base &&& ~~~3 = (base &&& 3) ||| (base &&& ~~~3) := by rw [h]; exact BitVec.zero_or.symm
    _ = base &&& (3 ||| ~~~3) := BitVec.and_or_distrib_left.symm
    _ = base := BitVec.and_allOnes

/-- What R320 says of a batch with base word `base`. -/
def StartArmedLast (g : RegMap) (l : List (RegAddr × RegData)) (base : BitVec 16) : Prop :=
  ∃ (init : List (RegAddr × RegData)) (start : RegData),
    l = init ++ [(g.ctrl, start)] ∧ (start &&& 3 = 1 ∨ start &&& 3 = 2) ∧
    (∀ p ∈ init, p.1 = g.ctrl → p.2 &&& 3 = 0) ∧ base = start &&& ~~~3

/-- A batch that ends in the base word with one start bit set. -/
theorem startArmedLast_of_append {g : RegMap} {base b : BitVec 16} (hb : b = 1 ∨ b = 2)
    (hbase : base &&& 3 = 0) {init : List (RegAddr × RegData)}
    (hinit : ∀ p ∈ init, p.1 = g.ctrl → p.2 &&& 3 = 0) :
    StartArmedLast g (init ++ [(g.ctrl, base ||| b)]) base := by
  have hstart : (base ||| b) &&& 3 = b := by
    rw [BitVec.and_or_distrib_right, hbase]
    rcases hb with rfl | rfl <;> rfl
  have hrest : base = (base ||| b) &&& ~~~3 := by
    rw [BitVec.and_or_distrib_right, and_not_three hbase]
    rcases hb with rfl | rfl <;> exact BitVec.or_zero.symm
  exact ⟨init, _, rfl, hstart.symm ▸ hb, hinit, hrest⟩

/-- PLL_CONFIG writes CTRL once, last (41_pll_synthesizer.md R191). -/
theorem startArmedLast_pllBatch {g : RegMap} (hg : g.distinct = true) {base : BitVec 16}
    (hbase : base &&& 3 = 0) (r : PllResult) : StartArmedLast g (pllBatch g base r) base := by
  have hsplit : pllBatch g base r = ([(g.mnOddByp, mnOddByp r.sel.n r.sel.m),
      (g.ncnt, splitHalves r.sel.n), (g.mcnt, splitHalves r.sel.m)] ++
      (r.outs.map fun x => (g.c[x.1.idx], splitHalves x.2)) ++
      [(g.cenLo, cenLo r.outs), (g.cenHi, cenHi r.outs)]) ++ [(g.ctrl, base ||| 1)] := by
    simp only [pllBatch, List.append_assoc, List.cons_append, List.nil_append]
  rw [hsplit]
  refine startArmedLast_of_append (.inl rfl) hbase fun p hp hctrl => ?_
  refine absurd hctrl (RegMap.ne_ctrl hg ?_)
  simp only [List.cons_append, List.nil_append, List.mem_append, List.mem_cons, List.mem_map,
    List.not_mem_nil, or_false] at hp
  rcases hp with rfl | rfl | rfl | ⟨_, -, rfl⟩ | rfl | rfl <;> simp

/-- A phase command writes CTRL twice, first its base word (42_phase.md R226, R231). -/
theorem startArmedLast_phaseBatch {g : RegMap} (hg : g.distinct = true) {base : BitVec 16}
    (hbase : base &&& 3 = 0) (mag : BitVec 16) : StartArmedLast g (phaseBatch g base mag) base := by
  refine startArmedLast_of_append (init := [(g.ctrl, base), (g.phsteps, mag)]) (.inr rfl) hbase ?_
  simp only [List.forall_mem_cons]
  exact ⟨fun _ => hbase, fun h => absurd h (RegMap.ne_ctrl hg (by simp)), nofun⟩

section
variable {s t : State}

/-- A command that ends in DECODE does not reach BATCH. -/
theorem finish_stage_ne_batch (hst : s.stage = .decode) (r : Result) (d : Detail) :
    (s.finish r d).stage ≠ .batch := by
  rw [State.finish_stage, hst]; nofun

theorem startArmedLast_pllDecode (ho : s.params.Ok) (hst : s.stage = .decode) {pll nout : Nat}
    (hb : (pllDecode pll nout s).stage = .batch) :
    StartArmedLast s.params.regmap (pllDecode pll nout s).lBatch (pllDecode pll nout s).lBase := by
  rcases pllDecode_cases pll nout s with ⟨d, -, e⟩ | ⟨r, -, e⟩ <;> rw [e] at hb ⊢
  · exact absurd hb (finish_stage_ne_batch hst _ d)
  · exact startArmedLast_pllBatch ho.regmap_distinct (pllBase_start _ _) r

theorem startArmedLast_phaseStart (ho : s.params.Ok) (pll : Nat) (o : Fin 16) (steps : Int)
    (updn mode : Bool) (pred : Pred) :
    StartArmedLast s.params.regmap (phaseStart pll o steps updn mode pred s).lBatch
      (phaseStart pll o steps updn mode pred s).lBase :=
  startArmedLast_phaseBatch ho.regmap_distinct (phaseBase_start _ _ _ _ _ _) _

theorem startArmedLast_phaseFixedDecode (ho : s.params.Ok) (hst : s.stage = .decode) {pll : Nat}
    {o : Fin 16} (hb : (phaseFixedDecode pll o s).stage = .batch) :
    StartArmedLast s.params.regmap (phaseFixedDecode pll o s).lBatch
      (phaseFixedDecode pll o s).lBase := by
  rcases phaseFixedDecode_cases pll o s with ⟨d, -, e⟩ | ⟨-, -, -, e⟩ <;> rw [e] at hb ⊢
  · exact absurd hb (finish_stage_ne_batch hst _ d)
  · exact startArmedLast_phaseStart ho _ _ _ _ _ _

theorem startArmedLast_phaseSearchDecode (ho : s.params.Ok) (hst : s.stage = .decode) {pll : Nat}
    {o : Fin 16} (hb : (phaseSearchDecode pll o s).stage = .batch) :
    StartArmedLast s.params.regmap (phaseSearchDecode pll o s).lBatch
      (phaseSearchDecode pll o s).lBase := by
  rcases phaseSearchDecode_cases pll o s with ⟨d, -, e⟩ | ⟨-, -, e⟩ <;> rw [e] at hb ⊢
  · exact absurd hb (finish_stage_ne_batch hst _ d)
  · exact startArmedLast_phaseStart ho _ _ _ _ _ _

end

/-- Settles O58: the batch of each of the three commands ends in its start word. -/
theorem startBitIsArmedLast : Obligations.StartBitIsArmedLast := by
  intro i s t ho hc hst he hb
  cases i with
  | pllConfig pll nout =>
    rw [exec_pllConfig_of_decode hst] at he
    cases he
    exact startArmedLast_pllDecode ho hst hb
  | phaseFixed pll o =>
    rw [exec_phaseFixed_of_decode hst] at he
    cases he
    exact startArmedLast_phaseFixedDecode ho hst hb
  | phaseSearch pll o =>
    rw [exec_phaseSearch_of_decode hst] at he
    cases he
    exact startArmedLast_phaseSearchDecode ho hst hb
  | nop | regRead _ | regWrite _ | poll _ | pack12 _ _ | unpack12 _ _ | pack16 _ _
  | unpack16 _ _ => cases hc

end Sys2Proof.Machine
end

section
/-! A running command ends (70_reset_and_hazards.md R331): each of its steps ends it or brings it
nearer to its end. -/

namespace Sys2Proof.Machine

/-- The steps a command takes at most from a stage, with `k` status reads made (R331). -/
def stepsFrom (limit k : Nat) : Stage → Nat
  | .decode => limit + 4
  | .batch => limit + 3
  | .poll => limit - k + 2
  | .clear => 2
  | .finish => 1

def State.stepsLeft (s : State) : Nat := stepsFrom s.params.pollLimit s.pollcnt.toNat s.stage

theorem stepsFrom_pos (limit k : Nat) (st : Stage) : 0 < stepsFrom limit k st := by
  cases st <;> exact Nat.succ_pos _

theorem stepsFrom_le (limit k : Nat) (st : Stage) : stepsFrom limit k st ≤ limit + 4 := by
  cases st <;> simp only [stepsFrom] <;> omega

theorem stepsFrom_lt {st : Stage} (h : st ≠ .decode) (limit k : Nat) :
    stepsFrom limit k st < limit + 4 := by
  cases st with
  | decode => exact absurd rfl h
  | batch | poll | clear | finish => simp only [stepsFrom]; omega

/-- The command of `s` still runs in `t`, nearer to its end. -/
structure Advances (s t : State) : Prop where
  cmd : t.cmd = s.cmd
  seq : t.seq = s.seq
  inputs : t.inputs = s.inputs
  nearer : t.stepsLeft < s.stepsLeft

/-- The command of `s` is over in `t`, or nearer to its end. -/
def EndsOrAdvances (s t : State) : Prop := t.seq = .idle ∨ Advances s t

/-- The sequencer is next to move and runs a command, as the invariant has it. -/
structure Running (s : State) : Prop where
  ok : s.params.Ok
  inv : Inv s
  executing : s.seq = .exec
  noInputs : s.inputs = []

section
variable {i : Instr} {s t : State}

/-! ### The stages -/

theorem advances_batchStage (hst : s.stage = .batch) : Advances s (batchStage s) := by
  have hleft : s.stepsLeft = s.params.pollLimit + 3 := by rw [State.stepsLeft, hst, stepsFrom]
  rcases batchStage_cases s with ⟨-, e⟩ | ⟨-, -, e⟩ | ⟨-, -, e⟩ <;> rw [e]
  · exact ⟨rfl, rfl, rfl, by rw [hleft]; show 1 < _; omega⟩
  · refine ⟨rfl, rfl, rfl, ?_⟩
    rw [hleft]
    show s.params.pollLimit - s.pollcnt.toNat + 2 < _
    omega
  · exact ⟨rfl, rfl, rfl, by rw [hleft]; show 2 < _; omega⟩

/-- A status read leaves POLL, or one read fewer is left (40_register_protocol.md R140, R142). -/
theorem Running.advances_pollStage {exit : Stage} (h : Running s) (hst : s.stage = .poll)
    (hx : exit = .clear ∨ exit = .finish) (a : RegAddr) : Advances s (pollStage a exit s) := by
  have hlt : s.pollcnt.toNat < s.params.pollLimit := h.inv.poll_during h.executing hst
  have hlimit : s.params.pollLimit ≤ 65535 := h.ok.pollLimit_le
  have hk : (s.pollcnt + 1).toNat = s.pollcnt.toNat + 1 := by bv_omega
  have hleft : s.stepsLeft = s.params.pollLimit - s.pollcnt.toNat + 2 := by
    rw [State.stepsLeft, hst, stepsFrom]
  rcases pollStage_cases a exit s with ⟨hn, -⟩ | ⟨-, -, e⟩ | ⟨-, -, o, -, e⟩ | ⟨-, -, -, e⟩
  · omega
  · rw [e]
    exact ⟨rfl, rfl, rfl, by rw [hleft]; show 1 < _; omega⟩
  · rw [e]
    refine ⟨rfl, rfl, rfl, ?_⟩
    rw [hleft]
    rcases hx with rfl | rfl
    · show 2 < _; omega
    · show 1 < _; omega
  · rw [e]
    refine ⟨rfl, rfl, rfl, ?_⟩
    rw [hleft, State.stepsLeft, State.polled_stage, hst, State.polled_pollcnt, hk]
    show s.params.pollLimit - (s.pollcnt.toNat + 1) + 2 < _
    omega

theorem advances_clearStage (hst : s.stage = .clear) : Advances s (clearStage s) := by
  rcases clearStage_cases s with ⟨-, e⟩ | ⟨-, e⟩ <;> rw [e] <;>
    exact ⟨rfl, rfl, rfl, by rw [State.stepsLeft, State.stepsLeft, hst]; exact Nat.lt_succ_self 1⟩

theorem finishTerm_seq (s : State) : (finishTerm s).seq = .idle := by
  rcases finishTerm_cases s with ⟨-, e⟩ | ⟨-, e⟩ | ⟨_, -, e⟩ | ⟨-, e⟩ <;> rw [e] <;> rfl

/-- A configuration sequence whose DECODE step ends the command or moves on. -/
theorem Running.configStages {dec : State → State} (h : Running s)
    (hdec : s.stage = .decode → EndsOrAdvances s (dec s)) :
    EndsOrAdvances s (configStages dec s) := by
  unfold Machine.configStages
  cases hst : s.stage with
  | decode => exact hdec hst
  | batch => exact .inr (advances_batchStage hst)
  | poll => exact .inr (h.advances_pollStage hst (.inl rfl) _)
  | clear => exact .inr (advances_clearStage hst)
  | finish => exact .inl (finishTerm_seq _)

/-! ### The DECODE steps -/

/-- A DECODE step that moves to another stage. -/
theorem advances_of_decode (hst : s.stage = .decode) (hcmd : t.cmd = s.cmd) (hseq : t.seq = s.seq)
    (hinputs : t.inputs = s.inputs) (hparams : t.params = s.params) (ht : t.stage ≠ .decode) :
    Advances s t where
  cmd := hcmd
  seq := hseq
  inputs := hinputs
  nearer := by
    rw [State.stepsLeft, State.stepsLeft, hst, hparams]
    exact stepsFrom_lt ht _ _

theorem endsOrAdvances_pllDecode (hst : s.stage = .decode) (pll nout : Nat) :
    EndsOrAdvances s (pllDecode pll nout s) := by
  rcases pllDecode_cases pll nout s with ⟨_, -, e⟩ | ⟨_, -, e⟩ <;> rw [e]
  · exact .inl rfl
  · exact .inr (advances_of_decode hst rfl rfl rfl rfl nofun)

theorem advances_phaseStart (hst : s.stage = .decode) (pll : Nat) (o : Fin 16) (steps : Int)
    (updn mode : Bool) (pred : Pred) : Advances s (phaseStart pll o steps updn mode pred s) :=
  advances_of_decode hst rfl rfl rfl rfl nofun

theorem endsOrAdvances_phaseFixedDecode (hst : s.stage = .decode) (pll : Nat) (o : Fin 16) :
    EndsOrAdvances s (phaseFixedDecode pll o s) := by
  rcases phaseFixedDecode_cases pll o s with ⟨_, -, e⟩ | ⟨-, -, -, e⟩ <;> rw [e]
  · exact .inl rfl
  · exact .inr (advances_phaseStart hst _ _ _ _ _ _)

theorem endsOrAdvances_phaseSearchDecode (hst : s.stage = .decode) (pll : Nat) (o : Fin 16) :
    EndsOrAdvances s (phaseSearchDecode pll o s) := by
  rcases phaseSearchDecode_cases pll o s with ⟨_, -, e⟩ | ⟨-, -, e⟩ <;> rw [e]
  · exact .inl rfl
  · exact .inr (advances_phaseStart hst _ _ _ _ _ _)

theorem endsOrAdvances_regWriteDecode (hst : s.stage = .decode) (count : Nat) :
    EndsOrAdvances s (regWriteDecode count s) := by
  unfold regWriteDecode
  split
  · exact .inl rfl
  · exact .inr (advances_of_decode hst rfl rfl rfl rfl nofun)

theorem endsOrAdvances_pollDecode (hst : s.stage = .decode) : EndsOrAdvances s (pollDecode s) := by
  unfold pollDecode
  split
  · exact .inr (advances_of_decode hst rfl rfl rfl rfl nofun)
  · exact .inl rfl

/-! ### The commands -/

theorem Running.hasStage_stage (h : Running s) (hi : decode s.cmd = .instr i) :
    hasStage i s.stage = true := h.inv.hasStage_stage h.executing hi

theorem Running.execRegWrite {count : Nat} (h : Running s)
    (hi : decode s.cmd = .instr (.regWrite count)) :
    ∃ t, execRegWrite count s = .next t ∧ EndsOrAdvances s t := by
  have hfit := h.hasStage_stage hi
  refine ⟨_, rfl, ?_⟩
  cases hst : s.stage with
  | decode => exact endsOrAdvances_regWriteDecode hst count
  | batch =>
    refine .inr ⟨rfl, rfl, rfl, ?_⟩
    rw [State.stepsLeft, State.stepsLeft, hst]
    show 1 < s.params.pollLimit + 3
    omega
  | poll | clear => rw [hst] at hfit; cases hfit
  | finish => exact .inl (finishTerm_seq s)

theorem Running.execPoll {addr : RegAddr} (h : Running s)
    (hi : decode s.cmd = .instr (.poll addr)) :
    ∃ t, execPoll addr s = .next t ∧ EndsOrAdvances s t := by
  have hfit := h.hasStage_stage hi
  refine ⟨_, rfl, ?_⟩
  cases hst : s.stage with
  | decode => exact endsOrAdvances_pollDecode hst
  | batch | clear => rw [hst] at hfit; cases hfit
  | poll => exact .inr (h.advances_pollStage hst (.inr rfl) addr)
  | finish => exact .inl (finishTerm_seq s)

/-- Every command but those of the codec answers each step with a state. -/
theorem Running.exec (h : Running s) (hi : decode s.cmd = .instr i) (hc : isCodec i = false) :
    ∃ t, exec i s = .next t ∧ EndsOrAdvances s t := by
  cases i with
  | nop => exact ⟨_, rfl, .inl rfl⟩
  | regRead _ => exact ⟨_, rfl, .inl (by split <;> rfl)⟩
  | regWrite _ => exact h.execRegWrite hi
  | poll _ => exact h.execPoll hi
  | pllConfig _ _ =>
    exact ⟨_, rfl, h.configStages fun hst => endsOrAdvances_pllDecode hst _ _⟩
  | phaseFixed _ _ =>
    exact ⟨_, rfl, h.configStages fun hst => endsOrAdvances_phaseFixedDecode hst _ _⟩
  | phaseSearch _ _ =>
    exact ⟨_, rfl, h.configStages fun hst => endsOrAdvances_phaseSearchDecode hst _ _⟩
  | pack12 _ _ | unpack12 _ _ | pack16 _ _ | unpack16 _ _ => cases hc

/-- A codec command ends in its one step, or stops there. -/
theorem Running.exec_of_isCodec (h : Running s) (hi : decode s.cmd = .instr i)
    (hc : isCodec i = true) :
    (∃ t, Machine.exec i s = .next t ∧ t.seq = .idle) ∨
      Machine.exec i s = .fault .unwrittenRead := by
  obtain ⟨-, nsamp, mimo, f, hexec⟩ := Machine.exec_of_isCodec hc (h.hasStage_stage hi)
  rw [hexec]
  rcases codec_cases nsamp mimo f s with ⟨-, e⟩ | ⟨-, -, e⟩ | ⟨-, _, -, e⟩
  · exact .inl ⟨_, e, rfl⟩
  · exact .inr e
  · exact .inl ⟨_, e, rfl⟩

/-! ### The run -/

/-- The codec command of `s` stops on an unwritten read, as the outcome `o` of a run says. -/
def StopsInCodec (s : State) (o : Step) : Prop :=
  o = .fault .unwrittenRead ∧ ∃ i, decode s.cmd = .instr i ∧ isCodec i = true

/-- One step of a running command. -/
theorem Running.step_cases (h : Running s) :
    (∃ t, step s = .next t ∧ EndsOrAdvances s t) ∨ StopsInCodec s (step s) := by
  rw [step_nil h.noInputs]
  rcases sequencerTurn_cases s with ⟨hidle, -⟩ | ⟨-, -, e⟩ | ⟨-, -, e⟩ | ⟨-, i, hi, e⟩
  · rw [h.executing] at hidle; cases hidle
  · exact .inl ⟨_, e, .inl rfl⟩
  · exact .inl ⟨_, e, .inl rfl⟩
  · rw [e]
    cases hc : isCodec i with
    | false => exact .inl (h.exec hi hc)
    | true =>
      rcases h.exec_of_isCodec hi hc with ⟨t, ht, hidle⟩ | hfault
      · exact .inl ⟨t, ht, .inl hidle⟩
      · exact .inr ⟨hfault, i, hi, hc⟩

theorem Running.inv_step (h : Running s) (he : step s = .next t) : Inv t :=
  everyStepKeepsTheInvariant s t h.ok h.inv he

theorem Running.of_advances (h : Running s) (he : step s = .next t) (ha : Advances s t) :
    Running t where
  ok := parametersNeverChange s t he ▸ h.ok
  inv := h.inv_step he
  executing := ha.seq.trans h.executing
  noInputs := ha.inputs.trans h.noInputs

/-- The run of `k` steps from `s` ends with its command: the block is idle, or a codec command has
stopped. -/
def EndsAfter (k : Nat) (s : State) : Prop :=
  (∃ t, core.run k s = .next t ∧ t.seq = .idle ∧ t.stat.busy = false) ∨
    StopsInCodec s (core.run k s)

theorem endsAfter_one_of_idle (he : step s = .next t) (ht : Inv t) (hidle : t.seq = .idle) :
    EndsAfter 1 s := by
  refine .inl ⟨t, core_run_of_step he rfl, hidle, Bool.eq_false_iff.2 fun hbusy => ?_⟩
  rw [ht.busy_iff, hidle] at hbusy
  cases hbusy

theorem EndsAfter.of_step {k : Nat} (h : EndsAfter k t) (he : step s = .next t)
    (hcmd : t.cmd = s.cmd) : EndsAfter (k + 1) s := by
  simpa only [EndsAfter, StopsInCodec, core_run_succ k he, hcmd] using h

/-- A running command ends within the steps left, by induction on their number. -/
theorem Running.endsAfter (h : Running s) : ∃ k, k ≤ s.stepsLeft ∧ EndsAfter k s := by
  induction hn : s.stepsLeft using Nat.strong_induction_on generalizing s with
  | _ n ih =>
    subst hn
    have hpos : 0 < s.stepsLeft := stepsFrom_pos _ _ _
    rcases h.step_cases with ⟨t, he, hidle | ha⟩ | hstop
    · exact ⟨1, hpos, endsAfter_one_of_idle he (h.inv_step he) hidle⟩
    · obtain ⟨k, hk, hends⟩ := ih _ ha.nearer (h.of_advances he ha) rfl
      exact ⟨k + 1, hk.trans_lt ha.nearer, hends.of_step he ha.cmd⟩
    · exact ⟨1, hpos, .inr ⟨core_run_fault 0 hstop.1, hstop.2⟩⟩

end

/-- Settles O54: the steps left are at most those left in DECODE. -/
theorem everyCommandEnds : Obligations.EveryCommandEnds := by
  intro s ho h hs hin
  obtain ⟨k, hk, hends⟩ := Running.endsAfter ⟨ho, h, hs, hin⟩
  exact ⟨k, hk.trans (stepsFrom_le _ _ _), hends⟩

end Sys2Proof.Machine
end
